-- ==== Sys2Proof/Word.lean ====
section
/-! DEFINITION. The word types of the block: register widths u64 and u32 (00_scope.md R8), bytes (20_memory.md R60),
the 24-bit descriptor word (30_encoding.md R101) and simulation time (10_state.md R33). -/

namespace Sys2Proof

/-- A byte of memory, of the staging buffer or of a packet's payload. -/
abbrev Byte := BitVec 8

/-- `u32` (00_scope.md R8): SIZE, COMMAND, STATUS and the low words of the address registers. -/
abbrev U32 := BitVec 32

/-- `u64` (00_scope.md R8): SRC_ADDR and DST_ADDR. -/
abbrev U64 := BitVec 64

/-- The descriptor word of an operation (30_encoding.md R101). -/
abbrev Word := BitVec 24

/-- `Time` (10_state.md R33): natural numbers, no upper bound. -/
abbrev Time := Nat

end Sys2Proof
end

