-- ==== Sys2Proof/Syntax.lean ====
section
/-! DEFINITION. The operations of the block as syntax: one constructor of `Instr` per row of spec/opcode_table.json
(30_encoding.md R108), and the data their operands carry. -/

namespace Sys2Proof

/-- The direction of an MMIO access (30_encoding.md R100). -/
inductive Dir where
  | read
  | write
  deriving DecidableEq, Repr, Inhabited

/-- What an MMIO access does besides naming a place: a read, or a write with its value (30_encoding.md R100).
The value is an unsigned integer of `8*width` bits. -/
inductive Access where
  | read
  | write (value : Nat)
  deriving DecidableEq, Repr, Inhabited

/-- The direction of an access. -/
def Access.dir : Access → Dir
  | .read => .read
  | .write _ => .write

/-- The five registers (10_state.md R20), by their names in the MMIO map. -/
inductive RegName where
  | srcAddr
  | dstAddr
  | size
  | command
  | status
  deriving DecidableEq, Repr, Inhabited

/-- A packet (42_response_queue.md R200): what the packet abstraction carries, and the one thing the queue reads of
it, `needsResponse`. Every other field is uninterpreted data. -/
structure Packet where
  address : Nat
  size : Nat
  isWrite : Bool
  payload : List Byte
  responseFlag : Bool
  needsResponse : Bool
  deriving DecidableEq, Repr, Inhabited

/-- The 30 operations of 30_encoding.md R108, in its order. -/
inductive Instr where
  /-- RD_SRC_LO, R132. -/
  | rdSrcLo
  /-- RD_SRC, R133. -/
  | rdSrc
  /-- WR_SRC_LO, R134. -/
  | wrSrcLo (value : U32)
  /-- WR_SRC, R135. -/
  | wrSrc (value : U64)
  /-- RD_DST_LO, R136. -/
  | rdDstLo
  /-- RD_DST, R137. -/
  | rdDst
  /-- WR_DST_LO, R138. -/
  | wrDstLo (value : U32)
  /-- WR_DST, R139. -/
  | wrDst (value : U64)
  /-- RD_SIZE, R140. -/
  | rdSize
  /-- WR_SIZE, R141. -/
  | wrSize (value : U32)
  /-- RD_CMD, R142. -/
  | rdCmd
  /-- WR_CMD, R143. -/
  | wrCmd (value : U32)
  /-- RD_STATUS, R144. -/
  | rdStatus
  /-- WR_STATUS, R145. -/
  | wrStatus (value : U32)
  /-- BADW_SRC, R146: either direction at offset 0x00, width neither 4 nor 8. -/
  | badwSrc (access : Access) (width : Nat)
  /-- BADW_DST, R147: either direction at offset 0x04, width neither 4 nor 8. -/
  | badwDst (access : Access) (width : Nat)
  /-- BADW_SIZE, R148: either direction at offset 0x08, width not 4. -/
  | badwSize (access : Access) (width : Nat)
  /-- BADW_CMD, R149: either direction at offset 0x0C, width not 4. -/
  | badwCmd (access : Access) (width : Nat)
  /-- BADW_STATUS, R150: either direction at offset 0x10, width not 4. -/
  | badwStatus (access : Access) (width : Nat)
  /-- RD_UNMAPPED, R151. -/
  | rdUnmapped (offset width : Nat)
  /-- WR_UNMAPPED, R152. -/
  | wrUnmapped (offset width value : Nat)
  /-- START, R170, an internal step. -/
  | start
  /-- READ_DONE, R176. -/
  | readDone
  /-- WRITE_DONE, R178. -/
  | writeDone
  /-- SUBMIT, R201. -/
  | submit (pkt : Packet)
  /-- DRAIN, R202. -/
  | drain
  /-- TRY_DELIVER, R203, an internal step. -/
  | tryDeliver
  /-- PEER_READY, R207. -/
  | peerReady
  /-- TRANSLATE, R241, an internal step. -/
  | translate (va : U64) (n : Nat)
  /-- RANGE_QUERY, R248. -/
  | rangeQuery
  deriving DecidableEq, Repr

end Sys2Proof
end

