-- ==== Sys2Proof/Config.lean ====
section
/-! DEFINITION. The implementation parameters of 00_scope.md R6 and the free values of the model. A parameter the
source fixes is a named constant with the source's value; a parameter that is OPEN is a field of `Platform` (held in
State, so that statements range over it) whose value at reset is an opaque constant. -/

namespace Sys2Proof

/-- The operating mode `MODE` (00_scope.md R6, R17). -/
inductive Mode where
  | processEmulation
  | other
  deriving DecidableEq, Repr, Inhabited

/-- `OVERSIZE_POLICY` (00_scope.md R6, 41_transfer_controller.md R172). -/
inductive OversizePolicy where
  | fatal
  | clamp
  | dynamic
  deriving DecidableEq, Repr

/-- `ZERO_SIZE` (00_scope.md R6, 92_eei_decisions.md D13). -/
inductive ZeroSizePolicy where
  | complete
  | refuse
  deriving DecidableEq, Repr

/-- A page table as finite data: pairs of a virtual page number and the physical address of that page's first byte
(43_address_translator.md R243; log entry 5). -/
abbrev PageTable := List (Nat × Nat)

/-- What a Response Queue's backend stores, as data the queue does not interpret (20_memory.md R60 (4),
42_response_queue.md R213; log entry 10). -/
abbrev Storage := List (Nat × Byte)

/-- What one call of `serviceAccess` gives (00_scope.md R6, 42_response_queue.md R200, R213): the latency, and the access's
effect, which is the packet as the backend leaves it and the backend's storage after it. -/
structure Served where
  latency : Time
  packet : Packet
  storage : Storage
  deriving DecidableEq, Repr, Inhabited

/-- The platform parameters fixed at construction (00_scope.md R6, 20_memory.md R74). -/
structure Platform where
  /-- `BASE`: physical address of byte 0 of the MMIO window. -/
  base : Nat
  /-- `MODE`. -/
  mode : Mode
  /-- `PAGE_SIZE` is 2 to this power (43_address_translator.md R243: a power of two). -/
  pageBits : Fin 65
  /-- `PA_WIDTH`, at most 64. -/
  paWidth : Fin 65
  /-- Where physical memory sits: pairs of first address and length (20_memory.md R74, R85 (b)). -/
  ram : List (Nat × Nat)
  /-- The inclusive ranges a queue's backend claims (43_address_translator.md R248). -/
  backendRanges : List (Nat × Nat)
  deriving DecidableEq, Repr, Inhabited

/-- `WINDOW_SIZE`: the MMIO window is 4 KiB. -/
def Config.windowSize : Nat := 4096

/-- `PIO_LATENCY`: time from an MMIO access to its response. -/
def Config.pioLatency : Nat := 10

/-- `STAGING_CAPACITY`: 1 MiB. -/
def Config.stagingCapacity : Nat := 1048576

/-- `OVERSIZE_POLICY`: the spec's decision D12. -/
def Config.oversizePolicy : OversizePolicy := .fatal

/-- `CMD_STORE_ON_REJECT`: the spec's decision D9. -/
def Config.cmdStoreOnReject : Bool := false

/-- `ZERO_SIZE`: the spec's decision D13. -/
def Config.zeroSizePolicy : ZeroSizePolicy := .complete

/-- The OPEN platform parameters as construction leaves them (70_reset_and_hazards.md R301 (d); log entry 4). -/
opaque Config.platform : Platform

/-- The page table at construction, OPEN (70_reset_and_hazards.md R301 (c), (d); log entry 4). -/
opaque Config.pageTable : PageTable

/-- The scheduler's time at construction, any value (70_reset_and_hazards.md R301 (b); log entry 11). -/
opaque Config.startTime : Time

/-- Physical memory at construction, any contents (70_reset_and_hazards.md R301 (c), 93_implementation_defined.md S8): the
bytes in any order, a byte not listed being 0 (log entry 7). -/
opaque Config.memory : List (Nat × Byte)

/-- Free value: what a byte of the staging buffer holds before anything wrote it (10_state.md R28, R42; log entry 8). -/
opaque Config.stagingByte : Nat → Byte

/-- Free value: the peer's answer at a draw, for a packet (42_response_queue.md R214; log entry 9). -/
opaque Config.peerAccepts : Nat → Packet → Bool

/-- Free value: `serviceAccess` at a draw, for what the backend stores and a packet: the latency and the access's effect
(00_scope.md R6, 42_response_queue.md R213; log entry 10). -/
opaque Config.serviceAccess : Nat → Storage → Packet → Served

/-- The backend's storage at construction, any contents (70_reset_and_hazards.md R301 (c); log entry 10). -/
opaque Config.storage : Storage

/-- What is given with a further engine: its `BASE`, its process's page table, and what its staging buffer holds, the
bytes in any order (60_exceptions.md R281, 70_reset_and_hazards.md R301; log entries 8, 25). -/
structure EngineParams where
  base : Nat
  pageTable : PageTable
  staging : List (Nat × Byte)
  deriving DecidableEq, Repr

/-- What is given with a further queue: its backend's ranges and what the backend stores (60_exceptions.md R281). -/
structure QueueParams where
  ranges : List (Nat × Nat)
  storage : Storage
  deriving DecidableEq, Repr

/-- The engines beside the first, `N_ENGINES` less one of them (00_scope.md R6, 60_exceptions.md R281; log entry 25). -/
opaque Config.otherEngines : List EngineParams

/-- The queues beside the first, `N_QUEUES` less one of them (00_scope.md R6, 60_exceptions.md R281; log entry 25). -/
opaque Config.otherQueues : List QueueParams

/-- Free value: which of the enabled internal events runs next, at a draw (20_memory.md R76, R78; log entry 3). -/
opaque Config.scheduleChoice : Nat → Nat

end Sys2Proof
end

