-- ==== Sys2Proof/WellFormed.lean ====
section
/-! DEFINITION. Which operations are well formed: those the decode of an access inside the window can give
(30_encoding.md R100, R102, R111, R112). -/

namespace Sys2Proof

/-- The offsets that select a register (30_encoding.md R102 step 1, 20_memory.md R73). -/
def isRegOffset (offset : Nat) : Bool :=
  offset == 0x00 || offset == 0x04 || offset == 0x08 || offset == 0x0C || offset == 0x10

/-- The access lies in the window (20_memory.md R74, 30_encoding.md R102 step 0). -/
def inWindow (offset width : Nat) : Bool :=
  decide (offset < Config.windowSize) && decide (offset + width ≤ Config.windowSize)

/-- A written value is an integer of `8*width` bits (30_encoding.md R100). -/
def Access.fits (width : Nat) : Access → Bool
  | .read => true
  | .write v => decide (v < 2 ^ (8 * width))

/-- Well-formedness of an operation. -/
def Instr.wf : Instr → Bool
  | .badwSrc a w => w != 4 && w != 8 && inWindow 0x00 w && a.fits w
  | .badwDst a w => w != 4 && w != 8 && inWindow 0x04 w && a.fits w
  | .badwSize a w => w != 4 && inWindow 0x08 w && a.fits w
  | .badwCmd a w => w != 4 && inWindow 0x0C w && a.fits w
  | .badwStatus a w => w != 4 && inWindow 0x10 w && a.fits w
  | .rdUnmapped o w => !isRegOffset o && inWindow o w
  | .wrUnmapped o w v => !isRegOffset o && inWindow o w && decide (v < 2 ^ (8 * w))
  | .rdSrcLo | .rdSrc | .wrSrcLo _ | .wrSrc _ | .rdDstLo | .rdDst | .wrDstLo _ | .wrDst _ => true
  | .rdSize | .wrSize _ | .rdCmd | .wrCmd _ | .rdStatus | .wrStatus _ => true
  | .start | .readDone | .writeDone | .submit _ | .drain | .tryDeliver | .peerReady => true
  | .translate _ _ | .rangeQuery => true

/-- The operation's width fits the 8-bit width field of the descriptor word (30_encoding.md R101). -/
def Instr.fitsWord : Instr → Bool
  | .badwSrc _ w | .badwDst _ w | .badwSize _ w | .badwCmd _ w | .badwStatus _ w => decide (w < 256)
  | .rdUnmapped _ w | .wrUnmapped _ w _ => decide (w < 256)
  | .rdSrcLo | .rdSrc | .wrSrcLo _ | .wrSrc _ | .rdDstLo | .rdDst | .wrDstLo _ | .wrDst _ => true
  | .rdSize | .wrSize _ | .rdCmd | .wrCmd _ | .rdStatus | .wrStatus _ => true
  | .start | .readDone | .writeDone | .submit _ | .drain | .tryDeliver | .peerReady => true
  | .translate _ _ | .rangeQuery => true

end Sys2Proof
end

