-- ==== Sys2Proof/Decode.lean ====
section
/-! DEFINITION. Decoding an operation from its descriptor word or from an MMIO access (30_encoding.md R100 to R102,
R107, R109 to R112), the encoder, and the opcode table of R110 as data. -/

namespace Sys2Proof

/-- Why a request is no operation of the block. -/
inductive Reject where
  /-- An access that does not lie in the window (30_encoding.md R102 step 0, 20_memory.md R74). -/
  | outOfWindow
  /-- A descriptor of kind 7 whose sub-step is none of 0, 1, 2 (30_encoding.md R101). -/
  | reservedSubstep (n : Nat)
  deriving DecidableEq, Repr

/-- What an operation carries beside its descriptor word (30_encoding.md R101, R104): the write value, SUBMIT's
packet, TRANSLATE's virtual address and byte count. -/
structure Operand where
  value : Nat
  pkt : Packet
  va : U64
  n : Nat
  deriving DecidableEq, Repr, Inhabited

/-- The operand of an operation that carries at most a write value: every other part zero. -/
def operandOfValue (value : Nat) : Operand :=
  { value := value, pkt := ⟨0, 0, false, [], false, false⟩, va := 0, n := 0 }

/-- The fields of the descriptor word (30_encoding.md R101). -/
structure Fields where
  kind : BitVec 3
  dir : BitVec 1
  width : BitVec 8
  offset : BitVec 12
  deriving DecidableEq, Repr

/-- `D[23:21]` kind, `D[20]` dir, `D[19:12]` width, `D[11:0]` offset (30_encoding.md R101). -/
def fieldsOf (d : Word) : Fields :=
  { kind := d.extractLsb' 21 3, dir := d.extractLsb' 20 1,
    width := d.extractLsb' 12 8, offset := d.extractLsb' 0 12 }

/-- The descriptor word with the given fields, `kind ∥ dir ∥ width ∥ offset` (30_encoding.md R101). -/
def wordOf (f : Fields) : Word :=
  (f.kind ++ f.dir ++ f.width ++ f.offset : BitVec (3 + 1 + 8 + 12))

/-- Keep `8*width` bits of a written value (30_encoding.md R105). -/
def Access.trunc (width : Nat) : Access → Access
  | .read => .read
  | .write v => .write (v % 2 ^ (8 * width))

/-- Offset 0x00 (30_encoding.md R102). -/
def decodeSrc (a : Access) (width : Nat) : Instr :=
  if width = 4 then
    match a with
    | .read => .rdSrcLo
    | .write v => .wrSrcLo (BitVec.ofNat 32 v)
  else if width = 8 then
    match a with
    | .read => .rdSrc
    | .write v => .wrSrc (BitVec.ofNat 64 v)
  else .badwSrc (a.trunc width) width

/-- Offset 0x04 (30_encoding.md R102). -/
def decodeDst (a : Access) (width : Nat) : Instr :=
  if width = 4 then
    match a with
    | .read => .rdDstLo
    | .write v => .wrDstLo (BitVec.ofNat 32 v)
  else if width = 8 then
    match a with
    | .read => .rdDst
    | .write v => .wrDst (BitVec.ofNat 64 v)
  else .badwDst (a.trunc width) width

/-- Offset 0x08 (30_encoding.md R102). -/
def decodeSize (a : Access) (width : Nat) : Instr :=
  if width = 4 then
    match a with
    | .read => .rdSize
    | .write v => .wrSize (BitVec.ofNat 32 v)
  else .badwSize (a.trunc width) width

/-- Offset 0x0C (30_encoding.md R102). -/
def decodeCmd (a : Access) (width : Nat) : Instr :=
  if width = 4 then
    match a with
    | .read => .rdCmd
    | .write v => .wrCmd (BitVec.ofNat 32 v)
  else .badwCmd (a.trunc width) width

/-- Offset 0x10 (30_encoding.md R102). -/
def decodeStatus (a : Access) (width : Nat) : Instr :=
  if width = 4 then
    match a with
    | .read => .rdStatus
    | .write v => .wrStatus (BitVec.ofNat 32 v)
  else .badwStatus (a.trunc width) width

/-- An offset that selects no register (30_encoding.md R102 step 3, R112). -/
def decodeUnmapped (a : Access) (offset width : Nat) : Instr :=
  match a with
  | .read => .rdUnmapped offset width
  | .write v => .wrUnmapped offset width (v % 2 ^ (8 * width))

/-- The decode algorithm for an MMIO access (30_encoding.md R102): the window first, then the starting offset alone
selects, then the width is checked. -/
def decodeAccess (a : Access) (offset width : Nat) : Except Reject Instr :=
  if inWindow offset width then
    if offset = 0x00 then .ok (decodeSrc a width)
    else if offset = 0x04 then .ok (decodeDst a width)
    else if offset = 0x08 then .ok (decodeSize a width)
    else if offset = 0x0C then .ok (decodeCmd a width)
    else if offset = 0x10 then .ok (decodeStatus a width)
    else .ok (decodeUnmapped a offset width)
  else .error .outOfWindow

/-- The internal steps, kind 7 (30_encoding.md R101). -/
def decodeSubstep (n : Nat) (o : Operand) : Except Reject Instr :=
  if n = 0 then .ok .start
  else if n = 1 then .ok (.translate o.va o.n)
  else if n = 2 then .ok .tryDeliver
  else .error (.reservedSubstep n)

/-- Decode by fields: kind 0 is an MMIO access, kinds 1 to 6 the events, kind 7 the internal steps. The other fields of
kinds 1 to 6, and `dir` and `width` of kind 7, are not looked at (30_encoding.md R110, masks). -/
def decodeFields (f : Fields) (o : Operand) : Except Reject Instr :=
  match f.kind.toNat with
  | 0 => decodeAccess (if f.dir = 1#1 then .write o.value else .read) f.offset.toNat f.width.toNat
  | 1 => .ok (.submit o.pkt)
  | 2 => .ok .drain
  | 3 => .ok .peerReady
  | 4 => .ok .readDone
  | 5 => .ok .writeDone
  | 6 => .ok .rangeQuery
  | _ => decodeSubstep f.offset.toNat o

/-- Decode a descriptor word with its operand. Total on every word. -/
def decodeWord (d : Word) (o : Operand) : Except Reject Instr :=
  decodeFields (fieldsOf d) o

/-- Decode an access made at a physical address (30_encoding.md R100, R107): `offset = address - BASE`; an address below
BASE is not in the window. -/
def decodeAddress (base : Nat) (a : Access) (address width : Nat) : Except Reject Instr :=
  if base ≤ address then decodeAccess a (address - base) width else .error .outOfWindow

/-- The integer a byte payload stands for: byte `k` is `value[8k+7:8k]`, little-endian (20_memory.md R65, D5;
log entry 24). -/
def valueOfPayload : List Byte → Nat
  | [] => 0
  | b :: rest => b.toNat + 2 ^ 8 * valueOfPayload rest

/-- The `n` payload bytes of an integer, little-endian (20_memory.md R65, D5; log entry 24). -/
def payloadOfValue : Nat → Nat → List Byte
  | 0, _ => []
  | n + 1, v => BitVec.ofNat 8 v :: payloadOfValue n (v / 2 ^ 8)

/-- A request as it arrives from outside the block. -/
inductive Request where
  /-- An operation given by its descriptor word (30_encoding.md R101) and operand. -/
  | word (d : Word) (o : Operand)
  /-- An MMIO access at a physical address, of any width (30_encoding.md R100, R115). -/
  | access (a : Access) (address width : Nat)
  /-- An MMIO write whose value arrives as a packet's payload bytes (20_memory.md R65). -/
  | payload (address : Nat) (bytes : List Byte)
  deriving DecidableEq, Repr

/-- Decode a request at an engine whose window starts at `base`. -/
def decodeRequest (base : Nat) : Request → Except Reject Instr
  | .word d o => decodeWord d o
  | .access a address width => decodeAddress base a address width
  | .payload address bytes => decodeAddress base (.write (valueOfPayload bytes)) address bytes.length

/-- The instruction the decoder reads from an operation whose table bits are `w`: the descriptor word is the low 24
bits; bits the table gives no field stand above it, as the write value (30_encoding.md R116: "its descriptor word
followed by the write value, if any"). -/
def decodeTableWord (nbits w : Nat) : Option Instr :=
  match decodeWord (BitVec.ofNat 24 w) (operandOfValue (w % 2 ^ nbits / 2 ^ 24)) with
  | .ok i => some i
  | .error _ => none

/-! ## The encoder -/

/-- Descriptor of a read (30_encoding.md R101). -/
def readWord (offset width : Nat) : Word :=
  wordOf ⟨0#3, 0#1, BitVec.ofNat 8 width, BitVec.ofNat 12 offset⟩

/-- Descriptor of a write (30_encoding.md R101). -/
def writeWord (offset width : Nat) : Word :=
  wordOf ⟨0#3, 1#1, BitVec.ofNat 8 width, BitVec.ofNat 12 offset⟩

/-- Descriptor of an access of either direction (30_encoding.md R101). -/
def accessWord (a : Access) (offset width : Nat) : Word :=
  match a with
  | .read => readWord offset width
  | .write _ => writeWord offset width

/-- The write value of an access, 0 for a read. -/
def Access.value : Access → Nat
  | .read => 0
  | .write v => v

/-- Descriptor of an event or internal step (30_encoding.md R101, R110). -/
def eventWord (kind : BitVec 3) (substep : BitVec 12) : Word :=
  wordOf ⟨kind, 0#1, 0#8, substep⟩

/-- The descriptor word of an operation (30_encoding.md R101, R110). A width above 255 does not fit it. -/
def encodeWord : Instr → Word
  | .rdSrcLo => readWord 0x00 4
  | .rdSrc => readWord 0x00 8
  | .wrSrcLo _ => writeWord 0x00 4
  | .wrSrc _ => writeWord 0x00 8
  | .rdDstLo => readWord 0x04 4
  | .rdDst => readWord 0x04 8
  | .wrDstLo _ => writeWord 0x04 4
  | .wrDst _ => writeWord 0x04 8
  | .rdSize => readWord 0x08 4
  | .wrSize _ => writeWord 0x08 4
  | .rdCmd => readWord 0x0C 4
  | .wrCmd _ => writeWord 0x0C 4
  | .rdStatus => readWord 0x10 4
  | .wrStatus _ => writeWord 0x10 4
  | .badwSrc a w => accessWord a 0x00 w
  | .badwDst a w => accessWord a 0x04 w
  | .badwSize a w => accessWord a 0x08 w
  | .badwCmd a w => accessWord a 0x0C w
  | .badwStatus a w => accessWord a 0x10 w
  | .rdUnmapped o w => readWord o w
  | .wrUnmapped o w _ => writeWord o w
  | .submit _ => eventWord 1#3 0
  | .drain => eventWord 2#3 0
  | .peerReady => eventWord 3#3 0
  | .readDone => eventWord 4#3 0
  | .writeDone => eventWord 5#3 0
  | .rangeQuery => eventWord 6#3 0
  | .start => eventWord 7#3 0
  | .translate _ _ => eventWord 7#3 1
  | .tryDeliver => eventWord 7#3 2

/-- The operand of an operation (30_encoding.md R101, R104). -/
def encodeOperand : Instr → Operand
  | .wrSrcLo v | .wrDstLo v | .wrSize v | .wrCmd v | .wrStatus v => operandOfValue v.toNat
  | .wrSrc v | .wrDst v => operandOfValue v.toNat
  | .badwSrc a _ | .badwDst a _ | .badwSize a _ | .badwCmd a _ | .badwStatus a _ => operandOfValue a.value
  | .wrUnmapped _ _ v => operandOfValue v
  | .submit p => { operandOfValue 0 with pkt := p }
  | .translate va n => { operandOfValue 0 with va := va, n := n }
  | .rdSrcLo | .rdSrc | .rdDstLo | .rdDst | .rdSize | .rdCmd | .rdStatus => operandOfValue 0
  | .rdUnmapped _ _ => operandOfValue 0
  | .start | .readDone | .writeDone | .drain | .tryDeliver | .peerReady | .rangeQuery => operandOfValue 0

/-- The encoder: descriptor word and operand. -/
def encode (i : Instr) : Word × Operand :=
  (encodeWord i, encodeOperand i)

/-- The MMIO access an operation is, as access, offset and width (30_encoding.md R100, R108); none for events and
internal steps (R104). -/
def accessOf : Instr → Option (Access × Nat × Nat)
  | .rdSrcLo => some (.read, 0x00, 4)
  | .rdSrc => some (.read, 0x00, 8)
  | .wrSrcLo v => some (.write v.toNat, 0x00, 4)
  | .wrSrc v => some (.write v.toNat, 0x00, 8)
  | .rdDstLo => some (.read, 0x04, 4)
  | .rdDst => some (.read, 0x04, 8)
  | .wrDstLo v => some (.write v.toNat, 0x04, 4)
  | .wrDst v => some (.write v.toNat, 0x04, 8)
  | .rdSize => some (.read, 0x08, 4)
  | .wrSize v => some (.write v.toNat, 0x08, 4)
  | .rdCmd => some (.read, 0x0C, 4)
  | .wrCmd v => some (.write v.toNat, 0x0C, 4)
  | .rdStatus => some (.read, 0x10, 4)
  | .wrStatus v => some (.write v.toNat, 0x10, 4)
  | .badwSrc a w => some (a, 0x00, w)
  | .badwDst a w => some (a, 0x04, w)
  | .badwSize a w => some (a, 0x08, w)
  | .badwCmd a w => some (a, 0x0C, w)
  | .badwStatus a w => some (a, 0x10, w)
  | .rdUnmapped o w => some (.read, o, w)
  | .wrUnmapped o w v => some (.write v, o, w)
  | .submit _ | .drain | .peerReady | .readDone | .writeDone | .rangeQuery => none
  | .start | .translate _ _ | .tryDeliver => none

/-- The request that asks an engine at `base` for an operation: an access at a physical address for an MMIO operation
(of any width), the descriptor word for the others. -/
def encodeRequest (base : Nat) (i : Instr) : Request :=
  match accessOf i with
  | some (a, offset, width) => .access a (base + offset) width
  | none => .word (encodeWord i) (encodeOperand i)

/-! ## The opcode table as data (30_encoding.md R109, R110) -/

/-- One row of the opcode table. -/
structure Row where
  mnemonic : String
  pattern : Word
  mask : Word
  priority : Nat
  deriving DecidableEq, Repr

/-- The priority 1 rows of kind 0: the exact hits (30_encoding.md R110). -/
def hitRows : List Row :=
  [⟨"RD_SRC_LO", 0x004000#24, 0xFFFFFF#24, 1⟩, ⟨"RD_SRC", 0x008000#24, 0xFFFFFF#24, 1⟩,
   ⟨"WR_SRC_LO", 0x104000#24, 0xFFFFFF#24, 1⟩, ⟨"WR_SRC", 0x108000#24, 0xFFFFFF#24, 1⟩,
   ⟨"RD_DST_LO", 0x004004#24, 0xFFFFFF#24, 1⟩, ⟨"RD_DST", 0x008004#24, 0xFFFFFF#24, 1⟩,
   ⟨"WR_DST_LO", 0x104004#24, 0xFFFFFF#24, 1⟩, ⟨"WR_DST", 0x108004#24, 0xFFFFFF#24, 1⟩,
   ⟨"RD_SIZE", 0x004008#24, 0xFFFFFF#24, 1⟩, ⟨"WR_SIZE", 0x104008#24, 0xFFFFFF#24, 1⟩,
   ⟨"RD_CMD", 0x00400C#24, 0xFFFFFF#24, 1⟩, ⟨"WR_CMD", 0x10400C#24, 0xFFFFFF#24, 1⟩,
   ⟨"RD_STATUS", 0x004010#24, 0xFFFFFF#24, 1⟩, ⟨"WR_STATUS", 0x104010#24, 0xFFFFFF#24, 1⟩]

/-- The rows of kinds 1 to 7 (30_encoding.md R110). -/
def eventRows : List Row :=
  [⟨"SUBMIT", 0x200000#24, 0xE00000#24, 1⟩, ⟨"DRAIN", 0x400000#24, 0xE00000#24, 1⟩,
   ⟨"PEER_READY", 0x600000#24, 0xE00000#24, 1⟩, ⟨"READ_DONE", 0x800000#24, 0xE00000#24, 1⟩,
   ⟨"WRITE_DONE", 0xA00000#24, 0xE00000#24, 1⟩, ⟨"RANGE_QUERY", 0xC00000#24, 0xE00000#24, 1⟩,
   ⟨"START", 0xE00000#24, 0xE00FFF#24, 1⟩, ⟨"TRANSLATE", 0xE00001#24, 0xE00FFF#24, 1⟩,
   ⟨"TRY_DELIVER", 0xE00002#24, 0xE00FFF#24, 1⟩]

/-- The priority 2 rows, width mismatches, and the priority 3 rows, misses (30_encoding.md R110). -/
def fallRows : List Row :=
  [⟨"BADW_SRC", 0x000000#24, 0xE00FFF#24, 2⟩, ⟨"BADW_DST", 0x000004#24, 0xE00FFF#24, 2⟩,
   ⟨"BADW_SIZE", 0x000008#24, 0xE00FFF#24, 2⟩, ⟨"BADW_CMD", 0x00000C#24, 0xE00FFF#24, 2⟩,
   ⟨"BADW_STATUS", 0x000010#24, 0xE00FFF#24, 2⟩,
   ⟨"RD_UNMAPPED", 0x000000#24, 0xF00000#24, 3⟩, ⟨"WR_UNMAPPED", 0x100000#24, 0xF00000#24, 3⟩]

/-- The table in ascending priority. -/
def opcodeRows : List Row := hitRows ++ eventRows ++ fallRows

/-- A word matches a row when `D & mask = match` (30_encoding.md R109). -/
def Row.matchesWord (r : Row) (d : Word) : Bool := d &&& r.mask == r.pattern

/-- The row a word takes: the first that matches, in ascending priority (30_encoding.md R109). -/
def rowOf (d : Word) : Option String :=
  (opcodeRows.find? (fun r => r.matchesWord d)).map Row.mnemonic

/-- The mnemonic of an operation (30_encoding.md R108). -/
def mnemonicOf : Instr → String
  | .rdSrcLo => "RD_SRC_LO"
  | .rdSrc => "RD_SRC"
  | .wrSrcLo _ => "WR_SRC_LO"
  | .wrSrc _ => "WR_SRC"
  | .rdDstLo => "RD_DST_LO"
  | .rdDst => "RD_DST"
  | .wrDstLo _ => "WR_DST_LO"
  | .wrDst _ => "WR_DST"
  | .rdSize => "RD_SIZE"
  | .wrSize _ => "WR_SIZE"
  | .rdCmd => "RD_CMD"
  | .wrCmd _ => "WR_CMD"
  | .rdStatus => "RD_STATUS"
  | .wrStatus _ => "WR_STATUS"
  | .badwSrc _ _ => "BADW_SRC"
  | .badwDst _ _ => "BADW_DST"
  | .badwSize _ _ => "BADW_SIZE"
  | .badwCmd _ _ => "BADW_CMD"
  | .badwStatus _ _ => "BADW_STATUS"
  | .rdUnmapped _ _ => "RD_UNMAPPED"
  | .wrUnmapped _ _ _ => "WR_UNMAPPED"
  | .start => "START"
  | .readDone => "READ_DONE"
  | .writeDone => "WRITE_DONE"
  | .submit _ => "SUBMIT"
  | .drain => "DRAIN"
  | .tryDeliver => "TRY_DELIVER"
  | .peerReady => "PEER_READY"
  | .translate _ _ => "TRANSLATE"
  | .rangeQuery => "RANGE_QUERY"

end Sys2Proof
end

