-- ==== Sys2Proof/Machine/Memory.lean ====
section
/-! DEFINITION. Physical memory as plain data (20_memory.md R63, 00_scope.md R9 (d)): its canonical form, reading and
writing one byte, and the memory that a list of bytes describes; the staging buffer likewise (10_state.md R28). -/

namespace Sys2Proof.Machine

/-- Physical memory: address and byte, addresses strictly rising, no entry equal to what an unlisted address reads as
(log entry 7). -/
abbrev Memory := List Host.Cell

/-- What an unlisted byte reads as. It fixes how contents are written down, not what memory holds at reset, which is
`Config.memory` (log entry 7). -/
def memDefault : Byte := 0

/-- Read one byte. -/
def memRead : Memory → Nat → Byte
  | [], _ => memDefault
  | (k, b) :: rest, a => if k = a then b else memRead rest a

/-- Put a byte in front of a memory whose addresses are all above `a`, unless `a` reads as it unlisted. -/
def memPush (a : Nat) (b : Byte) (m : Memory) : Memory :=
  if b = memDefault then m else (a, b) :: m

/-- Write one byte, keeping the canonical form. -/
def memWrite : Memory → Nat → Byte → Memory
  | [], a, b => memPush a b []
  | (k, c) :: rest, a, b =>
    if a < k then memPush a b ((k, c) :: rest)
    else if a = k then memPush a b rest
    else (k, c) :: memWrite rest a b

/-- The canonical form: addresses strictly rising, no entry that reads as an unlisted address does. -/
def Memory.wf : Memory → Bool
  | [] => true
  | (k, b) :: rest => decide (b ≠ memDefault) && rest.all (fun c => decide (k < c.1)) && Memory.wf rest

/-- The memory whose bytes a list gives, in any order, the first entry of an address counting. -/
def memoryOf : List Host.Cell → Memory
  | [] => []
  | (a, b) :: rest => memWrite (memoryOf rest) a b

/-! ## The staging buffer (10_state.md R28, 00_scope.md R9 (e)) -/

/-- `Stg[i]`: a byte nothing has written is a free value (log entry 8). -/
def stgRead : List (Nat × Byte) → Nat → Byte
  | [], i => Config.stagingByte i
  | (k, b) :: rest, i => if k = i then b else stgRead rest i

/-- `Stg[i] <- b`. -/
def stgWrite : List (Nat × Byte) → Nat → Byte → List (Nat × Byte)
  | [], i, b => [(i, b)]
  | (k, c) :: rest, i, b =>
    if i < k then (i, b) :: (k, c) :: rest
    else if i = k then (i, b) :: rest
    else (k, c) :: stgWrite rest i b

/-- Indices strictly rising, each below the capacity. -/
def stgWf : List (Nat × Byte) → Bool
  | [] => true
  | (k, _) :: rest =>
    decide (k < Config.stagingCapacity) && rest.all (fun c => decide (k < c.1)) && stgWf rest

/-- The buffer whose bytes a list gives, in any order, the first entry of an index counting; what lies past the capacity
is no byte of it. -/
def stgOf : List (Nat × Byte) → List (Nat × Byte)
  | [] => []
  | (i, b) :: rest => if i < Config.stagingCapacity then stgWrite (stgOf rest) i b else stgOf rest

end Sys2Proof.Machine
end

