-- ==== Sys2Proof/Machine/State.lean ====
section
/-! DEFINITION. The state as plain data: one engine and one queue with what they share with their environment (10_state.md
R43), and beside them any number of further engines and queues (60_exceptions.md R281); the reasons a step can stop; the
state right after construction. -/

namespace Sys2Proof.Machine

/-- The snapshot taken at an accepted trigger (10_state.md R27). -/
structure Snapshot where
  src : U64
  dst : U64
  size : U32
  deriving DecidableEq, Repr

/-- A list of physical segments (pa, len) (43_address_translator.md R242). -/
abbrev Segs := List (Nat × Nat)

/-- The transfer controller's phase (10_state.md R26). -/
inductive Phase where
  | none
  | readPending (snap : Snapshot) (srcSegs : Segs)
  | writePending (snap : Snapshot) (dstSegs : Segs)
  deriving DecidableEq, Repr

/-- A pending response entry (10_state.md R30). -/
structure Entry where
  pkt : Packet
  readyTime : Time
  deriving DecidableEq, Repr

/-- A fatal condition with the info it records (60_exceptions.md R260). -/
inductive Fatal where
  /-- F1 (R261): raised by the BADW operations. -/
  | badWidth (reg : RegName) (width : Nat)
  /-- F2 (R262): raised by TRANSLATE when `MODE = Other`. -/
  | translationUnsupported
  /-- F3 (R263): raised by PEER_READY when `retry = false`. -/
  | spuriousPeerReady
  /-- F4 (R264): raised by START when `size > STAGING_CAPACITY`. -/
  | stagingOverrun (size : U32)
  /-- F5 (R265): raised by START when a phase is outstanding. -/
  | overlappingTransfer
  /-- F6 (R266): raised by TRANSLATE; the lowest unmapped virtual address of the range. -/
  | translationFault (va : Nat)
  /-- F7 (R267): raised by START when a range passes 2^64. -/
  | addressWrap (snap : Snapshot)
  deriving DecidableEq, Repr

/-- A warning record (10_state.md R35, 60_exceptions.md R268, R269). -/
inductive Warning where
  | unmappedOffset (dir : Dir) (offset width : Nat)
  | startWhileBusy
  deriving DecidableEq, Repr

/-- What an MMIO response carries: the value of a read, nothing for a write (40_mmio_register_access.md R131). -/
inductive Reply where
  /-- The response to a write. -/
  | done
  /-- A 4-byte register read. -/
  | word (value : U32)
  /-- An 8-byte register read. -/
  | dword (value : U64)
  /-- A read at an unmapped offset: 0 as an integer of `8*width` bits (R151). -/
  | zero (width : Nat)
  deriving DecidableEq, Repr

/-- Something the block sends to its environment (10_state.md R43, "Outputs"). -/
inductive Output where
  /-- An MMIO response with its time stamp (40_mmio_register_access.md R131). -/
  | response (stamp : Time) (reply : Reply)
  /-- `Delivered(pkt, t)`: the peer accepted the packet (42_response_queue.md R204, R206). -/
  | delivered (pkt : Packet) (time : Time)
  /-- `serviceAccess(pkt)` was called, returned the latency and left the packet as `left` (42_response_queue.md R200,
  R213). -/
  | serviced (pkt : Packet) (latency : Time) (left : Packet)
  /-- SUBMIT returned "accepted" (42_response_queue.md R201, R210). -/
  | accepted (pkt : Packet)
  /-- The answer to an address-range query, inclusive bounds (43_address_translator.md R248). -/
  | ranges (answer : List (Nat × Nat))
  /-- The answer of TRANSLATE performed as an operation of its own (43_address_translator.md R241). -/
  | segments (answer : Segs)
  deriving DecidableEq, Repr

/-- An engine or a queue: the first of each, or the further engine or the further queue of an index
(60_exceptions.md R281; log entry 25). -/
inductive Who where
  | first
  | engine (k : Nat)
  | queue (k : Nat)
  deriving DecidableEq, Repr

/-- One thing an agent outside the block does to a further engine or queue. -/
inductive Act where
  /-- An operation is asked for: of the engine if it is one of an engine's, else of the queue. -/
  | request (r : Request)
  /-- The engine's copy primitive performs the single-byte access of index `i`. -/
  | byteAccess (i : Nat)
  /-- The engine's page table changes. -/
  | remap (pt : PageTable)
  /-- The interconnect asks the queue's port for its ranges. -/
  | queuePortQuery
  deriving DecidableEq, Repr

/-- One thing an agent outside the block does (00_scope.md R13; log entry 2). -/
inductive Stimulus where
  /-- A requester, the submitter, the scheduler, the peer or the interconnect performs an operation. -/
  | request (r : Request)
  /-- The transfer engine performs the single-byte access of index `i` of the outstanding phase (20_memory.md R78). -/
  | byteAccess (i : Nat)
  /-- The scheduler lets time reach `t` (10_state.md R33). -/
  | advance (t : Time)
  /-- Another agent stores a byte to physical memory (20_memory.md R78, 70_reset_and_hazards.md R318). -/
  | foreignStore (pa : Nat) (b : Byte)
  /-- The page table changes (43_address_translator.md R247, 70_reset_and_hazards.md R320). -/
  | remap (pt : PageTable)
  /-- The interconnect asks the queue's port for its ranges (43_address_translator.md R248). -/
  | queuePortQuery
  /-- An agent acts on the further engine, or the further queue, of index `k` (60_exceptions.md R281; log entry 25). -/
  | sibling (k : Nat) (a : Act)
  deriving DecidableEq, Repr

/-- A further engine: its own registers, phase and buffer, its own `BASE`, its process's page table, and what it has sent
(10_state.md R40, R43; 60_exceptions.md R281). -/
structure Engine where
  srcAddr : U64
  dstAddr : U64
  size : U32
  command : U32
  status : U32
  phase : Phase
  accessed : List Nat
  stg : List (Nat × Byte)
  outputs : List Output
  base : Nat
  pageTable : PageTable
  deriving DecidableEq, Repr

/-- A further queue: its own entries, flag and event slot, what it has sent, and its backend and peer (10_state.md R40,
R43; 60_exceptions.md R281). -/
structure Queue where
  queue : List Entry
  retry : Bool
  drainAt : Option Time
  outputs : List Output
  ranges : List (Nat × Nat)
  storage : Storage
  peerScript : List Bool
  backendScript : List Served
  deriving DecidableEq, Repr

/-- The state. The first block is the first engine, the second the first queue, the third what is common to all engines
and queues (10_state.md R40, R43), the last the environment as the model holds it (log entries 2, 4, 9, 10) and the
engines and queues beside the first (60_exceptions.md R281; log entry 25). -/
structure State where
  /-- SRC_ADDR (10_state.md R21). -/
  srcAddr : U64
  /-- DST_ADDR (R22). -/
  dstAddr : U64
  /-- SIZE (R23). -/
  size : U32
  /-- COMMAND (R24). -/
  command : U32
  /-- STATUS (R25). -/
  status : U32
  /-- The phase, with the snapshot and the segment list (R26, R27). -/
  phase : Phase
  /-- The indices of the outstanding phase's bytes already accessed, strictly rising (R38 (e)). -/
  accessed : List Nat
  /-- The staging buffer: index and byte, indices strictly rising (R28). -/
  stg : List (Nat × Byte)
  /-- `Q`, oldest first (R29). -/
  queue : List Entry
  /-- The retry flag (R31). -/
  retry : Bool
  /-- The drain event slot (R32). -/
  drainAt : Option Time
  /-- The current simulation time (R33). -/
  now : Time
  /-- The fatal latch (R34). -/
  fault : Option Fatal
  /-- The log of warnings, oldest first (R35). -/
  log : List Warning
  /-- Physical memory (R43, `Global.Mem`). -/
  mem : Memory
  /-- What the block has sent, oldest first (R43, "Outputs"). -/
  outputs : List Output
  /-- The platform parameters; no step changes them (00_scope.md R6). -/
  plat : Platform
  /-- `PT` (43_address_translator.md R243). -/
  pageTable : PageTable
  /-- What the agents outside the block do next, oldest first. -/
  inbox : List Stimulus
  /-- The peer's coming answers, the next one first. -/
  peerScript : List Bool
  /-- What the backend's coming calls give, the next one first. -/
  backendScript : List Served
  /-- What the backend stores (42_response_queue.md R213). -/
  storage : Storage
  /-- How many free values have been drawn. -/
  draws : Nat
  /-- The engines beside the first (60_exceptions.md R281). -/
  otherEngines : List Engine
  /-- The queues beside the first (60_exceptions.md R281). -/
  otherQueues : List Queue
  deriving DecidableEq, Repr

/-- Why a step stops with a fault. 00_scope.md R12 announces four outcomes of a step and names three: next state, fault,
refused. The model takes the unnamed fourth to be "stuck", the treatment 93_implementation_defined.md gives S4 (log entry
34), and `Host.Outcome` has no case for it: an access that is asked for and can never happen ends in the fault `noMemory`;
where nobody asks for it, the phase stays outstanding. -/
inductive Fault where
  /-- Raised by a step with nothing in the inbox after a fatal condition: the run is a fault, never final and never left
  (00_scope.md R12, 60_exceptions.md R274). Safe. -/
  | fatal (f : Fatal)
  /-- Raised by a byte access whose physical address holds no memory: the phase is stuck (20_memory.md R85 (b), D33; log
  entries 17, 34); also by a foreign store to such an address. Safe. -/
  | noMemory (pa : Nat)
  deriving DecidableEq, Repr

/-- Why a step is refused: the spec gives the situation no meaning (00_scope.md R12). -/
inductive Refusal where
  /-- Raised by an arm of `exec` whose operation has no meaning yet. Safe. -/
  | notModelled (mnemonic : String)
  /-- Raised by every operation and stimulus after a fatal condition (40_mmio_register_access.md R130 (a), S2). Safe. -/
  | afterFatal (f : Fatal)
  /-- Raised by a request that does not lie in the window (30_encoding.md R102 step 0, S1). Safe. -/
  | outOfWindow
  /-- Raised by a descriptor of kind 7 with a sub-step the spec does not name (30_encoding.md R101). Safe. -/
  | reservedSubstep (n : Nat)
  /-- Raised by a START not called as WR_CMD calls it, that is, with `status = 1` (41_transfer_controller.md R170,
  precondition). Safe. -/
  | startNotCalled
  /-- Raised by a TRY_DELIVER not called as DRAIN and PEER_READY call it, that is, with `retry` set or a drain event
  outstanding (42_response_queue.md R202, R203, R207). Safe. -/
  | deliverNotCalled
  /-- Raised by READ_DONE when no read phase has all its bytes read (41_transfer_controller.md R176). Safe. -/
  | readDoneNotEnabled
  /-- Raised by WRITE_DONE when no write phase has all its bytes written (41_transfer_controller.md R178). Safe. -/
  | writeDoneNotEnabled
  /-- Raised by DRAIN when no drain event is scheduled for the current time (42_response_queue.md R202). Safe. -/
  | drainNotEnabled
  /-- Raised by a byte access that the outstanding phase does not have, or has had (20_memory.md R78). Safe. -/
  | accessNotEnabled
  /-- Raised by a transfer whose physical range intersects the MMIO window (20_memory.md R85 (a), S3). Safe. -/
  | touchesWindow
  /-- Raised when time would go back or pass a scheduled drain event (10_state.md R33, 60_exceptions.md R279). Safe. -/
  | timeOrder
  /-- Raised by an act on a further engine or queue that does not exist (60_exceptions.md R281). Safe. -/
  | noSuch (w : Who)
  /-- Raised by START with `size = 0` under `ZERO_SIZE = refuse`, which is not the spec's choice (D13). Safe. -/
  | zeroSize
  deriving DecidableEq, Repr

/-- A further engine right after construction (10_state.md R42). -/
def Engine.reset (p : EngineParams) : Engine where
  srcAddr := 0
  dstAddr := 0
  size := 0
  command := 0
  status := 0
  phase := .none
  accessed := []
  stg := stgOf p.staging
  outputs := []
  base := p.base
  pageTable := p.pageTable

/-- A further queue right after construction (10_state.md R42). -/
def Queue.reset (p : QueueParams) : Queue where
  queue := []
  retry := false
  drainAt := none
  outputs := []
  ranges := p.ranges
  storage := p.storage
  peerScript := []
  backendScript := []

/-- The state right after construction (10_state.md R42, 70_reset_and_hazards.md R300, R301; log entries 4, 6 to 11).
What R301 leaves unspecified is a free value: the staging buffer (`Config.stagingByte`), `now`, the parameters, the page
table, physical memory and the backend's storage; so is how many further engines and queues there are (log entry 25). -/
def State.reset : State where
  srcAddr := 0
  dstAddr := 0
  size := 0
  command := 0
  status := 0
  phase := .none
  accessed := []
  stg := []
  queue := []
  retry := false
  drainAt := none
  now := Config.startTime
  fault := none
  log := []
  mem := memoryOf Config.memory
  outputs := []
  plat := Config.platform
  pageTable := Config.pageTable
  inbox := []
  peerScript := []
  backendScript := []
  storage := Config.storage
  draws := 0
  otherEngines := Config.otherEngines.map Engine.reset
  otherQueues := Config.otherQueues.map Queue.reset

end Sys2Proof.Machine
end

