-- ==== Sys2Proof/Machine/Ops.lean ====
section
/-! DEFINITION. The named operations every meaning is written over: stopping after a fatal condition, raising one,
logging, responding, which addresses hold memory, the bytes already accessed, and the draws of free values. -/

namespace Sys2Proof.Machine

/-- The outcome of a step. -/
abbrev Result := Host.Outcome State Fault Refusal

/-- Every rule of files 40 to 43 has `fault = none` as a precondition; after a fatal condition nothing has a meaning
(40_mmio_register_access.md R130 (a), 60_exceptions.md R274). -/
def whenLive (s : State) (k : Result) : Result :=
  match s.fault with
  | some f => .refused (.afterFatal f)
  | none => k

/-- `raise Fatal(code, info)`: latch the condition, leave all other state as it was at that point
(00_scope.md R9 (f), 60_exceptions.md R274). -/
def raise (s : State) (f : Fatal) : State :=
  { s with fault := some f }

/-- `warn(record)` (00_scope.md R9 (g), 10_state.md R35). -/
def warn (s : State) (w : Warning) : State :=
  { s with log := s.log ++ [w] }

/-- Send something to the environment. -/
def emit (s : State) (o : Output) : State :=
  { s with outputs := s.outputs ++ [o] }

/-- `respond(v)`: one response stamped `now + PIO_LATENCY` (40_mmio_register_access.md R131). -/
def respond (s : State) (r : Reply) : State :=
  emit s (.response (s.now + Config.pioLatency) r)

/-- A response unless the operation has raised a fatal condition (40_mmio_register_access.md R131). -/
def respondIfLive (s : State) (r : Reply) : State :=
  match s.fault with
  | none => respond s r
  | some _ => s

/-! ## Which physical addresses hold memory (20_memory.md R63, R74, R85) -/

/-- The address lies in one of the ranges (first address, length). -/
def inRanges (ranges : List (Nat × Nat)) (a : Nat) : Bool :=
  ranges.any (fun r => decide (r.1 ≤ a) && decide (a < r.1 + r.2))

/-- The address lies in the engine's MMIO window (20_memory.md R60). -/
def inMmioWindow (p : Platform) (a : Nat) : Bool :=
  decide (p.base ≤ a) && decide (a < p.base + Config.windowSize)

/-- There is memory behind a physical address: it has at most `PA_WIDTH` bits, the platform put memory there, and it is
not the MMIO window (20_memory.md R63, R74, R85). -/
def hasMemory (p : Platform) (a : Nat) : Bool :=
  decide (a < 2 ^ p.paWidth.val) && inRanges p.ram a && !inMmioWindow p a

/-! ## The set of bytes already accessed in the outstanding phase (10_state.md R38 (e)) -/

/-- Insert an index into a strictly rising list. -/
def insertIndex (i : Nat) : List Nat → List Nat
  | [] => [i]
  | k :: rest =>
    if i < k then i :: k :: rest
    else if i = k then k :: rest
    else k :: insertIndex i rest

/-! ## Draws (42_response_queue.md R213, R214; log entries 9, 10) -/

/-- The peer's answer to the next delivery attempt. -/
def peerAnswer (s : State) (p : Packet) : Bool :=
  match s.peerScript with
  | b :: _ => b
  | [] => Config.peerAccepts s.draws p

/-- The state after the peer has answered. -/
def afterPeerAnswer (s : State) : State :=
  match s.peerScript with
  | _ :: rest => { s with peerScript := rest }
  | [] => { s with draws := s.draws + 1 }

/-- What `serviceAccess` gives for the next packet (R213). -/
def serviceAnswer (s : State) (p : Packet) : Served :=
  match s.backendScript with
  | a :: _ => a
  | [] => Config.serviceAccess s.draws s.storage p

/-- The state after the backend has been called for a packet: its storage is what the call left. -/
def afterService (s : State) (p : Packet) : State :=
  { s with
    backendScript := s.backendScript.tail
    storage := (serviceAnswer s p).storage
    draws := if s.backendScript.isEmpty then s.draws + 1 else s.draws }

end Sys2Proof.Machine
end

