-- ==== Sys2Proof/Machine/Operands.lean ====
section
/-! DEFINITION. Operand assembly: the values of MMIO reads and writes (30_encoding.md R103, R105, R106). -/

namespace Sys2Proof.Machine

/-- `reg[31:0]`: what a 4-byte read of a u64 register returns (30_encoding.md R106). -/
def lowWord (r : U64) : U32 := r.extractLsb' 0 32

/-- `reg[63:32]` (30_encoding.md R103). -/
def highWord (r : U64) : U32 := r.extractLsb' 32 32

/-- `reg[63:32] ∥ value[31:0]`: what a 4-byte write leaves in a u64 register (30_encoding.md R105). -/
def withLowWord (r : U64) (value : U32) : U64 := (highWord r ++ value : BitVec (32 + 32))

end Sys2Proof.Machine
end

