-- ==== Sys2Proof/Machine/Flags.lean ====
section
/-! DEFINITION. The block has no arithmetic flags and no condition codes (10_state.md R36). What stands here is its one
command bit, the tests of STATUS, and the size test of a trigger. -/

namespace Sys2Proof.Machine

/-- `command[0]`, START: the value written triggers a transfer (10_state.md R24). -/
def startBit (value : U32) : Bool := value.getLsbD 0

/-- `status = 1`, the Busy test; it is on the register, not on the phase (41_transfer_controller.md R171). -/
def busy (s : State) : Bool := decide (s.status = 1)

/-- The size a trigger uses, or none if the size is fatal (41_transfer_controller.md R172). -/
def usableSize (policy : OversizePolicy) (size : U32) : Option U32 :=
  match policy with
  | .fatal => if size.toNat ≤ Config.stagingCapacity then some size else none
  | .clamp => some (if size.toNat ≤ Config.stagingCapacity then size else BitVec.ofNat 32 Config.stagingCapacity)
  | .dynamic => some size

/-- A range of `n` bytes at `a` passes the top of the 64-bit space (41_transfer_controller.md R174). -/
def wraps (a : U64) (n : U32) : Bool := decide (2 ^ 64 < a.toNat + n.toNat)

end Sys2Proof.Machine
end

