-- ==== Sys2Proof/Machine/Translator.lean ====
section
/-! DEFINITION. The Address Translator (43_address_translator.md): the page table as a byte map, the walk that cuts a
range into segments, TRANSLATE and RANGE_QUERY. -/

namespace Sys2Proof.Machine

/-- The physical address of a virtual page's first byte. -/
def pageLookup : PageTable → Nat → Option Nat
  | [], _ => none
  | (vpn, pa) :: rest, v => if vpn = v then some pa else pageLookup rest v

/-- `PT(v)` (43_address_translator.md R243): page-wise contiguous, and no address at or above 2^64 is mapped
(log entry 18). -/
def ptMap (pageSize : Nat) (pt : PageTable) (v : Nat) : Option Nat :=
  if v < 2 ^ 64 then
    match pageLookup pt (v / pageSize) with
    | some pa => some (pa + v % pageSize)
    | none => none
  else none

/-- The segments of the `n` bytes at `va`, cut at every page boundary and nowhere else, or the lowest unmapped address
(43_address_translator.md R241, R242, R245). `fuel` is at least the number of pages. -/
def walk (pageSize : Nat) (pt : PageTable) : Nat → Nat → Nat → Except Nat Segs
  | 0, _, _ => .ok []
  | fuel + 1, va, n =>
    if n = 0 then .ok []
    else
      match ptMap pageSize pt va with
      | none => .error va
      | some pa =>
        match walk pageSize pt fuel (va + min n (pageSize - va % pageSize))
            (n - min n (pageSize - va % pageSize)) with
        | .error v => .error v
        | .ok rest => .ok ((pa, min n (pageSize - va % pageSize)) :: rest)

/-- `PAGE_SIZE`. -/
def pageSize (p : Platform) : Nat := 2 ^ p.pageBits.val

/-- The walk over a whole range. -/
def walkRange (s : State) (va n : Nat) : Except Nat Segs :=
  walk (pageSize s.plat) s.pageTable n va n

/-- TRANSLATE's answer (43_address_translator.md R241): the mode first, then the bytes. -/
def translation (s : State) (va n : Nat) : Except Fatal Segs :=
  match s.plat.mode with
  | .other => .error .translationUnsupported
  | .processEmulation =>
    match walkRange s va n with
    | .error v => .error (.translationFault v)
    | .ok segs => .ok segs

/-- `pa(i)`: the physical address of byte `i` of a translated range (43_address_translator.md R242). -/
def segPa : Segs → Nat → Option Nat
  | [], _ => none
  | (pa, len) :: rest, i => if i < len then some (pa + i) else segPa rest (i - len)

/-- Some physical byte of the segments lies in the engine's own window (20_memory.md R85 (a)). -/
def segsTouchWindow (p : Platform) (segs : Segs) : Bool :=
  segs.any (fun g => decide (g.1 < p.base + Config.windowSize) && decide (p.base < g.1 + g.2))

/-- The mapped range of `n` bytes at `va` touches the engine's own window. -/
def rangeTouchesWindow (s : State) (va n : Nat) : Bool :=
  match walkRange s va n with
  | .error _ => false
  | .ok segs => segsTouchWindow s.plat segs

/-- The ranges the engine claims: its window, inclusive bounds (43_address_translator.md R248). -/
def claimedRanges (p : Platform) : List (Nat × Nat) :=
  [(p.base, p.base + Config.windowSize - 1)]

/-- The state after TRANSLATE as an operation of its own: its answer is sent, or its fatal condition latched. -/
def translateEffect (s : State) (va n : Nat) : State :=
  match translation s va n with
  | .error f => raise s f
  | .ok segs => emit s (.segments segs)

/-- TRANSLATE (43_address_translator.md R241). -/
def execTranslate (va : U64) (n : Nat) (s : State) : Result :=
  whenLive s (.next (translateEffect s va.toNat n))

/-- RANGE_QUERY (43_address_translator.md R248). -/
def execRangeQuery (s : State) : Result :=
  whenLive s (.next (emit s (.ranges (claimedRanges s.plat))))

end Sys2Proof.Machine
end

