-- ==== Sys2Proof/Machine/Transfer.lean ====
section
/-! DEFINITION. The Transfer Controller (41_transfer_controller.md): START, READ_DONE, WRITE_DONE, and the single-byte
accesses the transfer engine makes in a phase. -/

namespace Sys2Proof.Machine

/-- The snapshot of a trigger that uses `n` bytes (10_state.md R27). -/
def takeSnapshot (s : State) (n : U32) : Snapshot := ⟨s.srcAddr, s.dstAddr, n⟩

/-- The checks of START in the order F5, F4, F7, F2, F6, with what they yield: the snapshot and the source's segments
(41_transfer_controller.md R170, 60_exceptions.md R272). -/
def startCheck (s : State) : Except Fatal (Snapshot × Segs) :=
  if s.phase ≠ .none then .error .overlappingTransfer
  else
    match usableSize Config.oversizePolicy s.size with
    | none => .error (.stagingOverrun s.size)
    | some n =>
      if wraps s.srcAddr n || wraps s.dstAddr n then .error (.addressWrap (takeSnapshot s n))
      else
        match translation s s.srcAddr.toNat n.toNat with
        | .error f => .error f
        | .ok segs => .ok (takeSnapshot s n, segs)

/-- The checks of START all pass. -/
def startAccepted (s : State) : Bool :=
  match startCheck s with
  | .ok _ => true
  | .error _ => false

/-- The size START uses is the register's unless the policy clamps it. -/
def startSize (s : State) : Nat := ((usableSize Config.oversizePolicy s.size).getD 0).toNat

/-- The spec gives an accepted START no meaning: its source range touches the window (20_memory.md R85 (a)). -/
def startTouchesWindow (s : State) : Bool :=
  rangeTouchesWindow s s.srcAddr.toNat (startSize s) && startAccepted s

/-- `ZERO_SIZE = refuse` and the size is zero (not the spec's choice, D13). -/
def refusesZeroSize (s : State) : Bool :=
  match Config.zeroSizePolicy with
  | .complete => false
  | .refuse => decide (s.size = 0)

/-- The state after START: Busy with the read phase issued, or a fatal condition latched
(41_transfer_controller.md R170). -/
def startEffect (s : State) : State :=
  match startCheck s with
  | .error f => raise s f
  | .ok (snap, segs) => { s with status := 1, phase := .readPending snap segs, accessed := [] }

/-- START, then what its caller does with the state it leaves. -/
def startThen (s : State) (k : State → State) : Result :=
  if refusesZeroSize s then .refused .zeroSize
  else if startTouchesWindow s then .refused .touchesWindow
  else .next (k (startEffect s))

/-- START as an operation of its own: only as WR_CMD calls it, with `status` not 1 (41_transfer_controller.md R170). -/
def execStart (s : State) : Result :=
  whenLive s (if busy s then .refused .startNotCalled else startThen s id)

/-- The state after READ_DONE: the write phase is issued, or the destination's translation is fatal
(41_transfer_controller.md R176). -/
def readDoneEffect (s : State) (snap : Snapshot) : State :=
  match translation s snap.dst.toNat snap.size.toNat with
  | .error f => raise s f
  | .ok segs => { s with phase := .writePending snap segs, accessed := [] }

/-- The destination's translation succeeds. -/
def destinationAccepted (s : State) (snap : Snapshot) : Bool :=
  match translation s snap.dst.toNat snap.size.toNat with
  | .ok _ => true
  | .error _ => false

/-- The destination is translated and touches the window (20_memory.md R85 (a)). -/
def readDoneTouchesWindow (s : State) (snap : Snapshot) : Bool :=
  rangeTouchesWindow s snap.dst.toNat snap.size.toNat && destinationAccepted s snap

/-- READ_DONE (41_transfer_controller.md R176): enabled when every byte of the read phase has been read. -/
def execReadDone (s : State) : Result :=
  whenLive s
    (match s.phase with
     | .readPending snap _ =>
       if s.accessed.length = snap.size.toNat then
         if readDoneTouchesWindow s snap then .refused .touchesWindow
         else .next (readDoneEffect s snap)
       else .refused .readDoneNotEnabled
     | .none => .refused .readDoneNotEnabled
     | .writePending _ _ => .refused .readDoneNotEnabled)

/-- WRITE_DONE (41_transfer_controller.md R178): enabled when every byte of the write phase has been written. -/
def execWriteDone (s : State) : Result :=
  whenLive s
    (match s.phase with
     | .writePending snap _ =>
       if s.accessed.length = snap.size.toNat then
         .next { s with status := 2, phase := .none, accessed := [] }
       else .refused .writeDoneNotEnabled
     | .none => .refused .writeDoneNotEnabled
     | .readPending _ _ => .refused .writeDoneNotEnabled)

/-! ## The byte accesses of a phase (20_memory.md R78) -/

/-- Byte `i` is one of the phase's `n` bytes and has not been accessed. -/
def accessDue (s : State) (n i : Nat) : Bool := decide (i < n) && !s.accessed.contains i

/-- `Stg[i] <- MemRead(pa, 1)` (41_transfer_controller.md R175). -/
def readByte (s : State) (i pa : Nat) : State :=
  { s with stg := stgWrite s.stg i (memRead s.mem pa), accessed := insertIndex i s.accessed }

/-- `MemWrite(pa, 1, Stg[i])` (41_transfer_controller.md R177). -/
def writeByte (s : State) (i pa : Nat) : State :=
  { s with mem := memWrite s.mem pa (stgRead s.stg i), accessed := insertIndex i s.accessed }

/-- One byte access at the physical address `segs` give byte `i`: stuck where there is no memory (20_memory.md
R85 (b)). -/
def accessWith (s : State) (n : Nat) (segs : Segs) (i : Nat) (move : State → Nat → Nat → State) : Result :=
  if accessDue s n i then
    match segPa segs i with
    | some pa => if hasMemory s.plat pa then .next (move s i pa) else .fault (.noMemory pa)
    | none => .refused .accessNotEnabled
  else .refused .accessNotEnabled

/-- The transfer engine accesses byte `i` of the outstanding phase. -/
def byteAccess (i : Nat) (s : State) : Result :=
  whenLive s
    (match s.phase with
     | .none => .refused .accessNotEnabled
     | .readPending snap segs => accessWith s snap.size.toNat segs i readByte
     | .writePending snap segs => accessWith s snap.size.toNat segs i writeByte)

end Sys2Proof.Machine
end

