-- ==== Sys2Proof/Machine/Mmio.lean ====
section
/-! DEFINITION. The Register File & Decoder operations (40_mmio_register_access.md R132 to R152). -/

namespace Sys2Proof.Machine

/-- A read that answers `r`: state written none (R132 and the other read rules). -/
def readReg (s : State) (r : Reply) : Result :=
  whenLive s (.next (respond s r))

/-- A write that leaves `t` and answers. -/
def writeReg (s t : State) : Result :=
  whenLive s (.next (respond t .done))

/-- A width mismatch at a register offset: F1, no response (R146 to R150). -/
def badWidth (s : State) (reg : RegName) (width : Nat) : Result :=
  whenLive s (.next (raise s (.badWidth reg width)))

/-- RD_SRC_LO (R132). -/
def execRdSrcLo (s : State) : Result := readReg s (.word (lowWord s.srcAddr))

/-- RD_SRC (R133). -/
def execRdSrc (s : State) : Result := readReg s (.dword s.srcAddr)

/-- WR_SRC_LO (R134). -/
def execWrSrcLo (value : U32) (s : State) : Result :=
  writeReg s { s with srcAddr := withLowWord s.srcAddr value }

/-- WR_SRC (R135). -/
def execWrSrc (value : U64) (s : State) : Result := writeReg s { s with srcAddr := value }

/-- RD_DST_LO (R136). -/
def execRdDstLo (s : State) : Result := readReg s (.word (lowWord s.dstAddr))

/-- RD_DST (R137). -/
def execRdDst (s : State) : Result := readReg s (.dword s.dstAddr)

/-- WR_DST_LO (R138). -/
def execWrDstLo (value : U32) (s : State) : Result :=
  writeReg s { s with dstAddr := withLowWord s.dstAddr value }

/-- WR_DST (R139). -/
def execWrDst (value : U64) (s : State) : Result := writeReg s { s with dstAddr := value }

/-- RD_SIZE (R140). -/
def execRdSize (s : State) : Result := readReg s (.word s.size)

/-- WR_SIZE (R141). -/
def execWrSize (value : U32) (s : State) : Result := writeReg s { s with size := value }

/-- RD_CMD (R142). -/
def execRdCmd (s : State) : Result := readReg s (.word s.command)

/-- A rejected trigger: the warning, and nothing stored unless `CMD_STORE_ON_REJECT` (R143 (d), D9). -/
def rejectTrigger (s : State) (value : U32) : State :=
  warn { s with command := if Config.cmdStoreOnReject then value else s.command } .startWhileBusy

/-- WR_CMD (R143). -/
def execWrCmd (value : U32) (s : State) : Result :=
  whenLive s
    (if startBit value && busy s then .next (respond (rejectTrigger s value) .done)
     else if startBit value then startThen { s with command := value } (fun t => respondIfLive t .done)
     else .next (respond { s with command := value } .done))

/-- RD_STATUS (R144). -/
def execRdStatus (s : State) : Result := readReg s (.word s.status)

/-- WR_STATUS (R145). -/
def execWrStatus (value : U32) (s : State) : Result := writeReg s { s with status := value }

/-- BADW_SRC (R146). -/
def execBadwSrc (width : Nat) (s : State) : Result := badWidth s .srcAddr width

/-- BADW_DST (R147). -/
def execBadwDst (width : Nat) (s : State) : Result := badWidth s .dstAddr width

/-- BADW_SIZE (R148). -/
def execBadwSize (width : Nat) (s : State) : Result := badWidth s .size width

/-- BADW_CMD (R149). -/
def execBadwCmd (width : Nat) (s : State) : Result := badWidth s .command width

/-- BADW_STATUS (R150). -/
def execBadwStatus (width : Nat) (s : State) : Result := badWidth s .status width

/-- RD_UNMAPPED (R151). -/
def execRdUnmapped (offset width : Nat) (s : State) : Result :=
  whenLive s (.next (respond (warn s (.unmappedOffset .read offset width)) (.zero width)))

/-- WR_UNMAPPED (R152). -/
def execWrUnmapped (offset width : Nat) (s : State) : Result :=
  whenLive s (.next (respond (warn s (.unmappedOffset .write offset width)) .done))

end Sys2Proof.Machine
end

