-- ==== Sys2Proof/Machine/Queue.lean ====
section
/-! DEFINITION. The Response Queue / Retry Port (42_response_queue.md): SUBMIT, DRAIN, TRY_DELIVER, PEER_READY. -/

namespace Sys2Proof.Machine

/-- Append an entry that becomes ready at `t`; schedule a drain at `t` if the queue was empty and no retry is pending
(R201). -/
def enqueue (s : State) (pkt : Packet) (t : Time) : State :=
  { s with
    queue := s.queue ++ [⟨pkt, t⟩]
    drainAt := if s.queue.isEmpty && !s.retry then some t else s.drainAt }

/-- The state after the backend has been called for a packet (R201, R213). -/
def serviced (s : State) (pkt : Packet) : State :=
  emit (afterService s pkt) (.serviced pkt (serviceAnswer s pkt).latency (serviceAnswer s pkt).packet)

/-- The state after SUBMIT (R201): the backend is called for every packet (R216); where the access requires a response the
packet is queued as the backend left it (R200: read data filled in, say), and the answer is "accepted". Whether a response
is required is read of the packet as submitted (log entry 35). -/
def submitEffect (s : State) (pkt : Packet) : State :=
  emit
    (if pkt.needsResponse then
      enqueue (serviced s pkt) (serviceAnswer s pkt).packet (s.now + (serviceAnswer s pkt).latency)
    else serviced s pkt)
    (.accepted pkt)

/-- SUBMIT (R201). -/
def execSubmit (pkt : Packet) (s : State) : Result :=
  whenLive s (.next (submitEffect s pkt))

/-- The success path (R204): deliver, pop, clear `retry`, schedule the next drain at `max(next.readyTime, now + 1)`. -/
def deliverHead (s : State) (pkt : Packet) (rest : List Entry) : State :=
  { emit s (.delivered pkt s.now) with
    queue := rest
    retry := false
    drainAt :=
      match rest with
      | [] => s.drainAt
      | e :: _ => some (max e.readyTime (s.now + 1)) }

/-- TRY_DELIVER's effect (R203): the head alone is offered; on a refusal `retry` is set and nothing else (R205). -/
def tryDeliver (s : State) : State :=
  match s.queue with
  | [] => s
  | e :: rest =>
    if peerAnswer s e.pkt then deliverHead (afterPeerAnswer s) e.pkt rest
    else { afterPeerAnswer s with retry := true }

/-- TRY_DELIVER as an operation of its own: only as DRAIN and PEER_READY call it, with `retry` clear and no drain event
outstanding (R202, R207). -/
def execTryDeliver (s : State) : Result :=
  whenLive s (if s.retry || s.drainAt.isSome then .refused .deliverNotCalled else .next (tryDeliver s))

/-- The state after DRAIN (R202): the event is gone; while `retry` is set no delivery is attempted. -/
def drainEffect (s : State) : State :=
  if s.retry then { s with drainAt := none } else tryDeliver { s with drainAt := none }

/-- DRAIN (R202): enabled when a drain event is scheduled for the current time. -/
def execDrain (s : State) : Result :=
  whenLive s (if s.drainAt = some s.now then .next (drainEffect s) else .refused .drainNotEnabled)

/-- The state after PEER_READY (R207): F3 when no retry is pending, else clear `retry` and attempt delivery inline. -/
def peerReadyEffect (s : State) : State :=
  if s.retry then tryDeliver { s with retry := false } else raise s .spuriousPeerReady

/-- PEER_READY (R207). -/
def execPeerReady (s : State) : Result :=
  whenLive s (.next (peerReadyEffect s))

end Sys2Proof.Machine
end

