-- ==== Sys2Proof/Machine/Dispatch.lean ====
section
/-! DEFINITION. One arm per operation: its meaning. -/

namespace Sys2Proof.Machine

def exec (i : Instr) (s : State) : Host.Outcome State Fault Refusal :=
  match i with
  -- Register File & Decoder
  | .rdSrcLo => Sys2Proof.Machine.execRdSrcLo s
  | .rdSrc => Sys2Proof.Machine.execRdSrc s
  | .wrSrcLo value => Sys2Proof.Machine.execWrSrcLo value s
  | .wrSrc value => Sys2Proof.Machine.execWrSrc value s
  | .rdDstLo => Sys2Proof.Machine.execRdDstLo s
  | .rdDst => Sys2Proof.Machine.execRdDst s
  | .wrDstLo value => Sys2Proof.Machine.execWrDstLo value s
  | .wrDst value => Sys2Proof.Machine.execWrDst value s
  | .rdSize => Sys2Proof.Machine.execRdSize s
  | .wrSize value => Sys2Proof.Machine.execWrSize value s
  | .rdCmd => Sys2Proof.Machine.execRdCmd s
  | .wrCmd value => Sys2Proof.Machine.execWrCmd value s
  | .rdStatus => Sys2Proof.Machine.execRdStatus s
  | .wrStatus value => Sys2Proof.Machine.execWrStatus value s
  | .badwSrc _ width => Sys2Proof.Machine.execBadwSrc width s
  | .badwDst _ width => Sys2Proof.Machine.execBadwDst width s
  | .badwSize _ width => Sys2Proof.Machine.execBadwSize width s
  | .badwCmd _ width => Sys2Proof.Machine.execBadwCmd width s
  | .badwStatus _ width => Sys2Proof.Machine.execBadwStatus width s
  | .rdUnmapped offset width => Sys2Proof.Machine.execRdUnmapped offset width s
  | .wrUnmapped offset width _ => Sys2Proof.Machine.execWrUnmapped offset width s
  -- Transfer Controller
  | .start => Sys2Proof.Machine.execStart s
  | .readDone => Sys2Proof.Machine.execReadDone s
  | .writeDone => Sys2Proof.Machine.execWriteDone s
  -- Response Queue
  | .submit pkt => Sys2Proof.Machine.execSubmit pkt s
  | .drain => Sys2Proof.Machine.execDrain s
  | .tryDeliver => Sys2Proof.Machine.execTryDeliver s
  | .peerReady => Sys2Proof.Machine.execPeerReady s
  -- Address Translator
  | .translate va n => Sys2Proof.Machine.execTranslate va n s
  | .rangeQuery => Sys2Proof.Machine.execRangeQuery s

end Sys2Proof.Machine
end

