-- ==== Sys2Proof/Machine/Siblings.lean ====
section
/-! DEFINITION. The engines and queues beside the first (60_exceptions.md R281, 00_scope.md R6 `N_ENGINES`, `N_QUEUES`).
Each has its own state and shares only `now`, the fatal latch, the log and physical memory (10_state.md R40), so what it
does is said once: its state and what is shared, seen as a state of the machine, perform the same meanings. -/

namespace Sys2Proof.Machine

/-- The operations of the Response Queue; all others are an engine's. -/
def isQueueOp : Instr → Bool
  | .submit _ => true
  | .drain => true
  | .tryDeliver => true
  | .peerReady => true
  | _ => false

/-- What is shared, with a further engine in the first one's place and no queue. -/
def engineView (s : State) (e : Engine) : State :=
  { s with
    srcAddr := e.srcAddr, dstAddr := e.dstAddr, size := e.size, command := e.command, status := e.status
    phase := e.phase, accessed := e.accessed, stg := e.stg, outputs := e.outputs
    plat := { s.plat with base := e.base, backendRanges := [] }, pageTable := e.pageTable
    queue := [], retry := false, drainAt := none, storage := [], peerScript := [], backendScript := []
    inbox := [], otherEngines := [], otherQueues := [] }

/-- What is shared, with a further queue in the first one's place and an engine that does nothing. -/
def queueView (s : State) (q : Queue) : State :=
  { s with
    srcAddr := 0, dstAddr := 0, size := 0, command := 0, status := 0
    phase := .none, accessed := [], stg := [], outputs := q.outputs
    plat := { s.plat with backendRanges := q.ranges }, pageTable := []
    queue := q.queue, retry := q.retry, drainAt := q.drainAt, storage := q.storage
    peerScript := q.peerScript, backendScript := q.backendScript
    inbox := [], otherEngines := [], otherQueues := [] }

/-- A further engine read back from its view. -/
def engineOf (v : State) : Engine where
  srcAddr := v.srcAddr
  dstAddr := v.dstAddr
  size := v.size
  command := v.command
  status := v.status
  phase := v.phase
  accessed := v.accessed
  stg := v.stg
  outputs := v.outputs
  base := v.plat.base
  pageTable := v.pageTable

/-- A further queue read back from its view. -/
def queueOf (v : State) : Queue where
  queue := v.queue
  retry := v.retry
  drainAt := v.drainAt
  outputs := v.outputs
  ranges := v.plat.backendRanges
  storage := v.storage
  peerScript := v.peerScript
  backendScript := v.backendScript

/-- The machine as the engine or queue `w` sees it; `none` if there is no such one. -/
def viewAt (s : State) (w : Who) : Option State :=
  match w with
  | .first => some s
  | .engine k => s.otherEngines[k]?.map (engineView s)
  | .queue k => s.otherQueues[k]?.map (queueView s)

/-- The machine with what is shared taken from a view. -/
def withShared (s v : State) : State :=
  { s with fault := v.fault, log := v.log, mem := v.mem, draws := v.draws }

/-- The machine once `w` has come to the view `v`: it holds its own part of `v`, and the shared part is `v`'s. -/
def putAt (s : State) (w : Who) (v : State) : State :=
  match w with
  | .first => v
  | .engine k => { withShared s v with otherEngines := s.otherEngines.set k (engineOf v) }
  | .queue k => { withShared s v with otherQueues := s.otherQueues.set k (queueOf v) }

/-- `w` performs `f`. -/
def performAt (w : Who) (f : State → Result) (s : State) : Result :=
  match viewAt s w with
  | none => whenLive s (.refused (.noSuch w))
  | some v =>
    match f v with
    | .next u => .next (putAt s w u)
    | .fault why => .fault why
    | .refused why => .refused why

/-- The further engine or queue of index `k` that an operation is of. -/
def performerOf (k : Nat) (i : Instr) : Who := if isQueueOp i then .queue k else .engine k

/-- The `BASE` at which a request to the further engine of index `k` is decoded; where there is none, nothing performs it
whatever the `BASE`. -/
def baseOf (s : State) (k : Nat) : Nat :=
  match s.otherEngines[k]? with
  | some e => e.base
  | none => s.plat.base

/-- Every engine and queue there is. -/
def everyone (s : State) : List Who :=
  .first :: ((List.range s.otherEngines.length).map .engine ++ (List.range s.otherQueues.length).map .queue)

end Sys2Proof.Machine
end

