-- ==== Sys2Proof/Machine/Schedule.lean ====
section
/-! DEFINITION. What makes one step: the next stimulus of the inbox, or, with the inbox empty, an internal event of the
scheduler or of a transfer engine (00_scope.md R13, 20_memory.md R76, R78; log entries 2, 3, 19, 20, 25). -/

namespace Sys2Proof.Machine

/-- The refusal a request the decoder rejects ends in. -/
def rejected : Reject → Refusal
  | .outOfWindow => .outOfWindow
  | .reservedSubstep n => .reservedSubstep n

/-- Decode a request and perform its operation. -/
def runRequest (r : Request) (s : State) : Result :=
  match decodeRequest s.plat.base r with
  | .ok i => exec i s
  | .error why => whenLive s (.refused (rejected why))

/-- No drain event is scheduled before `t`. -/
def notPast (drainAt : Option Time) (t : Time) : Bool :=
  match drainAt with
  | none => true
  | some d => decide (t ≤ d)

/-- Time may reach `t`: it does not go back and passes no queue's scheduled drain event (10_state.md R33, R279 of
60_exceptions.md). -/
def mayReach (s : State) (t : Time) : Bool :=
  decide (s.now ≤ t) && notPast s.drainAt t && s.otherQueues.all (fun q => notPast q.drainAt t)

/-- The scheduler lets time reach `t`. -/
def advanceTime (t : Time) (s : State) : Result :=
  whenLive s (if mayReach s t then .next { s with now := t } else .refused .timeOrder)

/-- Another agent stores a byte (20_memory.md R78). -/
def foreignStore (pa : Nat) (b : Byte) (s : State) : Result :=
  whenLive s
    (if hasMemory s.plat pa then .next { s with mem := memWrite s.mem pa b } else .fault (.noMemory pa))

/-- The page table changes (43_address_translator.md R247). -/
def remap (pt : PageTable) (s : State) : Result :=
  whenLive s (.next { s with pageTable := pt })

/-- A queue's port answers with its backend's ranges (43_address_translator.md R248). -/
def queuePortQuery (s : State) : Result :=
  whenLive s (.next (emit s (.ranges s.plat.backendRanges)))

/-- An act on the further engine or queue of index `k`. A request is performed by the engine or by the queue, whose
operation it is; a queue's port answers a range query with its own ranges (43_address_translator.md R248). -/
def performAct (k : Nat) (a : Act) (s : State) : Result :=
  match a with
  | .request r =>
    match decodeRequest (baseOf s k) r with
    | .ok i => performAt (performerOf k i) (exec i) s
    | .error why => whenLive s (.refused (rejected why))
  | .byteAccess i => performAt (.engine k) (byteAccess i) s
  | .remap pt => performAt (.engine k) (remap pt) s
  | .queuePortQuery => performAt (.queue k) queuePortQuery s

/-- Perform one stimulus. -/
def perform (e : Stimulus) (s : State) : Result :=
  match e with
  | .request r => runRequest r s
  | .byteAccess i => byteAccess i s
  | .advance t => advanceTime t s
  | .foreignStore pa b => foreignStore pa b s
  | .remap pt => remap pt s
  | .queuePortQuery => queuePortQuery s
  | .sibling k a => performAct k a s

/-! ## With the inbox empty -/

/-- What an engine or a queue does without being asked. -/
inductive Local where
  | access (i : Nat)
  | readDone
  | writeDone
  | drain
  deriving DecidableEq, Repr

/-- An internal event: of an engine or queue, or time passing. -/
inductive Internal where
  | of (w : Who) (e : Local)
  | tick
  deriving DecidableEq, Repr

/-- The bytes of a phase still to access, less those with no memory behind them. -/
def outstanding (s : State) (n : Nat) (segs : Segs) : List Nat :=
  (List.range n).filter (fun i =>
    accessDue s n i &&
      (match segPa segs i with
       | some pa => hasMemory s.plat pa
       | none => false))

/-- What the transfer engine may do: a byte still to access, or the completion once all are done. -/
def engineEvents (s : State) : List Local :=
  match s.phase with
  | .none => []
  | .readPending snap segs =>
    if s.accessed.length = snap.size.toNat then [.readDone]
    else (outstanding s snap.size.toNat segs).map .access
  | .writePending snap segs =>
    if s.accessed.length = snap.size.toNat then [.writeDone]
    else (outstanding s snap.size.toNat segs).map .access

/-- The drain event, once it is due. -/
def dueDrain (s : State) : List Local :=
  if s.drainAt = some s.now then [.drain] else []

/-- The events that `events` gives of every engine and queue. -/
def eventsOfAll (events : State → List Local) (s : State) : List Internal :=
  (everyone s).flatMap (fun w => ((viewAt s w).elim [] events).map (.of w))

/-- What the scheduler may do: fire a drain event that is due, else let one time unit pass. -/
def schedulerEvents (s : State) : List Internal :=
  match eventsOfAll dueDrain s with
  | [] => [.tick]
  | e :: es => e :: es

/-- All internal events enabled in a state. -/
def internalEvents (s : State) : List Internal := eventsOfAll engineEvents s ++ schedulerEvents s

/-- Perform an event of the engine or queue that a state shows. -/
def performLocal (e : Local) (s : State) : Result :=
  match e with
  | .access i => byteAccess i s
  | .readDone => exec .readDone s
  | .writeDone => exec .writeDone s
  | .drain => exec .drain s

/-- Perform an internal event. -/
def performInternal (e : Internal) (s : State) : Result :=
  match e with
  | .of w e => performAt w (performLocal e) s
  | .tick => advanceTime (s.now + 1) s

/-- A step with nothing in the inbox: after a fatal condition the run is a fault; otherwise one of the enabled internal
events runs, a free value choosing if there are several. -/
def idle (s : State) : Result :=
  match s.fault with
  | some f => .fault (.fatal f)
  | none =>
    match internalEvents s with
    | [] => .next s
    | [e] => performInternal e s
    | e :: es =>
      performInternal ((e :: es).getD (Config.scheduleChoice s.draws % (e :: es).length) e)
        { s with draws := s.draws + 1 }

/-- One step: the next stimulus, or an internal event. -/
def stepOnce (s : State) : Result :=
  match s.inbox with
  | e :: rest => perform e { s with inbox := rest }
  | [] => idle s

/-! ## What arrives between steps -/

/-- A further queue has more answers ready. -/
def QueueSupplied (q r : Queue) : Prop :=
  ∃ answers services,
    r = { q with peerScript := q.peerScript ++ answers, backendScript := q.backendScript ++ services }

/-- From one state to another nothing has happened but that more stimuli wait, and the peers and backends have more
answers ready (log entry 29). -/
def Supplied (s t : State) : Prop :=
  ∃ stimuli answers services queues, s.otherQueues.Forall₂ QueueSupplied queues ∧
    t = { s with
      inbox := s.inbox ++ stimuli, peerScript := s.peerScript ++ answers
      backendScript := s.backendScript ++ services, otherQueues := queues }

/-- The state in which the very next step performs the operation with table bits `w`. -/
def placeTableWord (s : State) (nbits w : Nat) : State :=
  { s with
    inbox := .request (.word (BitVec.ofNat 24 w) (operandOfValue (w % 2 ^ nbits / 2 ^ 24))) :: s.inbox }

end Sys2Proof.Machine
end

