-- ==== Sys2Proof/Machine/Pseudo.lean ====
section
/-! DEFINITION. The pseudo-operations of 30_encoding.md R117, each an abbreviation for a sequence of operations. What a
requester does next can depend on what its operations answered, so a sequence is given by the operations allowed after
each history, and performing it by a relation between states (log entry 36). -/

namespace Sys2Proof.Machine

/-- An operation as a stimulus, by its descriptor word and operand. -/
def asStimulus (i : Instr) : Stimulus := .request (.word (encodeWord i) (encodeOperand i))

/-- The writes of `DMA_COPY` that may be in any order. -/
def dmaCopySetup (src dst : U64) (n : U32) : List Instr := [.wrSrc src, .wrDst dst, .wrSize n]

/-- `DMA_COPY src, dst, n` in the order R117 writes it, for the inbox: the setup, then the trigger. -/
def dmaCopy (src dst : U64) (n : U32) : List Stimulus :=
  (dmaCopySetup src dst n ++ [Instr.wrCmd 1]).map asStimulus

/-- `ACK` for the inbox: `WR_STATUS 0`. -/
def ackComplete : List Stimulus := [asStimulus (.wrStatus 0)]

/-- The pseudo-operations. -/
inductive PseudoOp where
  | dmaCopy (src dst : U64) (n : U32)
  | pollComplete
  | ack
  /-- `WR_SRC_HI high`, which is no operation of the block. -/
  | writeSrcHigh (high : U32)
  deriving DecidableEq, Repr

/-- The operations performed so far with what each was answered, newest first. -/
abbrev History := List (Instr × Reply)

/-- The operation has been performed. -/
def performed (h : History) (i : Instr) : Bool := h.any (fun c => decide (c.1 = i))

/-- `DMA_COPY`: what is left of the setup, in any order, and the trigger last. -/
def nextOfDmaCopy (src dst : U64) (n : U32) (h : History) : List Instr :=
  match (dmaCopySetup src dst n).filter (fun i => !performed h i) with
  | [] => if performed h (.wrCmd 1) then [] else [.wrCmd 1]
  | i :: rest => i :: rest

/-- `POLL_COMPLETE`: `RD_STATUS` repeated until it returns 2. -/
def nextOfPoll (h : History) : List Instr :=
  match h with
  | (_, .word v) :: _ => if v = 2 then [] else [.rdStatus]
  | _ => [.rdStatus]

/-- `RD_SRC -> v; WR_SRC (high ∥ v[31:0])`. -/
def nextOfWriteSrcHigh (high : U32) (h : History) : List Instr :=
  match h with
  | [] => [.rdSrc]
  | [(_, .dword v)] => [.wrSrc (high ++ lowWord v : BitVec (32 + 32))]
  | _ => []

/-- The operations a requester may perform next in a pseudo-operation; with none left it is over. -/
def nextOps (p : PseudoOp) (h : History) : List Instr :=
  match p with
  | .dmaCopy src dst n => nextOfDmaCopy src dst n h
  | .pollComplete => nextOfPoll h
  | .ack => if h.isEmpty then [.wrStatus 0] else []
  | .writeSrcHigh high => nextOfWriteSrcHigh high h

/-- From one state to another a requester performs what is left of a pseudo-operation after a history. Between its
operations any step of the machine may come, and anything may arrive, since a sequence is not atomic (00_scope.md R11). -/
inductive Performs (p : PseudoOp) : History → State → State → Prop where
  | finished {h s} (none_left : nextOps p h = []) : Performs p h s s
  | own {h s t u i stamp reply} (allowed : i ∈ nextOps p h) (done : perform (asStimulus i) s = .next t)
      (answer : t.outputs = s.outputs ++ [.response stamp reply]) (rest : Performs p ((i, reply) :: h) t u) :
      Performs p h s u
  | other {h s t u} (one : step s = .next t) (rest : Performs p h t u) : Performs p h s u
  | arrival {h s t u} (supplied : Supplied s t) (rest : Performs p h t u) : Performs p h s u

end Sys2Proof.Machine
end

