-- ==== Sys2Proof/Safety.lean ====
section
/-! DEFINITION. What counts as a finished state, and the invariants of 10_state.md R39, and fairness over
runs, in the terms the statements use. -/

namespace Sys2Proof.Machine

/-- The time stamps of the MMIO responses sent. -/
def responseStamps (outputs : List Output) : List Time :=
  outputs.filterMap (fun o =>
    match o with
    | .response t _ => some t
    | _ => none)

/-- Memory has its canonical form. -/
def MemoryInv (s : State) : Prop := s.mem.wf = true

/-- What holds of a transfer in flight (10_state.md R39 E4, 41_transfer_controller.md R180, 43_address_translator.md R242,
20_memory.md R78, R85 (a)). -/
structure TransferOk (s : State) (snap : Snapshot) (segs : Segs) : Prop where
  /-- E4: the size is within the staging buffer. -/
  size_le : snap.size.toNat ≤ Config.stagingCapacity
  /-- The source range does not pass 2^64. -/
  src_le : snap.src.toNat + snap.size.toNat ≤ 2 ^ 64
  /-- The destination range does not pass 2^64. -/
  dst_le : snap.dst.toNat + snap.size.toNat ≤ 2 ^ 64
  /-- The segments cover exactly `size` bytes. -/
  covers : (segs.map Prod.snd).sum = snap.size.toNat
  /-- No physical byte lies in the engine's window. -/
  outside : segsTouchWindow s.plat segs = false
  /-- No byte has been accessed twice. -/
  rising : s.accessed.Pairwise (· < ·)
  /-- Only bytes of the transfer have been accessed. -/
  within : ∀ i ∈ s.accessed, i < snap.size.toNat

/-- The engine's invariant: the staging buffer's form, and of a transfer in flight `TransferOk`. -/
def EngineInv (s : State) : Prop :=
  stgWf s.stg = true ∧
    match s.phase with
    | .none => s.accessed = []
    | .readPending snap segs => TransferOk s snap segs
    | .writePending snap segs => TransferOk s snap segs

/-- The queue's invariants Q1, Q3, Q4 of 10_state.md R39, and that a refused head was ready. -/
structure QueueInv (s : State) : Prop where
  /-- Q1. -/
  retry_nonempty : s.retry = true → s.queue ≠ []
  /-- Q3. -/
  drain_iff : s.drainAt.isSome = true ↔ s.queue ≠ [] ∧ s.retry = false
  /-- Q4: the drain event is not before the head's ready time, nor in the past. -/
  drain_due : ∀ t, s.drainAt = some t → s.now ≤ t ∧ ∀ e, s.queue.head? = some e → e.readyTime ≤ t
  /-- A head the peer has refused is ready. -/
  retry_ready : s.retry = true → ∀ e, s.queue.head? = some e → e.readyTime ≤ s.now

/-- The packets submitted that need a response, in order, each as the backend left it (42_response_queue.md R200, R201,
R216). -/
def submittedPkts (outputs : List Output) : List Packet :=
  outputs.filterMap (fun o =>
    match o with
    | .serviced p _ left => if p.needsResponse then some left else none
    | _ => none)

/-- The packets delivered to the peer, in order (42_response_queue.md R206). -/
def deliveredPkts (outputs : List Output) : List Packet :=
  outputs.filterMap (fun o =>
    match o with
    | .delivered p _ => some p
    | _ => none)

/-- Strict FIFO (42_response_queue.md R208): what was submitted and needs a response is what was delivered followed by
what is queued, in the same order, each once. -/
def FifoInv (s : State) : Prop :=
  submittedPkts s.outputs = deliveredPkts s.outputs ++ s.queue.map Entry.pkt

/-- Every byte of a range is mapped to a physical byte outside the engine's window (70_reset_and_hazards.md R308). -/
def MappedOutside (s : State) (va : U64) (n : U32) : Prop :=
  ∀ i < n.toNat, ∃ pa, ptMap (pageSize s.plat) s.pageTable (va.toNat + i) = some pa ∧
    inMmioWindow s.plat pa = false

/-- Every byte of a range is mapped to a physical byte with memory behind it (70_reset_and_hazards.md R308). -/
def MappedToMemory (s : State) (va : U64) (n : U32) : Prop :=
  ∀ i < n.toNat, ∃ pa, ptMap (pageSize s.plat) s.pageTable (va.toNat + i) = some pa ∧
    hasMemory s.plat pa = true

/-- `v` is the lowest virtual address of a range that has no mapping (43_address_translator.md R245). -/
def LowestUnmapped (s : State) (va : U64) (n : Nat) (v : Nat) : Prop :=
  ∃ i < n, v = va.toNat + i ∧ ptMap (pageSize s.plat) s.pageTable v = none ∧
    ∀ j < i, (ptMap (pageSize s.plat) s.pageTable (va.toNat + j)).isSome = true

/-- The segments answer for a range: they cover it and map every byte as the page table does
(43_address_translator.md R242). -/
def SegmentsFor (s : State) (va : U64) (n : Nat) (segs : Segs) : Prop :=
  (segs.map Prod.snd).sum = n ∧
    ∀ i < n, segPa segs i = ptMap (pageSize s.plat) s.pageTable (va.toNat + i)

/-- The size and the ranges of a trigger are in bounds (41_transfer_controller.md R172, R174). -/
structure TriggerInBounds (s : State) : Prop where
  size_le : s.size.toNat ≤ 1048576
  src_le : s.srcAddr.toNat + s.size.toNat ≤ 2 ^ 64
  dst_le : s.dstAddr.toNat + s.size.toNat ≤ 2 ^ 64

/-- The fatal condition START reports, in the order F5, F4, F7, F2, F6 (60_exceptions.md R272). -/
inductive StartFatal (s : State) : Fatal → Prop where
  | overlapping (h : s.phase ≠ .none) : StartFatal s .overlappingTransfer
  | overrun (h : s.phase = .none) (hs : 1048576 < s.size.toNat) : StartFatal s (.stagingOverrun s.size)
  | wrap (h : s.phase = .none) (hs : s.size.toNat ≤ 1048576)
      (hw : 2 ^ 64 < s.srcAddr.toNat + s.size.toNat ∨ 2 ^ 64 < s.dstAddr.toNat + s.size.toNat) :
      StartFatal s (.addressWrap ⟨s.srcAddr, s.dstAddr, s.size⟩)
  | unsupported (h : s.phase = .none) (hb : TriggerInBounds s) (hm : s.plat.mode = .other) :
      StartFatal s .translationUnsupported
  | unmapped (h : s.phase = .none) (hb : TriggerInBounds s) (hm : s.plat.mode = .processEmulation) (v : Nat)
      (hv : LowestUnmapped s s.srcAddr s.size.toNat v) : StartFatal s (.translationFault v)

/-- E2 of 10_state.md R39: STATUS reads Busy exactly while a phase is outstanding. -/
def StatusAgrees (s : State) : Prop := s.status = 1 ↔ s.phase ≠ .none

/-! ## Every engine and every queue (60_exceptions.md R281) -/

/-- Quiescent and complete (70_reset_and_hazards.md R332): no fault, no phase of any engine, every queue empty, and no
response still to be emitted (log entry 12). -/
def State.quiescent (s : State) : Prop :=
  s.fault = none ∧ ∀ w v, viewAt s w = some v →
    v.phase = .none ∧ v.queue = [] ∧ ∀ t ∈ responseStamps v.outputs, t < s.now

/-- The operation that the next stimulus asks for, and of whom. -/
def asked (s : State) : Option (Who × Instr) :=
  match s.inbox with
  | .request r :: _ => (decodeRequest s.plat.base r).toOption.map (fun i => (.first, i))
  | .sibling k (.request r) :: _ => (decodeRequest (baseOf s k) r).toOption.map (fun i => (performerOf k i, i))
  | _ => none

/-- What others' acts change of a view: the shared part alone. -/
def SharedChange (v v' : State) : Prop :=
  ∃ rest engines queues now fault log mem draws,
    v' = { v with
      inbox := rest, otherEngines := engines, otherQueues := queues, now := now, fault := fault
      log := v.log ++ log, mem := mem, draws := draws }

/-! ## Runs, and what the agents promise over them: the three liveness assumptions of 70_reset_and_hazards.md R330
(41_transfer_controller.md R182, 60_exceptions.md R279, 42_response_queue.md R214; log entry 29). A step promises nothing
about what happens at last; a statement about that takes one of these as a premise. -/

/-- A run that goes on for ever: each state makes its step, and before the next one more stimuli and answers may arrive. -/
def IsRun (run : Nat → State) : Prop := ∀ k, ∃ t, step (run k) = .next t ∧ Supplied t (run (k + 1))

/-- The step from `s` is the event `e` of `w`, whether it stands in the inbox or happens by itself after a draw. -/
def StepFires (s : State) (w : Who) (e : Local) : Prop :=
  ∃ rest k, step s = performInternal (.of w e) { s with inbox := rest, draws := k }

/-- The transfer engine of `w` can make a byte access or fire the completion of the outstanding phase. -/
def EngineEnabled (s : State) (w : Who) : Prop :=
  ∃ v, viewAt s w = some v ∧ ∃ e ∈ engineEvents v, ∃ t, performLocal e v = .next t

/-- The step from `s` is one of the transfer engine of `w`. -/
def EngineSteps (s : State) (w : Who) : Prop :=
  ∃ v, viewAt s w = some v ∧ ∃ e ∈ engineEvents v, StepFires s w e

/-- Weak fairness of the transfer engines' steps (R182, D20): an engine that can step from some point on for ever does
step again. -/
def WeaklyFair (run : Nat → State) : Prop :=
  ∀ w k, (∀ j, k ≤ j → EngineEnabled (run j) w) → ∃ j, k ≤ j ∧ EngineSteps (run j) w

/-- The step from `s` is the drain event of the queue `w`, which is due. -/
def DrainFires (s : State) (w : Who) : Prop :=
  ∃ v, viewAt s w = some v ∧ v.drainAt = some s.now ∧ StepFires s w .drain

/-- The scheduler fires every scheduled event (R330, R279). The events it schedules are the queues' drains; the completions
are scheduled by the copy primitive, which is the engines' fairness. -/
def SchedulerFires (run : Nat → State) : Prop :=
  ∀ w k v d, viewAt (run k) w = some v → v.drainAt = some d → ∃ j, k ≤ j ∧ DrainFires (run j) w

/-- Every byte of a transfer in flight has memory behind it. -/
def BytesBacked (s : State) (snap : Snapshot) (segs : Segs) : Prop :=
  ∀ i < snap.size.toNat, ∃ pa, segPa segs i = some pa ∧ hasMemory s.plat pa = true

/-- Nothing holds up the outstanding phase: its bytes have memory behind them (20_memory.md R85 (b)), and the destination
of a read phase does not touch the window (R85 (a)). -/
def PhaseUnobstructed (s : State) : Prop :=
  match s.phase with
  | .none => True
  | .readPending snap segs => BytesBacked s snap segs ∧ readDoneTouchesWindow s snap = false
  | .writePending snap segs => BytesBacked s snap segs

/-- The next step is the peer of the queue `w` calling PEER_READY. -/
def PeerSignals (s : State) (w : Who) : Prop := asked s = some (w, .peerReady)

/-- Every peer's duty (R214 (a), D28): after refusing an attempt it calls PEER_READY at last. -/
def PeersKeepDuty (run : Nat → State) : Prop :=
  ∀ w k v, viewAt (run k) w = some v → v.retry = true → ∃ j, k ≤ j ∧ PeerSignals (run j) w

end Sys2Proof.Machine
end

