-- ==== Sys2Proof/Certificates/Slice0/Obligations.lean ====
section
/-! DEFINITION. The statements for the provers, each from a numbered rule of spec/ or from its sections. Where a clause
rests on a decision of the spec (92_eei_decisions.md) or of the model (notes/assumptions), the docstring says so. -/

open Sys2Proof Sys2Proof.Machine

/-! ## Encoding and decoding -/

/-- The decoder reads a word as the opcode table's row for it, in ascending priority; it refuses only what leaves the
window and the internal sub-steps the table has no row for (30_encoding.md R102, R109, R110; the descriptor word is the
spec's notation, decision D31, and the window refusal its decision D8). -/
def Obligations.DecoderFollowsOpcodeTable : Prop :=
  ∀ (d : Word) (o : Operand),
    match decodeWord d o with
    | .ok i => rowOf d = some (mnemonicOf i)
    | .error .outOfWindow =>
      (fieldsOf d).kind = 0#3 ∧ 4096 < (fieldsOf d).offset.toNat + (fieldsOf d).width.toNat
    | .error (.reservedSubstep n) =>
      rowOf d = none ∧ (fieldsOf d).kind = 7#3 ∧ n = (fieldsOf d).offset.toNat ∧ 3 ≤ n

/-- Decoding the encoded descriptor word gives the operation back, for every well-formed operation whose width fits the
word (30_encoding.md R101; decision D31). -/
def Obligations.DecodeOfEncodeWord : Prop :=
  ∀ i : Instr, i.wf = true → i.fitsWord = true → decodeWord (encode i).1 (encode i).2 = .ok i

/-- Decoding the encoded request gives the operation back, for every well-formed operation of any width at every BASE
(30_encoding.md R100, R101, R107, R115). -/
def Obligations.DecodeOfEncodeRequest : Prop :=
  ∀ (base : Nat) (i : Instr), i.wf = true → decodeRequest base (encodeRequest base i) = .ok i

/-- Whatever the decoder gives is a well-formed operation (30_encoding.md R102, R105, R111, R112). -/
def Obligations.DecodedIsWellFormed : Prop :=
  ∀ (base : Nat) (r : Request) (i : Instr), decodeRequest base r = .ok i → i.wf = true

/-- An operation decoded from an access is that access: same direction, offset and width, the value cut to `8*width` bits
(30_encoding.md R100, R105). -/
def Obligations.DecodedAccessKeepsEveryField : Prop :=
  ∀ (a : Access) (offset width : Nat) (i : Instr), decodeAccess a offset width = .ok i →
    accessOf i = some (a.trunc width, offset, width)

/-- The words E1 to E14 of 95_test_vectors.md decode as that table says. -/
def Obligations.SpecVectorWordsDecode : Prop :=
  ∀ o : Operand,
    decodeWord 0x004000#24 o = .ok .rdSrcLo ∧ decodeWord 0x008000#24 o = .ok .rdSrc ∧
    decodeWord 0x108004#24 o = .ok (.wrDst (BitVec.ofNat 64 o.value)) ∧
    decodeWord 0x10400C#24 o = .ok (.wrCmd (BitVec.ofNat 32 o.value)) ∧
    decodeWord 0x008008#24 o = .ok (.badwSize .read 8) ∧
    decodeWord 0x102010#24 o = .ok (.badwStatus (.write (o.value % 2 ^ 16)) 2) ∧
    decodeWord 0x000000#24 o = .ok (.badwSrc .read 0) ∧
    decodeWord 0x004020#24 o = .ok (.rdUnmapped 0x20 4) ∧
    decodeWord 0x104002#24 o = .ok (.wrUnmapped 0x02 4 (o.value % 2 ^ 32)) ∧
    decodeWord 0x004FFC#24 o = .ok (.rdUnmapped 0xFFC 4) ∧
    decodeWord 0x004FFD#24 o = .error .outOfWindow ∧
    decodeWord 0x200000#24 o = .ok (.submit o.pkt) ∧ decodeWord 0x600000#24 o = .ok .peerReady ∧
    decodeWord 0xA00000#24 o = .ok .writeDone

/-! ## The step -/

/-- When the next stimulus is a request that decodes to an operation, the step is that operation's meaning at the state
without the stimulus. A request to a further engine or queue, whose operation it is, performs the same meaning on its view,
and what is shared follows it (10_state.md section 6; that there are further ones: 60_exceptions.md section 8, in the form
of log entry 25). -/
def Obligations.StepPerformsDecodedOperation : Prop :=
  ∀ (s : State) (r : Request) (rest : List Stimulus) (i : Instr),
    (s.inbox = .request r :: rest → decodeRequest s.plat.base r = .ok i →
      step s = exec i { s with inbox := rest }) ∧
    ∀ k, s.inbox = .sibling k (.request r) :: rest → decodeRequest (baseOf s k) r = .ok i →
      (∀ v u, viewAt s (performerOf k i) = some v → exec i v = .next u →
        step s = .next (putAt { s with inbox := rest } (performerOf k i) u)) ∧
      (∀ v why, viewAt s (performerOf k i) = some v → exec i v = .refused why → step s = .refused why) ∧
      (viewAt s (performerOf k i) = none → s.fault = none → step s = .refused (.noSuch (performerOf k i)))

/-- A request the decoder rejects is refused by the reason's name (30_encoding.md R102 step 0, decision D8; R101). -/
def Obligations.StepRefusesUndecodable : Prop :=
  ∀ (s : State) (r : Request) (rest : List Stimulus), s.inbox = .request r :: rest → s.fault = none →
    (decodeRequest s.plat.base r = .error .outOfWindow → step s = .refused .outOfWindow) ∧
    (∀ n, decodeRequest s.plat.base r = .error (.reservedSubstep n) → step s = .refused (.reservedSubstep n))

/-- With nothing asked of it the block is passive: with no phase of any engine outstanding and no drain event due time
passes, or the one drain event that is due fires; in every state one of the enabled internal events runs (the model's
schedule, log entry 3). -/
def Obligations.IdleStepRunsEnabledEvent : Prop :=
  ∀ s : State, s.fault = none → s.inbox = [] →
    (s.phase = .none → (∀ e ∈ s.otherEngines, e.phase = .none) →
      (∀ d, s.drainAt = some d → s.now < d) → (∀ q ∈ s.otherQueues, ∀ d, q.drainAt = some d → s.now < d) →
      step s = .next { s with now := s.now + 1 }) ∧
    (s.phase = .none → (∀ e ∈ s.otherEngines, e.phase = .none) →
      s.drainAt = some s.now → (∀ q ∈ s.otherQueues, q.drainAt ≠ some s.now) →
      step s = exec .drain s) ∧
    ∃ e ∈ internalEvents s,
      step s = performInternal e s ∨ step s = performInternal e { s with draws := s.draws + 1 }

/-! ## Register File & Decoder -/

/-- RD_SRC_LO, RD_SRC, RD_DST_LO, RD_DST: encoding, the value returned, and no other change
(40_mmio_register_access.md R132, R133, R136, R137). -/
def Obligations.AddressReadsRespond : Prop :=
  (∀ o : Operand,
    decodeWord 0x004000#24 o = .ok .rdSrcLo ∧ decodeWord 0x008000#24 o = .ok .rdSrc ∧
    decodeWord 0x004004#24 o = .ok .rdDstLo ∧ decodeWord 0x008004#24 o = .ok .rdDst) ∧
  ∀ s : State, s.fault = none →
    exec .rdSrcLo s = .next { s with
      outputs := s.outputs ++ [.response (s.now + Config.pioLatency) (.word (s.srcAddr.extractLsb' 0 32))] } ∧
    exec .rdSrc s = .next { s with
      outputs := s.outputs ++ [.response (s.now + Config.pioLatency) (.dword s.srcAddr)] } ∧
    exec .rdDstLo s = .next { s with
      outputs := s.outputs ++ [.response (s.now + Config.pioLatency) (.word (s.dstAddr.extractLsb' 0 32))] } ∧
    exec .rdDst s = .next { s with
      outputs := s.outputs ++ [.response (s.now + Config.pioLatency) (.dword s.dstAddr)] }

/-- RD_SIZE, RD_CMD, RD_STATUS: encoding, the value returned, and no other change
(40_mmio_register_access.md sections 4 to 6). -/
def Obligations.WordReadsRespond : Prop :=
  (∀ o : Operand,
    decodeWord 0x004008#24 o = .ok .rdSize ∧ decodeWord 0x00400C#24 o = .ok .rdCmd ∧
    decodeWord 0x004010#24 o = .ok .rdStatus) ∧
  ∀ s : State, s.fault = none →
    exec .rdSize s = .next { s with
      outputs := s.outputs ++ [.response (s.now + Config.pioLatency) (.word s.size)] } ∧
    exec .rdCmd s = .next { s with
      outputs := s.outputs ++ [.response (s.now + Config.pioLatency) (.word s.command)] } ∧
    exec .rdStatus s = .next { s with
      outputs := s.outputs ++ [.response (s.now + Config.pioLatency) (.word s.status)] }

/-- WR_SRC_LO, WR_SRC, WR_DST_LO, WR_DST: encoding, effect and frame; the high words change by no other operation
(40_mmio_register_access.md R134, R135, R138, R139). -/
def Obligations.AddressWritesStore : Prop :=
  (∀ o : Operand,
    decodeWord 0x104000#24 o = .ok (.wrSrcLo (BitVec.ofNat 32 o.value)) ∧
    decodeWord 0x108000#24 o = .ok (.wrSrc (BitVec.ofNat 64 o.value)) ∧
    decodeWord 0x104004#24 o = .ok (.wrDstLo (BitVec.ofNat 32 o.value)) ∧
    decodeWord 0x108004#24 o = .ok (.wrDst (BitVec.ofNat 64 o.value))) ∧
  (∀ (s : State) (v : U32) (w : U64), s.fault = none →
    exec (.wrSrcLo v) s = .next { s with
      srcAddr := (s.srcAddr.extractLsb' 32 32 ++ v : BitVec (32 + 32))
      outputs := s.outputs ++ [.response (s.now + Config.pioLatency) .done] } ∧
    exec (.wrSrc w) s = .next { s with
      srcAddr := w, outputs := s.outputs ++ [.response (s.now + Config.pioLatency) .done] } ∧
    exec (.wrDstLo v) s = .next { s with
      dstAddr := (s.dstAddr.extractLsb' 32 32 ++ v : BitVec (32 + 32))
      outputs := s.outputs ++ [.response (s.now + Config.pioLatency) .done] } ∧
    exec (.wrDst w) s = .next { s with
      dstAddr := w, outputs := s.outputs ++ [.response (s.now + Config.pioLatency) .done] }) ∧
  ∀ (i : Instr) (s t : State), exec i s = .next t →
    ((∀ w, i ≠ .wrSrc w) → t.srcAddr.extractLsb' 32 32 = s.srcAddr.extractLsb' 32 32) ∧
    ((∀ w, i ≠ .wrDst w) → t.dstAddr.extractLsb' 32 32 = s.dstAddr.extractLsb' 32 32)

/-- The two words of a u64 register are independent: a low-word write replaces bits 31:0 and keeps bits 63:32
(10_state.md R21, R22). -/
def Obligations.LowWordWriteKeepsHighWord : Prop :=
  ∀ (r : U64) (v : U32), lowWord (withLowWord r v) = v ∧ highWord (withLowWord r v) = highWord r

/-- WR_SIZE: encoding, effect and frame, for every value (40_mmio_register_access.md R141). -/
def Obligations.SizeWriteStoresAnyValue : Prop :=
  (∀ o : Operand, decodeWord 0x104008#24 o = .ok (.wrSize (BitVec.ofNat 32 o.value))) ∧
  ∀ (s : State) (v : U32), s.fault = none →
    exec (.wrSize v) s = .next { s with
      size := v, outputs := s.outputs ++ [.response (s.now + Config.pioLatency) .done] }

/-- WR_STATUS stores any 32-bit value in every state, a transfer in flight untouched (40_mmio_register_access.md
section 6; what a software write does is the spec's decision D10). -/
def Obligations.StatusWriteStoresAnyValue : Prop :=
  (∀ o : Operand, decodeWord 0x104010#24 o = .ok (.wrStatus (BitVec.ofNat 32 o.value))) ∧
  ∀ (s : State) (v : U32), s.fault = none →
    exec (.wrStatus v) s = .next { s with
      status := v, outputs := s.outputs ++ [.response (s.now + Config.pioLatency) .done] }

/-- WR_CMD with bit 0 clear stores the value and starts nothing, whatever STATUS and the phase
(40_mmio_register_access.md section 5, corner case (b)). -/
def Obligations.CommandWriteWithoutTriggerStores : Prop :=
  (∀ o : Operand, decodeWord 0x10400C#24 o = .ok (.wrCmd (BitVec.ofNat 32 o.value))) ∧
  ∀ (s : State) (v : U32), s.fault = none → v.getLsbD 0 = false →
    exec (.wrCmd v) s = .next { s with
      command := v, outputs := s.outputs ++ [.response (s.now + Config.pioLatency) .done] }

/-- W2: a trigger while STATUS is Busy logs one record, changes nothing else, and gets its normal response
(60_exceptions.md R269). -/
def Obligations.TriggerWhileBusyOnlyWarns : Prop :=
  ∀ (s : State) (v : U32), s.fault = none → v.getLsbD 0 = true → s.status = 1 →
    exec (.wrCmd v) s = .next { s with
      log := s.log ++ [.startWhileBusy]
      outputs := s.outputs ++ [.response (s.now + Config.pioLatency) .done] }

/-- A trigger whose checks pass stores COMMAND, begins the transfer at once from the snapshot of the registers, and then
responds (40_mmio_register_access.md section 5, 41_transfer_controller.md section 1; order of tests: decision D18). -/
def Obligations.TriggerBeginsTransfer : Prop :=
  ∀ (s : State) (v : U32), s.fault = none → v.getLsbD 0 = true → s.status ≠ 1 → s.phase = .none →
    TriggerInBounds s → s.plat.mode = .processEmulation → MappedOutside s s.srcAddr s.size →
    ∃ segs, SegmentsFor s s.srcAddr s.size.toNat segs ∧
      exec (.wrCmd v) s = .next { s with
        command := v, status := 1, phase := .readPending ⟨s.srcAddr, s.dstAddr, s.size⟩ segs, accessed := []
        outputs := s.outputs ++ [.response (s.now + Config.pioLatency) .done] }

/-- BADW_SRC, BADW_DST, BADW_SIZE, BADW_CMD, BADW_STATUS: encoding, the fatal latch with register name and width, no
response and no other change, for either direction (40_mmio_register_access.md R146 to R150). -/
def Obligations.WidthMismatchLatchesBadWidth : Prop :=
  (∀ (d : Word) (o : Operand),
    (d &&& 0xE00FFF#24 = 0x000000#24 → (fieldsOf d).width ≠ 4 → (fieldsOf d).width ≠ 8 →
      ∃ a, decodeWord d o = .ok (.badwSrc a (fieldsOf d).width.toNat)) ∧
    (d &&& 0xE00FFF#24 = 0x000004#24 → (fieldsOf d).width ≠ 4 → (fieldsOf d).width ≠ 8 →
      ∃ a, decodeWord d o = .ok (.badwDst a (fieldsOf d).width.toNat)) ∧
    (d &&& 0xE00FFF#24 = 0x000008#24 → (fieldsOf d).width ≠ 4 →
      ∃ a, decodeWord d o = .ok (.badwSize a (fieldsOf d).width.toNat)) ∧
    (d &&& 0xE00FFF#24 = 0x00000C#24 → (fieldsOf d).width ≠ 4 →
      ∃ a, decodeWord d o = .ok (.badwCmd a (fieldsOf d).width.toNat)) ∧
    (d &&& 0xE00FFF#24 = 0x000010#24 → (fieldsOf d).width ≠ 4 →
      ∃ a, decodeWord d o = .ok (.badwStatus a (fieldsOf d).width.toNat))) ∧
  ∀ (s : State) (a : Access) (w : Nat), s.fault = none →
    exec (.badwSrc a w) s = .next { s with fault := some (.badWidth .srcAddr w) } ∧
    exec (.badwDst a w) s = .next { s with fault := some (.badWidth .dstAddr w) } ∧
    exec (.badwSize a w) s = .next { s with fault := some (.badWidth .size w) } ∧
    exec (.badwCmd a w) s = .next { s with fault := some (.badWidth .command w) } ∧
    exec (.badwStatus a w) s = .next { s with fault := some (.badWidth .status w) }

/-- An access at one of the five register offsets with a width the register does not accept, of any width and either
direction, is fatal: no response, no register change (30_encoding.md R111). -/
def Obligations.IllegalWidthAccessIsFatal : Prop :=
  ∀ (s : State) (a : Access) (offset width : Nat) (rest : List Stimulus), s.fault = none →
    s.inbox = .request (.access a (s.plat.base + offset) width) :: rest → offset + width ≤ 4096 →
    (offset = 0x00 → width ≠ 4 → width ≠ 8 →
      step s = .next { s with inbox := rest, fault := some (.badWidth .srcAddr width) }) ∧
    (offset = 0x04 → width ≠ 4 → width ≠ 8 →
      step s = .next { s with inbox := rest, fault := some (.badWidth .dstAddr width) }) ∧
    (offset = 0x08 → width ≠ 4 →
      step s = .next { s with inbox := rest, fault := some (.badWidth .size width) }) ∧
    (offset = 0x0C → width ≠ 4 →
      step s = .next { s with inbox := rest, fault := some (.badWidth .command width) }) ∧
    (offset = 0x10 → width ≠ 4 →
      step s = .next { s with inbox := rest, fault := some (.badWidth .status width) })

/-- RD_UNMAPPED and WR_UNMAPPED: encoding, one warning, a normal response (0 for a read), no register change, at every
width (40_mmio_register_access.md R151, R152). -/
def Obligations.UnmappedAccessWarns : Prop :=
  (∀ (offset width value : Nat), offset < 4096 → offset + width ≤ 4096 →
    offset ≠ 0x00 → offset ≠ 0x04 → offset ≠ 0x08 → offset ≠ 0x0C → offset ≠ 0x10 →
    decodeAccess .read offset width = .ok (.rdUnmapped offset width) ∧
    decodeAccess (.write value) offset width = .ok (.wrUnmapped offset width (value % 2 ^ (8 * width)))) ∧
  (∀ (d : Word) (o : Operand), (fieldsOf d).kind = 0#3 →
    (fieldsOf d).offset.toNat + (fieldsOf d).width.toNat ≤ 4096 →
    (fieldsOf d).offset ≠ 0x00 → (fieldsOf d).offset ≠ 0x04 → (fieldsOf d).offset ≠ 0x08 →
    (fieldsOf d).offset ≠ 0x0C → (fieldsOf d).offset ≠ 0x10 →
    ((fieldsOf d).dir = 0#1 →
      decodeWord d o = .ok (.rdUnmapped (fieldsOf d).offset.toNat (fieldsOf d).width.toNat)) ∧
    ((fieldsOf d).dir = 1#1 →
      decodeWord d o = .ok (.wrUnmapped (fieldsOf d).offset.toNat (fieldsOf d).width.toNat
        (o.value % 2 ^ (8 * (fieldsOf d).width.toNat))))) ∧
  ∀ (s : State) (offset width value : Nat), s.fault = none →
    exec (.rdUnmapped offset width) s = .next { s with
      log := s.log ++ [.unmappedOffset .read offset width]
      outputs := s.outputs ++ [.response (s.now + Config.pioLatency) (.zero width)] } ∧
    exec (.wrUnmapped offset width value) s = .next { s with
      log := s.log ++ [.unmappedOffset .write offset width]
      outputs := s.outputs ++ [.response (s.now + Config.pioLatency) .done] }

/-- Every MMIO operation that does not raise a fatal condition ends with exactly one response stamped ten units later;
one that does raise it has none; the one refusal is a transfer whose source touches the window (decision D32)
(40_mmio_register_access.md section 1; decision D22). -/
def Obligations.EveryAccessRespondsOnce : Prop :=
  ∀ (i : Instr) (s : State), s.fault = none → (accessOf i).isSome = true →
    (∃ t r, exec i s = .next t ∧ t.fault = none ∧ t.outputs = s.outputs ++ [.response (s.now + 10) r]) ∨
    (∃ t f, exec i s = .next t ∧ t.fault = some f ∧ t.outputs = s.outputs) ∨
    (exec i s = .refused .touchesWindow ∧ ∃ v, i = .wrCmd v)

/-- What a register write leaves is what the next read of the register returns
(20_memory.md R77; COMMAND without a trigger). -/
def Obligations.ReadReturnsWrittenValue : Prop :=
  ∀ (s : State) (v : U32) (w : U64), s.fault = none →
    (∃ t, exec (.wrSrc w) s = .next t ∧ exec .rdSrc t =
      .next (respond t (.dword w))) ∧
    (∃ t, exec (.wrSrcLo v) s = .next t ∧ exec .rdSrcLo t = .next (respond t (.word v))) ∧
    (∃ t, exec (.wrDst w) s = .next t ∧ exec .rdDst t = .next (respond t (.dword w))) ∧
    (∃ t, exec (.wrDstLo v) s = .next t ∧ exec .rdDstLo t = .next (respond t (.word v))) ∧
    (∃ t, exec (.wrSize v) s = .next t ∧ exec .rdSize t = .next (respond t (.word v))) ∧
    (∃ t, exec (.wrStatus v) s = .next t ∧ exec .rdStatus t = .next (respond t (.word v))) ∧
    (v.getLsbD 0 = false →
      ∃ t, exec (.wrCmd v) s = .next t ∧ exec .rdCmd t = .next (respond t (.word v)))

/-! ## Transfer Controller -/

/-- START with its checks passing: Busy at once, the read phase issued with the snapshot and the source's segments, and
nothing else changed (41_transfer_controller.md section 1; order of tests: decision D18). -/
def Obligations.StartIssuesReadPhase : Prop :=
  (∀ o : Operand, decodeWord 0xE00000#24 o = .ok .start) ∧
  ∀ s : State, s.fault = none → s.status ≠ 1 → s.phase = .none → TriggerInBounds s →
    s.plat.mode = .processEmulation → MappedOutside s s.srcAddr s.size →
    ∃ segs, SegmentsFor s s.srcAddr s.size.toNat segs ∧
      exec .start s = .next { s with
        status := 1, phase := .readPending ⟨s.srcAddr, s.dstAddr, s.size⟩ segs, accessed := [] }

/-- START's fatal conditions in the spec's order (decisions D11, D12, D14, D16, D18): the latch alone changes, and through
WR_CMD also COMMAND, already stored; no response. -/
def Obligations.StartFatalConditionsInOrder : Prop :=
  ∀ (s : State) (f : Fatal), s.fault = none → s.status ≠ 1 → StartFatal s f →
    exec .start s = .next { s with fault := some f } ∧
    ∀ v : U32, v.getLsbD 0 = true → exec (.wrCmd v) s = .next { s with command := v, fault := some f }

/-- READ_DONE once every byte has been read: the destination of the snapshot is translated and the write phase issued;
STATUS and the registers are not written (41_transfer_controller.md section 2; when the destination is translated is the
spec's decision D15). -/
def Obligations.ReadDoneIssuesWritePhase : Prop :=
  (∀ o : Operand, decodeWord 0x800000#24 o = .ok .readDone) ∧
  ∀ (s : State) (snap : Snapshot) (segs : Segs), s.fault = none → s.phase = .readPending snap segs →
    s.accessed.length = snap.size.toNat → s.plat.mode = .processEmulation →
    (MappedOutside s snap.dst snap.size → ∃ dst, SegmentsFor s snap.dst snap.size.toNat dst ∧
      exec .readDone s = .next { s with phase := .writePending snap dst, accessed := [] }) ∧
    (∀ v, LowestUnmapped s snap.dst snap.size.toNat v →
      exec .readDone s = .next { s with fault := some (.translationFault v) })

/-- WRITE_DONE once every byte has been written: STATUS is 2 whatever it held, the phase ends, nothing else changes
(41_transfer_controller.md R178). -/
def Obligations.WriteDoneCompletes : Prop :=
  (∀ o : Operand, decodeWord 0xA00000#24 o = .ok .writeDone) ∧
  ∀ (s : State) (snap : Snapshot) (segs : Segs), s.fault = none → s.phase = .writePending snap segs →
    s.accessed.length = snap.size.toNat →
    exec .writeDone s = .next { s with status := 2, phase := .none, accessed := [] }

/-- An event that is not enabled does not exist: READ_DONE, WRITE_DONE and DRAIN are refused outside the states that
enable them, START and TRY_DELIVER outside their callers' states (log entries 14, 15). -/
def Obligations.EventsNotEnabledAreRefused : Prop :=
  ∀ s : State, s.fault = none →
    ((∀ snap segs, s.phase = .readPending snap segs → s.accessed.length ≠ snap.size.toNat) →
      exec .readDone s = .refused .readDoneNotEnabled) ∧
    ((∀ snap segs, s.phase = .writePending snap segs → s.accessed.length ≠ snap.size.toNat) →
      exec .writeDone s = .refused .writeDoneNotEnabled) ∧
    (s.drainAt ≠ some s.now → exec .drain s = .refused .drainNotEnabled) ∧
    (s.status = 1 → exec .start s = .refused .startNotCalled) ∧
    (s.retry = true ∨ s.drainAt ≠ none → exec .tryDeliver s = .refused .deliverNotCalled)

/-- One byte access of the transfer engine: a read phase moves physical memory to the staging buffer, a write phase the
staging buffer to physical memory, each byte at most once; a byte with no memory is stuck (20_memory.md section 7,
decisions D19, D33; 41_transfer_controller.md sections 2, 3). -/
def Obligations.ByteAccessMovesOneByte : Prop :=
  ∀ (s : State) (snap : Snapshot) (segs : Segs) (i pa : Nat), s.fault = none → i < snap.size.toNat →
    segPa segs i = some pa →
    (s.phase = .readPending snap segs → i ∉ s.accessed → hasMemory s.plat pa = true →
      byteAccess i s = .next { s with
        stg := stgWrite s.stg i (memRead s.mem pa), accessed := insertIndex i s.accessed }) ∧
    (s.phase = .writePending snap segs → i ∉ s.accessed → hasMemory s.plat pa = true →
      byteAccess i s = .next { s with
        mem := memWrite s.mem pa (stgRead s.stg i), accessed := insertIndex i s.accessed }) ∧
    (s.phase = .readPending snap segs ∨ s.phase = .writePending snap segs →
      i ∉ s.accessed → hasMemory s.plat pa = false → byteAccess i s = .fault (.noMemory pa)) ∧
    (s.phase = .readPending snap segs ∨ s.phase = .writePending snap segs →
      i ∈ s.accessed → byteAccess i s = .refused .accessNotEnabled)

/-- A read phase whose bytes are accessed in any order, each once, fills `Stg[0 .. size-1]` with the source's bytes and
changes nothing else (41_transfer_controller.md R175). -/
def Obligations.ReadPhaseFillsStagingInAnyOrder : Prop :=
  ∀ (s : State) (snap : Snapshot) (segs : Segs) (order : List Nat) (rest : List Stimulus), s.fault = none →
    s.phase = .readPending snap segs → s.accessed = [] →
    s.inbox = order.map Stimulus.byteAccess ++ rest → order.Perm (List.range snap.size.toNat) →
    (∀ i < snap.size.toNat, ∃ pa, segPa segs i = some pa ∧ hasMemory s.plat pa = true) →
    ∃ t : State, core.run order.length s = .next t ∧
      t = { s with inbox := rest, stg := t.stg, accessed := t.accessed } ∧
      t.accessed.length = snap.size.toNat ∧
      (∀ i < snap.size.toNat, ∀ pa, segPa segs i = some pa → stgRead t.stg i = memRead s.mem pa) ∧
      ∀ i, snap.size.toNat ≤ i → stgRead t.stg i = stgRead s.stg i

/-- A write phase whose bytes are accessed in any order, each once, stores `Stg[i]` at the physical address of byte `i`
where no other byte of the range shares it, and leaves every other byte of memory and all other state as it was
(41_transfer_controller.md R177). -/
def Obligations.WritePhaseStoresInAnyOrder : Prop :=
  ∀ (s : State) (snap : Snapshot) (segs : Segs) (order : List Nat) (rest : List Stimulus), s.fault = none →
    MemoryInv s → s.phase = .writePending snap segs → s.accessed = [] →
    s.inbox = order.map Stimulus.byteAccess ++ rest → order.Perm (List.range snap.size.toNat) →
    (∀ i < snap.size.toNat, ∃ pa, segPa segs i = some pa ∧ hasMemory s.plat pa = true) →
    ∃ t : State, core.run order.length s = .next t ∧
      t = { s with inbox := rest, mem := t.mem, accessed := t.accessed } ∧
      t.accessed.length = snap.size.toNat ∧
      (∀ i < snap.size.toNat, ∀ pa, segPa segs i = some pa →
        (∀ j < snap.size.toNat, segPa segs j = some pa → j = i) → memRead t.mem pa = stgRead s.stg i) ∧
      ∀ a, (∀ i < snap.size.toNat, segPa segs i ≠ some a) → memRead t.mem a = memRead s.mem a

/-- A transfer copies as through a temporary: from an issued read phase, with the bytes of both phases accessed in any
order, the transfer completes, byte `i` of the destination holds what byte `i` of the source held during the read phase,
overlapping or not, and no other memory, no register but STATUS and nothing of the queue changes (20_memory.md R66,
R79). -/
def Obligations.TransferCopiesSourceToDestination : Prop :=
  ∀ (s : State) (snap : Snapshot) (segs : Segs) (reads writes : List Nat) (o o' : Operand)
    (rest : List Stimulus), s.fault = none → MemoryInv s → s.plat.mode = .processEmulation →
    s.phase = .readPending snap segs → s.accessed = [] →
    s.inbox = reads.map Stimulus.byteAccess ++ Stimulus.request (.word 0x800000#24 o) ::
      (writes.map Stimulus.byteAccess ++ Stimulus.request (.word 0xA00000#24 o') :: rest) →
    reads.Perm (List.range snap.size.toNat) → writes.Perm (List.range snap.size.toNat) →
    (∀ i < snap.size.toNat, ∃ pa, segPa segs i = some pa ∧ hasMemory s.plat pa = true) →
    MappedToMemory s snap.dst snap.size →
    (∀ i < snap.size.toNat, ∀ j < snap.size.toNat,
      ptMap (pageSize s.plat) s.pageTable (snap.dst.toNat + i) =
        ptMap (pageSize s.plat) s.pageTable (snap.dst.toNat + j) → i = j) →
    ∃ t : State, core.run (reads.length + 1 + (writes.length + 1)) s = .next t ∧
      t = { s with inbox := rest, stg := t.stg, mem := t.mem, phase := .none, accessed := [], status := 2 } ∧
      (∀ i < snap.size.toNat, ∀ src dst, segPa segs i = some src →
        ptMap (pageSize s.plat) s.pageTable (snap.dst.toNat + i) = some dst →
        memRead t.mem dst = memRead s.mem src) ∧
      ∀ a, (∀ i < snap.size.toNat, ptMap (pageSize s.plat) s.pageTable (snap.dst.toNat + i) ≠ some a) →
        memRead t.mem a = memRead s.mem a

/-! ## Response Queue -/

/-- SUBMIT is always accepted: the backend is called, and its storage is what the call leaves; a packet that needs no
response leaves no trace in the queue; one that does is appended at the tail as the backend left it, ready at
`now + latency`, and a drain is scheduled exactly when the queue was empty and no retry pending (42_response_queue.md
sections 1, 2 and 6, decision D26; in what form `serviceAccess` gives its effect, and of which packet `needsResponse` is
read, is the model's log entries 10 and 35). -/
def Obligations.SubmitAppendsAndSchedules : Prop :=
  (∀ o : Operand, decodeWord 0x200000#24 o = .ok (.submit o.pkt)) ∧
  ∀ (s : State) (p : Packet) (latency : Time) (left : Packet) (storage : Storage), s.fault = none →
    serviceAnswer s p = ⟨latency, left, storage⟩ →
    (afterService s p).storage = storage ∧
    (p.needsResponse = false → exec (.submit p) s = .next { afterService s p with
      outputs := s.outputs ++ [.serviced p latency left, .accepted p] }) ∧
    (p.needsResponse = true → s.queue = [] → s.retry = false →
      exec (.submit p) s = .next { afterService s p with
        queue := [⟨left, s.now + latency⟩]
        drainAt := some (s.now + latency)
        outputs := s.outputs ++ [.serviced p latency left, .accepted p] }) ∧
    (p.needsResponse = true → s.queue ≠ [] ∨ s.retry = true →
      exec (.submit p) s = .next { afterService s p with
        queue := s.queue ++ [⟨left, s.now + latency⟩]
        outputs := s.outputs ++ [.serviced p latency left, .accepted p] })

/-- The success path, through TRY_DELIVER, DRAIN and PEER_READY: the head is delivered now, popped, `retry` cleared, and
if entries remain the next drain is at `max(next.readyTime, now + 1)` (42_response_queue.md R204). -/
def Obligations.AcceptedDeliveryPopsHead : Prop :=
  ∀ (s : State) (e : Entry) (tail : List Entry), s.fault = none → s.queue = e :: tail →
    peerAnswer s e.pkt = true →
    (s.retry = false → s.drainAt = none →
      exec .tryDeliver s = .next { afterPeerAnswer s with
        outputs := s.outputs ++ [.delivered e.pkt s.now], queue := tail, retry := false
        drainAt := tail.head?.map (fun next => max next.readyTime (s.now + 1)) }) ∧
    (s.retry = false → s.drainAt = some s.now →
      exec .drain s = .next { afterPeerAnswer s with
        outputs := s.outputs ++ [.delivered e.pkt s.now], queue := tail, retry := false
        drainAt := tail.head?.map (fun next => max next.readyTime (s.now + 1)) }) ∧
    (s.retry = true → s.drainAt = none →
      exec .peerReady s = .next { afterPeerAnswer s with
        outputs := s.outputs ++ [.delivered e.pkt s.now], queue := tail, retry := false
        drainAt := tail.head?.map (fun next => max next.readyTime (s.now + 1)) })

/-- The failure path, through TRY_DELIVER, DRAIN and PEER_READY: `retry` is set, the queue unchanged, nothing scheduled,
nothing logged (42_response_queue.md R205). -/
def Obligations.RefusedDeliveryKeepsHead : Prop :=
  ∀ (s : State) (e : Entry) (tail : List Entry), s.fault = none → s.queue = e :: tail →
    peerAnswer s e.pkt = false →
    (s.retry = false → s.drainAt = none →
      exec .tryDeliver s = .next { afterPeerAnswer s with retry := true }) ∧
    (s.retry = false → s.drainAt = some s.now →
      exec .drain s = .next { afterPeerAnswer s with drainAt := none, retry := true }) ∧
    (s.retry = true → exec .peerReady s = .next { afterPeerAnswer s with retry := true })

/-- An empty queue makes a delivery attempt a no-op, and a drain with `retry` set attempts none (42_response_queue.md
section 3; the guard is the spec's decision D27). -/
def Obligations.DrainWithoutAttempt : Prop :=
  (∀ o : Operand, decodeWord 0x400000#24 o = .ok .drain ∧ decodeWord 0xE00002#24 o = .ok .tryDeliver) ∧
  ∀ s : State, s.fault = none →
    (s.queue = [] → s.retry = false → s.drainAt = none → exec .tryDeliver s = .next s) ∧
    (s.drainAt = some s.now → s.queue = [] ∨ s.retry = true →
      exec .drain s = .next { s with drainAt := none }) ∧
    (s.queue = [] → s.retry = true → exec .peerReady s = .next { s with retry := false })

/-- F3: PEER_READY when no retry is pending latches SpuriousPeerReady; the queue is not changed (60_exceptions.md
R263). -/
def Obligations.SpuriousPeerReadyIsFatal : Prop :=
  (∀ o : Operand, decodeWord 0x600000#24 o = .ok .peerReady) ∧
  ∀ s : State, s.fault = none → s.retry = false →
    exec .peerReady s = .next { s with fault := some .spuriousPeerReady }

/-- A packet is never delivered before its ready time, and only from the head (42_response_queue.md section 5), by any
queue in every state that meets its invariants. -/
def Obligations.DeliveryIsNotEarly : Prop :=
  ∀ (s t : State) (w : Who) (v v' : State), step s = .next t → viewAt s w = some v → viewAt t w = some v' →
    QueueInv v → ∀ p τ, Output.delivered p τ ∈ v'.outputs.drop v.outputs.length →
      τ = s.now ∧ ∃ e tail, v.queue = e :: tail ∧ v'.queue = tail ∧ e.pkt = p ∧ e.readyTime ≤ τ

/-! ## Address Translator -/

/-- TRANSLATE in process-emulation mode, every byte mapped: the answer covers the range and maps each byte as the page
table does; its segments are cut at page boundaries and nowhere else (43_address_translator.md section 2; the canonical
cut is the spec's decision D17). -/
def Obligations.TranslateAnswersPageMap : Prop :=
  (∀ o : Operand, decodeWord 0xE00001#24 o = .ok (.translate o.va o.n)) ∧
  ∀ (s : State) (va : U64) (n : Nat), s.fault = none → s.plat.mode = .processEmulation →
    (∀ i < n, (ptMap (pageSize s.plat) s.pageTable (va.toNat + i)).isSome = true) →
    ∃ segs, exec (.translate va n) s = .next { s with outputs := s.outputs ++ [.segments segs] } ∧
      SegmentsFor s va n segs ∧
      ∀ before pa len after, segs = before ++ (pa, len) :: after →
        0 < len ∧
        (va.toNat + (before.map Prod.snd).sum) % pageSize s.plat + len ≤ pageSize s.plat ∧
        (after ≠ [] →
          (va.toNat + (before.map Prod.snd).sum) % pageSize s.plat + len = pageSize s.plat)

/-- F6: a range with an unmapped byte is fatal with the lowest such address (43_address_translator.md section 2; the
spec's decision D16). -/
def Obligations.TranslateFaultsAtLowestUnmapped : Prop :=
  ∀ (s : State) (va : U64) (n v : Nat), s.fault = none → s.plat.mode = .processEmulation →
    LowestUnmapped s va n v →
    exec (.translate va n) s = .next { s with fault := some (.translationFault v) }

/-- `MODE = Other`: TRANSLATE is fatal whatever its operands, and no operation begins a transfer; every register read and
write, a command write with bit 0 clear, a rejected trigger and SUBMIT go on without a fatal condition
(43_address_translator.md section 2). -/
def Obligations.OtherModeNeverTransfers : Prop :=
  ∀ s : State, s.fault = none → s.plat.mode = .other →
    (∀ va n, exec (.translate va n) s = .next { s with fault := some .translationUnsupported }) ∧
    (∀ i t, exec i s = .next t → s.phase = .none → t.phase = .none) ∧
    (s.phase = .none → s.status ≠ 1 → TriggerInBounds s → ∀ v : U32, v.getLsbD 0 = true →
      exec (.wrCmd v) s = .next { s with command := v, fault := some .translationUnsupported }) ∧
    (∀ i, (∃ v : U32, i = .wrSrcLo v ∨ i = .wrDstLo v ∨ i = .wrSize v ∨ i = .wrStatus v ∨
          (i = .wrCmd v ∧ (v.getLsbD 0 = false ∨ s.status = 1))) ∨ (∃ v : U64, i = .wrSrc v ∨ i = .wrDst v) ∨
        i = .rdSrcLo ∨ i = .rdSrc ∨ i = .rdDstLo ∨ i = .rdDst ∨ i = .rdSize ∨ i = .rdCmd ∨ i = .rdStatus ∨
        (∃ p, i = .submit p) →
      ∃ t, exec i s = .next t ∧ t.fault = none)

/-- The page table is page-wise contiguous and maps no address at or above 2^64 (43_address_translator.md section 2; the
spec's decision D17, log entries 5, 18). -/
def Obligations.PageTableIsPagewiseContiguous : Prop :=
  ∀ (p : Platform) (pt : PageTable) (v v' q : Nat), ptMap (pageSize p) pt v = some q →
    v / pageSize p = v' / pageSize p →
    v < 2 ^ 64 ∧ ptMap (pageSize p) pt v' = some (q - v % pageSize p + v' % pageSize p)

/-- RANGE_QUERY answers with the 4 KiB window, inclusive bounds, whatever the mode and the transfer; a queue's port, the
first one's or a further one's, answers the same query with its backend's ranges and nothing else changes
(43_address_translator.md section 3; inclusive bounds are the spec's notation). -/
def Obligations.RangeQueryReportsWindow : Prop :=
  (∀ o : Operand, decodeWord 0xC00000#24 o = .ok .rangeQuery) ∧
  ∀ s : State, s.fault = none →
    exec .rangeQuery s = .next { s with
      outputs := s.outputs ++ [.ranges [(s.plat.base, s.plat.base + 0xFFF)]] } ∧
    (∀ rest, s.inbox = .queuePortQuery :: rest →
      step s = .next { s with inbox := rest, outputs := s.outputs ++ [.ranges s.plat.backendRanges] }) ∧
    ∀ k q rest, s.inbox = .sibling k .queuePortQuery :: rest → s.otherQueues[k]? = some q →
      step s = .next { s with
        inbox := rest
        otherQueues := s.otherQueues.set k { q with outputs := q.outputs ++ [.ranges q.ranges] } }

/-! ## Fatal conditions and warnings -/

/-- After a fatal condition no operation and no step has a next state: the latch is never cleared
(60_exceptions.md section 6; decision D23, log entry 1). -/
def Obligations.FatalIsAbsorbing : Prop :=
  ∀ (s : State) (f : Fatal), s.fault = some f →
    (∀ i, exec i s = .refused (.afterFatal f)) ∧
    (s.inbox = [] → step s = .fault (.fatal f)) ∧
    (s.inbox ≠ [] → step s = .refused (.afterFatal f))

/-- An operation that raises a fatal condition has made no other state change; the one exception is COMMAND, which WR_CMD
has stored (60_exceptions.md section 6; decision D23). -/
def Obligations.FatalEntryIsPrecise : Prop :=
  ∀ (i : Instr) (s t : State) (f : Fatal), exec i s = .next t → t.fault = some f →
    t = { s with fault := some f } ∨
      ∃ v : U32, i = .wrCmd v ∧ v.getLsbD 0 = true ∧ t = { s with command := v, fault := some f }

/-- An operation logs nothing but W1 at an unmapped access and W2 at a trigger while Busy, one record each
(60_exceptions.md R268, R269, R270). -/
def Obligations.OnlyTheTwoWarningsAreLogged : Prop :=
  ∀ (i : Instr) (s t : State), exec i s = .next t →
    t.log = s.log ++
      (match i with
       | .rdUnmapped offset width => [.unmappedOffset .read offset width]
       | .wrUnmapped offset width _ => [.unmappedOffset .write offset width]
       | .wrCmd v => if v.getLsbD 0 = true ∧ s.status = 1 then [.startWhileBusy] else []
       | _ => [])

/-! ## Whole-machine rules -/

/-- Which operations write a register: each register changes only by its own writes, and STATUS by WR_STATUS, a trigger
and WRITE_DONE (10_state.md section 1). -/
def Obligations.RegistersHaveOnlyTheirWriters : Prop :=
  ∀ (i : Instr) (s t : State), exec i s = .next t →
    ((∀ v, i ≠ .wrSrcLo v) → (∀ v, i ≠ .wrSrc v) → t.srcAddr = s.srcAddr) ∧
    ((∀ v, i ≠ .wrDstLo v) → (∀ v, i ≠ .wrDst v) → t.dstAddr = s.dstAddr) ∧
    ((∀ v, i ≠ .wrSize v) → t.size = s.size) ∧
    ((∀ v, i ≠ .wrCmd v) → t.command = s.command) ∧
    ((∀ v, i ≠ .wrStatus v) → (∀ v, i ≠ .wrCmd v) → i ≠ .start → i ≠ .writeDone → t.status = s.status) ∧
    ((∀ v, i ≠ .wrCmd v) → i ≠ .start → i ≠ .readDone → i ≠ .writeDone →
      t.phase = s.phase ∧ t.accessed = s.accessed)

/-- No operation touches physical memory, the staging buffer, time, the platform, the page table or another engine or
queue: those change by byte accesses, the environment and their own operations alone (20_memory.md R63, R64). -/
def Obligations.OperationsLeaveMemoryAlone : Prop :=
  ∀ (i : Instr) (s t : State), exec i s = .next t →
    (∀ a, memRead t.mem a = memRead s.mem a) ∧ t.mem = s.mem ∧ (∀ k, stgRead t.stg k = stgRead s.stg k) ∧
      t.stg = s.stg ∧ t.now = s.now ∧ t.plat = s.plat ∧ t.pageTable = s.pageTable ∧ t.inbox = s.inbox ∧
      t.otherEngines = s.otherEngines ∧ t.otherQueues = s.otherQueues

/-- The engine's operations leave the queue alone and the queue's operations the engine (10_state.md R40). Of any number of
engines and queues, in the form of log entry 25: they share the time, the fatal latch, the log and physical memory; a step
is an act of one of them at most, of a further one where the stimulus says so, and leaves the others as they were but for
what is shared (60_exceptions.md section 8). -/
def Obligations.EngineAndQueueAreIndependent : Prop :=
  (∀ (i : Instr) (s t : State), exec i s = .next t →
    (((∃ p, i = .submit p) ∨ i = .drain ∨ i = .tryDeliver ∨ i = .peerReady) →
      t.srcAddr = s.srcAddr ∧ t.dstAddr = s.dstAddr ∧ t.size = s.size ∧ t.command = s.command ∧
        t.status = s.status ∧ t.phase = s.phase ∧ t.accessed = s.accessed ∧ t.stg = s.stg ∧ t.log = s.log) ∧
    (((∀ p, i ≠ .submit p) ∧ i ≠ .drain ∧ i ≠ .tryDeliver ∧ i ≠ .peerReady) →
      t.queue = s.queue ∧ t.retry = s.retry ∧ t.drainAt = s.drainAt ∧ t.peerScript = s.peerScript ∧
        t.backendScript = s.backendScript ∧ t.storage = s.storage ∧ t.draws = s.draws)) ∧
  (∀ (s v : State) (w : Who), viewAt s w = some v →
    v.now = s.now ∧ v.fault = s.fault ∧ v.log = s.log ∧ v.mem = s.mem) ∧
  ∀ s t : State, step s = .next t →
    ∃ w, (∀ k a rest, s.inbox = .sibling k a :: rest → w = .engine k ∨ w = .queue k) ∧
      ∀ w' v v', w' ≠ w → viewAt s w' = some v → viewAt t w' = some v' → SharedChange v v'

/-- Time never goes back and passes no queue's scheduled drain event; what any engine or queue has sent and what is logged
stays (10_state.md R33, R35; 60_exceptions.md section 8). -/
def Obligations.TimeAndRecordsOnlyGrow : Prop :=
  ∀ (s t : State) (w : Who) (v v' : State), step s = .next t → viewAt s w = some v → viewAt t w = some v' →
    s.now ≤ t.now ∧ (∀ d, v.drainAt = some d → s.now ≤ d → t.now ≤ d) ∧
      v.outputs <+: v'.outputs ∧ s.log <+: t.log ∧ v'.plat = v.plat

/-! ## Invariants -/

/-- What reset leaves: the values of the spec's decision D3 (log entry 6), any physical memory (decision D36; log entry 7
says in what form), any contents of the backend's storage (log entry 10), any number of further engines and queues (log
entry 25), and every invariant of each engine and queue. -/
def Obligations.ResetMeetsInvariants : Prop :=
  State.reset.srcAddr = 0 ∧ State.reset.dstAddr = 0 ∧ State.reset.size = 0 ∧ State.reset.command = 0 ∧
    State.reset.status = 0 ∧ State.reset.phase = .none ∧ State.reset.queue = [] ∧ State.reset.retry = false ∧
    State.reset.drainAt = none ∧ State.reset.fault = none ∧ State.reset.log = [] ∧
    State.reset.mem = memoryOf Config.memory ∧ State.reset.storage = Config.storage ∧ MemoryInv State.reset ∧
    State.reset.otherEngines = Config.otherEngines.map Engine.reset ∧
    State.reset.otherQueues = Config.otherQueues.map Queue.reset ∧
    ∀ w v, viewAt State.reset w = some v → EngineInv v ∧ QueueInv v ∧ FifoInv v ∧ StatusAgrees v

/-- Every step keeps memory canonical (log entry 7). -/
def Obligations.StepKeepsMemoryCanonical : Prop :=
  ∀ s t : State, MemoryInv s → step s = .next t → MemoryInv t

/-- Every step keeps every engine's invariant. Of a transfer in flight: the size bound E4 (10_state.md section 6); no range
passes 2^64 (decision D14); the segments cover exactly the size (43_address_translator.md section 2); they lie outside the
window (decision D32, as log entry 16 places it); each byte is accessed at most once (20_memory.md section 7). Staging
indices stay below the capacity (10_state.md section 2); the rising form of the buffer's list and of the list of accessed
bytes, which is empty with no phase outstanding, is the model's own (log entries 8 and 13). -/
def Obligations.StepKeepsEngineInvariant : Prop :=
  ∀ (s t : State) (w : Who) (v v' : State), step s = .next t → viewAt s w = some v → viewAt t w = some v' →
    EngineInv v → EngineInv v'

/-- Every step keeps every queue's invariants Q1, Q3, Q4 (10_state.md section 6, 42_response_queue.md section 5; the spec
derives them). -/
def Obligations.StepKeepsQueueInvariant : Prop :=
  ∀ (s t : State) (w : Who) (v v' : State), step s = .next t → viewAt s w = some v → viewAt t w = some v' →
    QueueInv v → QueueInv v'

/-- Strict FIFO: in every step of every queue what was submitted and needs a response, as the backend left it, stays what
was delivered followed by what is queued, so nothing is reordered, skipped or delivered twice (42_response_queue.md
section 5). That it holds at reset is no rule of that section: it rests on the empty queue and outputs of decision D3,
which log entry 6 follows. -/
def Obligations.StepKeepsDeliveryOrder : Prop :=
  (∀ w v, viewAt State.reset w = some v → FifoInv v) ∧
  ∀ (s t : State) (w : Who) (v v' : State), step s = .next t → viewAt s w = some v → viewAt t w = some v' →
    FifoInv v → FifoInv v'

/-- E2: as long as software does not write an engine's STATUS, it reads Busy exactly while a phase is outstanding
(10_state.md section 6; the spec derives it). -/
def Obligations.StatusIsBusyExactlyInPhase : Prop :=
  ∀ (s t : State) (w : Who) (v v' : State), step s = .next t → viewAt s w = some v → viewAt t w = some v' →
    StatusAgrees v → (∀ x, asked s ≠ some (w, .wrStatus x)) →
    StatusAgrees v'

/-- Of every engine a read phase is left only for the write phase of the same snapshot, with every byte read, and a write
phase only for none with STATUS 2, with every byte written: the read phase strictly precedes the write phase, and nothing
cancels a transfer (10_state.md sections 2 and 6). -/
def Obligations.PhaseAdvancesOnlyInOrder : Prop :=
  ∀ (s t : State) (w : Who) (v v' : State), step s = .next t → viewAt s w = some v → viewAt t w = some v' →
    v'.phase = v.phase ∨
    (v.phase = .none ∧ ∃ snap segs, v'.phase = .readPending snap segs ∧ v'.accessed = [] ∧ v'.status = 1) ∨
    (∃ snap segs dst, v.phase = .readPending snap segs ∧ v.accessed.length = snap.size.toNat ∧
      v'.phase = .writePending snap dst ∧ v'.accessed = []) ∨
    (∃ snap segs, v.phase = .writePending snap segs ∧ v.accessed.length = snap.size.toNat ∧
      v'.phase = .none ∧ v'.status = 2)

/-! ## Over runs -/

/-- In every run that is fair to the transfer engines, whatever arrives meanwhile, a read phase of any engine is followed by
its write phase, and a write phase by none with STATUS 2 (41_transfer_controller.md section 5; weak fairness is the spec's
decision D20, a premise as log entry 29 has it). The other premises: the engine's invariant at the start of the run, and
that nothing holds its phases up (decisions D32, D33). -/
def Obligations.FairTransferCompletes : Prop :=
  ∀ (run : Nat → State) (w : Who), IsRun run → WeaklyFair run →
    (∀ v, viewAt (run 0) w = some v → EngineInv v) →
    (∀ j v, viewAt (run j) w = some v → PhaseUnobstructed v) →
    ∀ k v snap segs, viewAt (run k) w = some v →
      (v.phase = .readPending snap segs →
        ∃ j u u' dst, k ≤ j ∧ viewAt (run j) w = some u ∧ viewAt (run (j + 1)) w = some u' ∧
          u.phase = .readPending snap segs ∧ u'.phase = .writePending snap dst) ∧
      (v.phase = .writePending snap segs →
        ∃ j u u', k ≤ j ∧ viewAt (run j) w = some u ∧ viewAt (run (j + 1)) w = some u' ∧
          u.phase = .writePending snap segs ∧ u'.phase = .none ∧ u'.status = 2)

/-- In every run in which the scheduler fires every scheduled event, a scheduled drain of any queue stays and fires at its
time, and offers the head, until then the same, which is delivered or refused. In every run in which the peers keep their
duty, a refused head of any queue waits, nothing being delivered by it, until a PEER_READY, which delivers it or finds the
peer refusing again; a peer that always signals and refuses for ever keeps its duty (42_response_queue.md sections 3 to 6;
the premises are the liveness assumptions of 70_reset_and_hazards.md section 4, the duty the spec's decision D28, in the
form of log entry 29). -/
def Obligations.PeerDutyResumesDelivery : Prop :=
  (∀ (run : Nat → State) (w : Who), IsRun run → SchedulerFires run →
    (∀ v, viewAt (run 0) w = some v → QueueInv v) →
    ∀ k v d e tail, viewAt (run k) w = some v → v.drainAt = some d → v.queue = e :: tail →
      ∃ j u', k ≤ j ∧ DrainFires (run j) w ∧ (run j).now = d ∧ viewAt (run (j + 1)) w = some u' ∧
        (∀ i u, k ≤ i → i ≤ j → viewAt (run i) w = some u → u.drainAt = some d ∧ (∃ rest, u.queue = e :: rest) ∧
          deliveredPkts u.outputs = deliveredPkts v.outputs) ∧
        (deliveredPkts u'.outputs = deliveredPkts v.outputs ++ [e.pkt] ∨
          u'.retry = true ∧ (∃ rest, u'.queue = e :: rest) ∧
            deliveredPkts u'.outputs = deliveredPkts v.outputs)) ∧
  (∀ (run : Nat → State) (w : Who), IsRun run → PeersKeepDuty run →
    ∀ k v e tail, viewAt (run k) w = some v → v.retry = true → v.queue = e :: tail →
      ∃ j u', k ≤ j ∧ PeerSignals (run j) w ∧ viewAt (run (j + 1)) w = some u' ∧
        (∀ i u, k ≤ i → i ≤ j → viewAt (run i) w = some u → u.retry = true ∧ (∃ rest, u.queue = e :: rest) ∧
          deliveredPkts u.outputs = deliveredPkts v.outputs) ∧
        (deliveredPkts u'.outputs = deliveredPkts v.outputs ++ [e.pkt] ∨
          u'.retry = true ∧ (∃ rest, u'.queue = e :: rest) ∧
            deliveredPkts u'.outputs = deliveredPkts v.outputs)) ∧
  ∃ run : Nat → State, IsRun run ∧ SchedulerFires run ∧ PeersKeepDuty run ∧
    ∀ k, PeerSignals (run k) .first ∧ (run k).retry = true ∧ (run k).queue ≠ [] ∧ (run k).queue = (run 0).queue

/-! ## Pseudo-operations -/

/-- The pseudo-operations perform what their sequences say: DMA_COPY sets the registers up, in any order, and triggers
last; POLL_COMPLETE ends when, and only when, a read of STATUS has returned 2; ACK leaves STATUS 0; writing the high word
of SRC_ADDR keeps the low word it has read (30_encoding.md section 5; the form is the model's, log entry 36; the trigger's
bounds are decisions D12, D14, the window D32). -/
def Obligations.PseudoOperationsPerform : Prop :=
  (∀ (src dst : U64) (n : U32) (h : History),
    (∀ i ∈ dmaCopySetup src dst n, performed h i = false → i ∈ nextOps (.dmaCopy src dst n) h) ∧
    (.wrCmd 1 ∈ nextOps (.dmaCopy src dst n) h → ∀ i ∈ dmaCopySetup src dst n, ∃ r, (i, r) ∈ h)) ∧
  ∀ s : State, s.fault = none →
    (∀ (src dst : U64) (n : U32), s.status ≠ 1 → s.phase = .none →
      TriggerInBounds { s with srcAddr := src, dstAddr := dst, size := n } →
      s.plat.mode = .processEmulation → MappedOutside s src n →
      ∃ segs, SegmentsFor s src n.toNat segs ∧
        Performs (.dmaCopy src dst n) [] s { s with
          srcAddr := src, dstAddr := dst, size := n, command := 1, status := 1
          phase := .readPending ⟨src, dst, n⟩ segs, accessed := []
          outputs := s.outputs ++ List.replicate 4 (.response (s.now + Config.pioLatency) .done) }) ∧
    (s.status = 2 → Performs .pollComplete [] s { s with
      outputs := s.outputs ++ [.response (s.now + Config.pioLatency) (.word 2)] }) ∧
    (∀ t, Performs .pollComplete [] s t →
      ∃ stamp, .response stamp (.word 2) ∈ t.outputs.drop s.outputs.length) ∧
    Performs .ack [] s { s with
      status := 0, outputs := s.outputs ++ [.response (s.now + Config.pioLatency) .done] } ∧
    ∀ high : U32, Performs (.writeSrcHigh high) [] s { s with
      srcAddr := (high ++ s.srcAddr.extractLsb' 0 32 : BitVec (32 + 32))
      outputs := s.outputs ++ [.response (s.now + Config.pioLatency) (.dword s.srcAddr),
        .response (s.now + Config.pioLatency) .done] }
end

