-- ==== Sys2Proof/Laws/Decode.lean ====
section
/-! SUPPORT. The descriptor word and its fields determine each other; what a mask of the opcode table tests; bounds of the
decoder's arithmetic. -/

namespace Sys2Proof

theorem toNat_append_eq {n m : Nat} (x : BitVec n) (y : BitVec m) :
    (x ++ y).toNat = x.toNat * 2 ^ m + y.toNat := by
  rw [BitVec.toNat_append, ← Nat.shiftLeft_add_eq_or_of_lt y.isLt, Nat.shiftLeft_eq]

/-- The descriptor word as a number. -/
theorem wordOf_toNat (f : Fields) : (wordOf f).toNat =
    ((f.kind.toNat * 2 + f.dir.toNat) * 256 + f.width.toNat) * 4096 + f.offset.toNat := by
  unfold wordOf
  rw [toNat_append_eq, toNat_append_eq, toNat_append_eq]
  norm_num

/-- The fields of a descriptor word as numbers. -/
theorem fieldsOf_toNat (d : Word) :
    (fieldsOf d).kind.toNat = d.toNat / 2097152 % 8 ∧ (fieldsOf d).dir.toNat = d.toNat / 1048576 % 2 ∧
      (fieldsOf d).width.toNat = d.toNat / 4096 % 256 ∧ (fieldsOf d).offset.toNat = d.toNat % 4096 := by
  simp [fieldsOf, BitVec.extractLsb'_toNat, Nat.shiftRight_eq_div_pow]

theorem Fields.ext_toNat {f g : Fields} (hk : f.kind.toNat = g.kind.toNat) (hd : f.dir.toNat = g.dir.toNat)
    (hw : f.width.toNat = g.width.toNat) (ho : f.offset.toNat = g.offset.toNat) : f = g := by
  obtain ⟨k, d, w, o⟩ := f
  obtain ⟨k', d', w', o'⟩ := g
  simp only [Fields.mk.injEq]
  exact ⟨BitVec.eq_of_toNat_eq hk, BitVec.eq_of_toNat_eq hd, BitVec.eq_of_toNat_eq hw, BitVec.eq_of_toNat_eq ho⟩

@[simp] theorem fieldsOf_wordOf (f : Fields) : fieldsOf (wordOf f) = f := by
  obtain ⟨h1, h2, h3, h4⟩ := fieldsOf_toNat (wordOf f)
  rw [wordOf_toNat] at h1 h2 h3 h4
  have := f.kind.isLt
  have := f.dir.isLt
  have := f.width.isLt
  have := f.offset.isLt
  exact Fields.ext_toNat (by omega) (by omega) (by omega) (by omega)

@[simp] theorem wordOf_fieldsOf (d : Word) : wordOf (fieldsOf d) = d := by
  obtain ⟨h1, h2, h3, h4⟩ := fieldsOf_toNat d
  refine BitVec.eq_of_toNat_eq ?_
  rw [wordOf_toNat, h1, h2, h3, h4]
  have := d.isLt
  omega

/-- Masking a word masks each field. -/
theorem wordOf_and (f g : Fields) :
    wordOf f &&& wordOf g = wordOf ⟨f.kind &&& g.kind, f.dir &&& g.dir, f.width &&& g.width, f.offset &&& g.offset⟩ := by
  simp only [wordOf]
  rw [← BitVec.and_append, ← BitVec.and_append, ← BitVec.and_append]

theorem wordOf_inj {f g : Fields} : wordOf f = wordOf g ↔ f = g :=
  ⟨fun h => by rw [← fieldsOf_wordOf f, h, fieldsOf_wordOf], fun h => h ▸ rfl⟩

/-- A word equals a pattern under a mask exactly when its masked fields are the pattern's. -/
theorem and_eq_iff (d m p : Word) : (d &&& m = p) ↔
    (fieldsOf d).kind &&& (fieldsOf m).kind = (fieldsOf p).kind ∧
      (fieldsOf d).dir &&& (fieldsOf m).dir = (fieldsOf p).dir ∧
      (fieldsOf d).width &&& (fieldsOf m).width = (fieldsOf p).width ∧
      (fieldsOf d).offset &&& (fieldsOf m).offset = (fieldsOf p).offset := by
  conv_lhs => rw [← wordOf_fieldsOf d, ← wordOf_fieldsOf m, ← wordOf_fieldsOf p, wordOf_and, wordOf_inj]
  rw [Fields.mk.injEq]

/-- The mask 0xFFFFFF: the exact hits. -/
theorem exact_mask (d p : Word) : (d &&& 0xFFFFFF#24 = p) ↔ d = p := by
  have : (0xFFFFFF#24 : Word) = BitVec.allOnes 24 := by decide
  rw [this, BitVec.and_allOnes]

theorem and_zero_eq {n : Nat} {x y : BitVec n} : x &&& 0#n = y ↔ y = 0#n := by
  rw [BitVec.and_zero, eq_comm]

/-- The mask 0xE00FFF: kind and offset. -/
theorem kind_offset_mask (d p : Word) : (d &&& 0xE00FFF#24 = p) ↔
    (fieldsOf d).kind = (fieldsOf p).kind ∧ (fieldsOf p).dir = 0#1 ∧ (fieldsOf p).width = 0#8 ∧
      (fieldsOf d).offset = (fieldsOf p).offset := by
  have hm : fieldsOf 0xE00FFF#24 = ⟨BitVec.allOnes 3, 0#1, 0#8, BitVec.allOnes 12⟩ := by decide
  rw [and_eq_iff, hm, BitVec.and_allOnes, BitVec.and_allOnes, and_zero_eq, and_zero_eq]

/-- The mask 0xE00000: kind alone. -/
theorem kind_mask (d p : Word) : (d &&& 0xE00000#24 = p) ↔
    (fieldsOf d).kind = (fieldsOf p).kind ∧ (fieldsOf p).dir = 0#1 ∧ (fieldsOf p).width = 0#8 ∧
      (fieldsOf p).offset = 0#12 := by
  have hm : fieldsOf 0xE00000#24 = ⟨BitVec.allOnes 3, 0#1, 0#8, 0#12⟩ := by decide
  rw [and_eq_iff, hm, BitVec.and_allOnes, and_zero_eq, and_zero_eq, and_zero_eq]

/-- The mask 0xF00000: kind and direction. -/
theorem kind_dir_mask (d p : Word) : (d &&& 0xF00000#24 = p) ↔
    (fieldsOf d).kind = (fieldsOf p).kind ∧ (fieldsOf d).dir = (fieldsOf p).dir ∧ (fieldsOf p).width = 0#8 ∧
      (fieldsOf p).offset = 0#12 := by
  have hm : fieldsOf 0xF00000#24 = ⟨BitVec.allOnes 3, BitVec.allOnes 1, 0#8, 0#12⟩ := by decide
  rw [and_eq_iff, hm, BitVec.and_allOnes, BitVec.and_allOnes, and_zero_eq, and_zero_eq]

theorem inWindow_iff {o w : Nat} : inWindow o w = true ↔ o < 4096 ∧ o + w ≤ 4096 := by
  unfold inWindow Config.windowSize
  rw [Bool.and_eq_true, decide_eq_true_iff, decide_eq_true_iff]

theorem isRegOffset_iff {o : Nat} :
    isRegOffset o = true ↔ o = 0x00 ∨ o = 0x04 ∨ o = 0x08 ∨ o = 0x0C ∨ o = 0x10 := by
  simp [isRegOffset, or_assoc]

theorem Access.fits_trunc (w : Nat) (a : Access) : (a.trunc w).fits w = true := by
  cases a with
  | read => rfl
  | write v => simpa [Access.trunc, Access.fits] using Nat.mod_lt v (Nat.pow_pos (by decide))

theorem Access.trunc_of_fits {w : Nat} {a : Access} (h : a.fits w = true) : a.trunc w = a := by
  cases a with
  | read => rfl
  | write v =>
    simp only [Access.fits, decide_eq_true_eq] at h
    simp [Access.trunc, Nat.mod_eq_of_lt h]

/-- A payload stands for the integer it was made from, cut to its bytes (20_memory.md R65). -/
theorem valueOfPayload_payloadOfValue (n v : Nat) : valueOfPayload (payloadOfValue n v) = v % 2 ^ (8 * n) := by
  induction n generalizing v with
  | zero => simp [payloadOfValue, valueOfPayload, Nat.mod_one]
  | succ n ih =>
    simp only [payloadOfValue, valueOfPayload, ih, BitVec.toNat_ofNat]
    rw [show 8 * (n + 1) = 8 + 8 * n by ring, Nat.pow_add, Nat.mod_mul]

/-- Every payload stands for an integer of its bytes (20_memory.md R65). -/
theorem valueOfPayload_lt (bytes : List Byte) : valueOfPayload bytes < 2 ^ (8 * bytes.length) := by
  induction bytes with
  | nil => simp [valueOfPayload]
  | cons b rest ih =>
    have hb := b.isLt
    simp only [valueOfPayload, List.length_cons]
    rw [show 8 * (rest.length + 1) = 8 + 8 * rest.length by ring, Nat.pow_add]
    nlinarith [Nat.pow_pos (n := 8 * rest.length) (show 0 < 2 by decide)]

end Sys2Proof
end

