-- ==== Sys2Proof/Laws/State.lean ====
section
/-! SUPPORT. One lemma per field per shared update of State, so that no later proof unfolds a record update. -/

namespace Sys2Proof.Machine

/-! ## `raise` -/

@[simp] theorem raise_srcAddr (s : State) (f : Fatal) : (raise s f).srcAddr = s.srcAddr := rfl
@[simp] theorem raise_dstAddr (s : State) (f : Fatal) : (raise s f).dstAddr = s.dstAddr := rfl
@[simp] theorem raise_size (s : State) (f : Fatal) : (raise s f).size = s.size := rfl
@[simp] theorem raise_command (s : State) (f : Fatal) : (raise s f).command = s.command := rfl
@[simp] theorem raise_status (s : State) (f : Fatal) : (raise s f).status = s.status := rfl
@[simp] theorem raise_phase (s : State) (f : Fatal) : (raise s f).phase = s.phase := rfl
@[simp] theorem raise_accessed (s : State) (f : Fatal) : (raise s f).accessed = s.accessed := rfl
@[simp] theorem raise_stg (s : State) (f : Fatal) : (raise s f).stg = s.stg := rfl
@[simp] theorem raise_queue (s : State) (f : Fatal) : (raise s f).queue = s.queue := rfl
@[simp] theorem raise_retry (s : State) (f : Fatal) : (raise s f).retry = s.retry := rfl
@[simp] theorem raise_drainAt (s : State) (f : Fatal) : (raise s f).drainAt = s.drainAt := rfl
@[simp] theorem raise_now (s : State) (f : Fatal) : (raise s f).now = s.now := rfl
@[simp] theorem raise_fault (s : State) (f : Fatal) : (raise s f).fault = some f := rfl
@[simp] theorem raise_log (s : State) (f : Fatal) : (raise s f).log = s.log := rfl
@[simp] theorem raise_mem (s : State) (f : Fatal) : (raise s f).mem = s.mem := rfl
@[simp] theorem raise_outputs (s : State) (f : Fatal) : (raise s f).outputs = s.outputs := rfl
@[simp] theorem raise_plat (s : State) (f : Fatal) : (raise s f).plat = s.plat := rfl
@[simp] theorem raise_pageTable (s : State) (f : Fatal) : (raise s f).pageTable = s.pageTable := rfl
@[simp] theorem raise_inbox (s : State) (f : Fatal) : (raise s f).inbox = s.inbox := rfl
@[simp] theorem raise_peerScript (s : State) (f : Fatal) : (raise s f).peerScript = s.peerScript := rfl
@[simp] theorem raise_backendScript (s : State) (f : Fatal) : (raise s f).backendScript = s.backendScript := rfl
@[simp] theorem raise_storage (s : State) (f : Fatal) : (raise s f).storage = s.storage := rfl
@[simp] theorem raise_draws (s : State) (f : Fatal) : (raise s f).draws = s.draws := rfl
@[simp] theorem raise_otherEngines (s : State) (f : Fatal) : (raise s f).otherEngines = s.otherEngines := rfl
@[simp] theorem raise_otherQueues (s : State) (f : Fatal) : (raise s f).otherQueues = s.otherQueues := rfl

/-! ## `warn` -/

@[simp] theorem warn_srcAddr (s : State) (w : Warning) : (warn s w).srcAddr = s.srcAddr := rfl
@[simp] theorem warn_dstAddr (s : State) (w : Warning) : (warn s w).dstAddr = s.dstAddr := rfl
@[simp] theorem warn_size (s : State) (w : Warning) : (warn s w).size = s.size := rfl
@[simp] theorem warn_command (s : State) (w : Warning) : (warn s w).command = s.command := rfl
@[simp] theorem warn_status (s : State) (w : Warning) : (warn s w).status = s.status := rfl
@[simp] theorem warn_phase (s : State) (w : Warning) : (warn s w).phase = s.phase := rfl
@[simp] theorem warn_accessed (s : State) (w : Warning) : (warn s w).accessed = s.accessed := rfl
@[simp] theorem warn_stg (s : State) (w : Warning) : (warn s w).stg = s.stg := rfl
@[simp] theorem warn_queue (s : State) (w : Warning) : (warn s w).queue = s.queue := rfl
@[simp] theorem warn_retry (s : State) (w : Warning) : (warn s w).retry = s.retry := rfl
@[simp] theorem warn_drainAt (s : State) (w : Warning) : (warn s w).drainAt = s.drainAt := rfl
@[simp] theorem warn_now (s : State) (w : Warning) : (warn s w).now = s.now := rfl
@[simp] theorem warn_fault (s : State) (w : Warning) : (warn s w).fault = s.fault := rfl
@[simp] theorem warn_log (s : State) (w : Warning) : (warn s w).log = s.log ++ [w] := rfl
@[simp] theorem warn_mem (s : State) (w : Warning) : (warn s w).mem = s.mem := rfl
@[simp] theorem warn_outputs (s : State) (w : Warning) : (warn s w).outputs = s.outputs := rfl
@[simp] theorem warn_plat (s : State) (w : Warning) : (warn s w).plat = s.plat := rfl
@[simp] theorem warn_pageTable (s : State) (w : Warning) : (warn s w).pageTable = s.pageTable := rfl
@[simp] theorem warn_inbox (s : State) (w : Warning) : (warn s w).inbox = s.inbox := rfl
@[simp] theorem warn_peerScript (s : State) (w : Warning) : (warn s w).peerScript = s.peerScript := rfl
@[simp] theorem warn_backendScript (s : State) (w : Warning) : (warn s w).backendScript = s.backendScript := rfl
@[simp] theorem warn_storage (s : State) (w : Warning) : (warn s w).storage = s.storage := rfl
@[simp] theorem warn_draws (s : State) (w : Warning) : (warn s w).draws = s.draws := rfl
@[simp] theorem warn_otherEngines (s : State) (w : Warning) : (warn s w).otherEngines = s.otherEngines := rfl
@[simp] theorem warn_otherQueues (s : State) (w : Warning) : (warn s w).otherQueues = s.otherQueues := rfl

/-! ## `emit` -/

@[simp] theorem emit_srcAddr (s : State) (o : Output) : (emit s o).srcAddr = s.srcAddr := rfl
@[simp] theorem emit_dstAddr (s : State) (o : Output) : (emit s o).dstAddr = s.dstAddr := rfl
@[simp] theorem emit_size (s : State) (o : Output) : (emit s o).size = s.size := rfl
@[simp] theorem emit_command (s : State) (o : Output) : (emit s o).command = s.command := rfl
@[simp] theorem emit_status (s : State) (o : Output) : (emit s o).status = s.status := rfl
@[simp] theorem emit_phase (s : State) (o : Output) : (emit s o).phase = s.phase := rfl
@[simp] theorem emit_accessed (s : State) (o : Output) : (emit s o).accessed = s.accessed := rfl
@[simp] theorem emit_stg (s : State) (o : Output) : (emit s o).stg = s.stg := rfl
@[simp] theorem emit_queue (s : State) (o : Output) : (emit s o).queue = s.queue := rfl
@[simp] theorem emit_retry (s : State) (o : Output) : (emit s o).retry = s.retry := rfl
@[simp] theorem emit_drainAt (s : State) (o : Output) : (emit s o).drainAt = s.drainAt := rfl
@[simp] theorem emit_now (s : State) (o : Output) : (emit s o).now = s.now := rfl
@[simp] theorem emit_fault (s : State) (o : Output) : (emit s o).fault = s.fault := rfl
@[simp] theorem emit_log (s : State) (o : Output) : (emit s o).log = s.log := rfl
@[simp] theorem emit_mem (s : State) (o : Output) : (emit s o).mem = s.mem := rfl
@[simp] theorem emit_outputs (s : State) (o : Output) : (emit s o).outputs = s.outputs ++ [o] := rfl
@[simp] theorem emit_plat (s : State) (o : Output) : (emit s o).plat = s.plat := rfl
@[simp] theorem emit_pageTable (s : State) (o : Output) : (emit s o).pageTable = s.pageTable := rfl
@[simp] theorem emit_inbox (s : State) (o : Output) : (emit s o).inbox = s.inbox := rfl
@[simp] theorem emit_peerScript (s : State) (o : Output) : (emit s o).peerScript = s.peerScript := rfl
@[simp] theorem emit_backendScript (s : State) (o : Output) : (emit s o).backendScript = s.backendScript := rfl
@[simp] theorem emit_storage (s : State) (o : Output) : (emit s o).storage = s.storage := rfl
@[simp] theorem emit_draws (s : State) (o : Output) : (emit s o).draws = s.draws := rfl
@[simp] theorem emit_otherEngines (s : State) (o : Output) : (emit s o).otherEngines = s.otherEngines := rfl
@[simp] theorem emit_otherQueues (s : State) (o : Output) : (emit s o).otherQueues = s.otherQueues := rfl

/-! ## `respond` -/

@[simp] theorem respond_srcAddr (s : State) (r : Reply) : (respond s r).srcAddr = s.srcAddr := rfl
@[simp] theorem respond_dstAddr (s : State) (r : Reply) : (respond s r).dstAddr = s.dstAddr := rfl
@[simp] theorem respond_size (s : State) (r : Reply) : (respond s r).size = s.size := rfl
@[simp] theorem respond_command (s : State) (r : Reply) : (respond s r).command = s.command := rfl
@[simp] theorem respond_status (s : State) (r : Reply) : (respond s r).status = s.status := rfl
@[simp] theorem respond_phase (s : State) (r : Reply) : (respond s r).phase = s.phase := rfl
@[simp] theorem respond_accessed (s : State) (r : Reply) : (respond s r).accessed = s.accessed := rfl
@[simp] theorem respond_stg (s : State) (r : Reply) : (respond s r).stg = s.stg := rfl
@[simp] theorem respond_queue (s : State) (r : Reply) : (respond s r).queue = s.queue := rfl
@[simp] theorem respond_retry (s : State) (r : Reply) : (respond s r).retry = s.retry := rfl
@[simp] theorem respond_drainAt (s : State) (r : Reply) : (respond s r).drainAt = s.drainAt := rfl
@[simp] theorem respond_now (s : State) (r : Reply) : (respond s r).now = s.now := rfl
@[simp] theorem respond_fault (s : State) (r : Reply) : (respond s r).fault = s.fault := rfl
@[simp] theorem respond_log (s : State) (r : Reply) : (respond s r).log = s.log := rfl
@[simp] theorem respond_mem (s : State) (r : Reply) : (respond s r).mem = s.mem := rfl
@[simp] theorem respond_outputs (s : State) (r : Reply) :
    (respond s r).outputs = s.outputs ++ [.response (s.now + Config.pioLatency) r] := rfl
@[simp] theorem respond_plat (s : State) (r : Reply) : (respond s r).plat = s.plat := rfl
@[simp] theorem respond_pageTable (s : State) (r : Reply) : (respond s r).pageTable = s.pageTable := rfl
@[simp] theorem respond_inbox (s : State) (r : Reply) : (respond s r).inbox = s.inbox := rfl
@[simp] theorem respond_peerScript (s : State) (r : Reply) : (respond s r).peerScript = s.peerScript := rfl
@[simp] theorem respond_backendScript (s : State) (r : Reply) : (respond s r).backendScript = s.backendScript := rfl
@[simp] theorem respond_storage (s : State) (r : Reply) : (respond s r).storage = s.storage := rfl
@[simp] theorem respond_draws (s : State) (r : Reply) : (respond s r).draws = s.draws := rfl
@[simp] theorem respond_otherEngines (s : State) (r : Reply) : (respond s r).otherEngines = s.otherEngines := rfl
@[simp] theorem respond_otherQueues (s : State) (r : Reply) : (respond s r).otherQueues = s.otherQueues := rfl

/-! ## `readByte` -/

@[simp] theorem readByte_srcAddr (s : State) (i pa : Nat) : (readByte s i pa).srcAddr = s.srcAddr := rfl
@[simp] theorem readByte_dstAddr (s : State) (i pa : Nat) : (readByte s i pa).dstAddr = s.dstAddr := rfl
@[simp] theorem readByte_size (s : State) (i pa : Nat) : (readByte s i pa).size = s.size := rfl
@[simp] theorem readByte_command (s : State) (i pa : Nat) : (readByte s i pa).command = s.command := rfl
@[simp] theorem readByte_status (s : State) (i pa : Nat) : (readByte s i pa).status = s.status := rfl
@[simp] theorem readByte_phase (s : State) (i pa : Nat) : (readByte s i pa).phase = s.phase := rfl
@[simp] theorem readByte_accessed (s : State) (i pa : Nat) :
    (readByte s i pa).accessed = insertIndex i s.accessed := rfl
@[simp] theorem readByte_stg (s : State) (i pa : Nat) :
    (readByte s i pa).stg = stgWrite s.stg i (memRead s.mem pa) := rfl
@[simp] theorem readByte_queue (s : State) (i pa : Nat) : (readByte s i pa).queue = s.queue := rfl
@[simp] theorem readByte_retry (s : State) (i pa : Nat) : (readByte s i pa).retry = s.retry := rfl
@[simp] theorem readByte_drainAt (s : State) (i pa : Nat) : (readByte s i pa).drainAt = s.drainAt := rfl
@[simp] theorem readByte_now (s : State) (i pa : Nat) : (readByte s i pa).now = s.now := rfl
@[simp] theorem readByte_fault (s : State) (i pa : Nat) : (readByte s i pa).fault = s.fault := rfl
@[simp] theorem readByte_log (s : State) (i pa : Nat) : (readByte s i pa).log = s.log := rfl
@[simp] theorem readByte_mem (s : State) (i pa : Nat) : (readByte s i pa).mem = s.mem := rfl
@[simp] theorem readByte_outputs (s : State) (i pa : Nat) : (readByte s i pa).outputs = s.outputs := rfl
@[simp] theorem readByte_plat (s : State) (i pa : Nat) : (readByte s i pa).plat = s.plat := rfl
@[simp] theorem readByte_pageTable (s : State) (i pa : Nat) : (readByte s i pa).pageTable = s.pageTable := rfl
@[simp] theorem readByte_inbox (s : State) (i pa : Nat) : (readByte s i pa).inbox = s.inbox := rfl
@[simp] theorem readByte_peerScript (s : State) (i pa : Nat) : (readByte s i pa).peerScript = s.peerScript := rfl
@[simp] theorem readByte_backendScript (s : State) (i pa : Nat) : (readByte s i pa).backendScript = s.backendScript := rfl
@[simp] theorem readByte_storage (s : State) (i pa : Nat) : (readByte s i pa).storage = s.storage := rfl
@[simp] theorem readByte_draws (s : State) (i pa : Nat) : (readByte s i pa).draws = s.draws := rfl
@[simp] theorem readByte_otherEngines (s : State) (i pa : Nat) : (readByte s i pa).otherEngines = s.otherEngines := rfl
@[simp] theorem readByte_otherQueues (s : State) (i pa : Nat) : (readByte s i pa).otherQueues = s.otherQueues := rfl

/-! ## `writeByte` -/

@[simp] theorem writeByte_srcAddr (s : State) (i pa : Nat) : (writeByte s i pa).srcAddr = s.srcAddr := rfl
@[simp] theorem writeByte_dstAddr (s : State) (i pa : Nat) : (writeByte s i pa).dstAddr = s.dstAddr := rfl
@[simp] theorem writeByte_size (s : State) (i pa : Nat) : (writeByte s i pa).size = s.size := rfl
@[simp] theorem writeByte_command (s : State) (i pa : Nat) : (writeByte s i pa).command = s.command := rfl
@[simp] theorem writeByte_status (s : State) (i pa : Nat) : (writeByte s i pa).status = s.status := rfl
@[simp] theorem writeByte_phase (s : State) (i pa : Nat) : (writeByte s i pa).phase = s.phase := rfl
@[simp] theorem writeByte_accessed (s : State) (i pa : Nat) :
    (writeByte s i pa).accessed = insertIndex i s.accessed := rfl
@[simp] theorem writeByte_stg (s : State) (i pa : Nat) : (writeByte s i pa).stg = s.stg := rfl
@[simp] theorem writeByte_queue (s : State) (i pa : Nat) : (writeByte s i pa).queue = s.queue := rfl
@[simp] theorem writeByte_retry (s : State) (i pa : Nat) : (writeByte s i pa).retry = s.retry := rfl
@[simp] theorem writeByte_drainAt (s : State) (i pa : Nat) : (writeByte s i pa).drainAt = s.drainAt := rfl
@[simp] theorem writeByte_now (s : State) (i pa : Nat) : (writeByte s i pa).now = s.now := rfl
@[simp] theorem writeByte_fault (s : State) (i pa : Nat) : (writeByte s i pa).fault = s.fault := rfl
@[simp] theorem writeByte_log (s : State) (i pa : Nat) : (writeByte s i pa).log = s.log := rfl
@[simp] theorem writeByte_mem (s : State) (i pa : Nat) :
    (writeByte s i pa).mem = memWrite s.mem pa (stgRead s.stg i) := rfl
@[simp] theorem writeByte_outputs (s : State) (i pa : Nat) : (writeByte s i pa).outputs = s.outputs := rfl
@[simp] theorem writeByte_plat (s : State) (i pa : Nat) : (writeByte s i pa).plat = s.plat := rfl
@[simp] theorem writeByte_pageTable (s : State) (i pa : Nat) : (writeByte s i pa).pageTable = s.pageTable := rfl
@[simp] theorem writeByte_inbox (s : State) (i pa : Nat) : (writeByte s i pa).inbox = s.inbox := rfl
@[simp] theorem writeByte_peerScript (s : State) (i pa : Nat) : (writeByte s i pa).peerScript = s.peerScript := rfl
@[simp] theorem writeByte_backendScript (s : State) (i pa : Nat) : (writeByte s i pa).backendScript = s.backendScript := rfl
@[simp] theorem writeByte_storage (s : State) (i pa : Nat) : (writeByte s i pa).storage = s.storage := rfl
@[simp] theorem writeByte_draws (s : State) (i pa : Nat) : (writeByte s i pa).draws = s.draws := rfl
@[simp] theorem writeByte_otherEngines (s : State) (i pa : Nat) : (writeByte s i pa).otherEngines = s.otherEngines := rfl
@[simp] theorem writeByte_otherQueues (s : State) (i pa : Nat) : (writeByte s i pa).otherQueues = s.otherQueues := rfl

/-! ## `afterPeerAnswer`: only its script and the draw counter change -/

@[simp] theorem afterPeerAnswer_srcAddr (s : State) : (afterPeerAnswer s).srcAddr = s.srcAddr := by
  unfold afterPeerAnswer; split <;> rfl
@[simp] theorem afterPeerAnswer_dstAddr (s : State) : (afterPeerAnswer s).dstAddr = s.dstAddr := by
  unfold afterPeerAnswer; split <;> rfl
@[simp] theorem afterPeerAnswer_size (s : State) : (afterPeerAnswer s).size = s.size := by
  unfold afterPeerAnswer; split <;> rfl
@[simp] theorem afterPeerAnswer_command (s : State) : (afterPeerAnswer s).command = s.command := by
  unfold afterPeerAnswer; split <;> rfl
@[simp] theorem afterPeerAnswer_status (s : State) : (afterPeerAnswer s).status = s.status := by
  unfold afterPeerAnswer; split <;> rfl
@[simp] theorem afterPeerAnswer_phase (s : State) : (afterPeerAnswer s).phase = s.phase := by
  unfold afterPeerAnswer; split <;> rfl
@[simp] theorem afterPeerAnswer_accessed (s : State) : (afterPeerAnswer s).accessed = s.accessed := by
  unfold afterPeerAnswer; split <;> rfl
@[simp] theorem afterPeerAnswer_stg (s : State) : (afterPeerAnswer s).stg = s.stg := by
  unfold afterPeerAnswer; split <;> rfl
@[simp] theorem afterPeerAnswer_queue (s : State) : (afterPeerAnswer s).queue = s.queue := by
  unfold afterPeerAnswer; split <;> rfl
@[simp] theorem afterPeerAnswer_retry (s : State) : (afterPeerAnswer s).retry = s.retry := by
  unfold afterPeerAnswer; split <;> rfl
@[simp] theorem afterPeerAnswer_drainAt (s : State) : (afterPeerAnswer s).drainAt = s.drainAt := by
  unfold afterPeerAnswer; split <;> rfl
@[simp] theorem afterPeerAnswer_now (s : State) : (afterPeerAnswer s).now = s.now := by
  unfold afterPeerAnswer; split <;> rfl
@[simp] theorem afterPeerAnswer_fault (s : State) : (afterPeerAnswer s).fault = s.fault := by
  unfold afterPeerAnswer; split <;> rfl
@[simp] theorem afterPeerAnswer_log (s : State) : (afterPeerAnswer s).log = s.log := by
  unfold afterPeerAnswer; split <;> rfl
@[simp] theorem afterPeerAnswer_mem (s : State) : (afterPeerAnswer s).mem = s.mem := by
  unfold afterPeerAnswer; split <;> rfl
@[simp] theorem afterPeerAnswer_outputs (s : State) : (afterPeerAnswer s).outputs = s.outputs := by
  unfold afterPeerAnswer; split <;> rfl
@[simp] theorem afterPeerAnswer_plat (s : State) : (afterPeerAnswer s).plat = s.plat := by
  unfold afterPeerAnswer; split <;> rfl
@[simp] theorem afterPeerAnswer_pageTable (s : State) : (afterPeerAnswer s).pageTable = s.pageTable := by
  unfold afterPeerAnswer; split <;> rfl
@[simp] theorem afterPeerAnswer_inbox (s : State) : (afterPeerAnswer s).inbox = s.inbox := by
  unfold afterPeerAnswer; split <;> rfl
@[simp] theorem afterPeerAnswer_backendScript (s : State) : (afterPeerAnswer s).backendScript = s.backendScript := by
  unfold afterPeerAnswer; split <;> rfl
@[simp] theorem afterPeerAnswer_storage (s : State) : (afterPeerAnswer s).storage = s.storage := by
  unfold afterPeerAnswer; split <;> rfl
@[simp] theorem afterPeerAnswer_otherEngines (s : State) : (afterPeerAnswer s).otherEngines = s.otherEngines := by
  unfold afterPeerAnswer; split <;> rfl
@[simp] theorem afterPeerAnswer_otherQueues (s : State) : (afterPeerAnswer s).otherQueues = s.otherQueues := by
  unfold afterPeerAnswer; split <;> rfl

/-! ## `afterService`: only its script, its storage and the draw counter change -/

@[simp] theorem afterService_srcAddr (s : State) (p : Packet) : (afterService s p).srcAddr = s.srcAddr := rfl
@[simp] theorem afterService_dstAddr (s : State) (p : Packet) : (afterService s p).dstAddr = s.dstAddr := rfl
@[simp] theorem afterService_size (s : State) (p : Packet) : (afterService s p).size = s.size := rfl
@[simp] theorem afterService_command (s : State) (p : Packet) : (afterService s p).command = s.command := rfl
@[simp] theorem afterService_status (s : State) (p : Packet) : (afterService s p).status = s.status := rfl
@[simp] theorem afterService_phase (s : State) (p : Packet) : (afterService s p).phase = s.phase := rfl
@[simp] theorem afterService_accessed (s : State) (p : Packet) : (afterService s p).accessed = s.accessed := rfl
@[simp] theorem afterService_stg (s : State) (p : Packet) : (afterService s p).stg = s.stg := rfl
@[simp] theorem afterService_queue (s : State) (p : Packet) : (afterService s p).queue = s.queue := rfl
@[simp] theorem afterService_retry (s : State) (p : Packet) : (afterService s p).retry = s.retry := rfl
@[simp] theorem afterService_drainAt (s : State) (p : Packet) : (afterService s p).drainAt = s.drainAt := rfl
@[simp] theorem afterService_now (s : State) (p : Packet) : (afterService s p).now = s.now := rfl
@[simp] theorem afterService_fault (s : State) (p : Packet) : (afterService s p).fault = s.fault := rfl
@[simp] theorem afterService_log (s : State) (p : Packet) : (afterService s p).log = s.log := rfl
@[simp] theorem afterService_mem (s : State) (p : Packet) : (afterService s p).mem = s.mem := rfl
@[simp] theorem afterService_outputs (s : State) (p : Packet) : (afterService s p).outputs = s.outputs := rfl
@[simp] theorem afterService_plat (s : State) (p : Packet) : (afterService s p).plat = s.plat := rfl
@[simp] theorem afterService_pageTable (s : State) (p : Packet) : (afterService s p).pageTable = s.pageTable := rfl
@[simp] theorem afterService_inbox (s : State) (p : Packet) : (afterService s p).inbox = s.inbox := rfl
@[simp] theorem afterService_peerScript (s : State) (p : Packet) : (afterService s p).peerScript = s.peerScript := rfl
@[simp] theorem afterService_otherEngines (s : State) (p : Packet) : (afterService s p).otherEngines = s.otherEngines := rfl
@[simp] theorem afterService_otherQueues (s : State) (p : Packet) : (afterService s p).otherQueues = s.otherQueues := rfl
@[simp] theorem afterService_storage (s : State) (p : Packet) :
    (afterService s p).storage = (serviceAnswer s p).storage := rfl

end Sys2Proof.Machine
end

