-- ==== Sys2Proof/Laws/Memory.lean ====
section
/-! SUPPORT. Reading after writing, and the canonical forms, of physical memory, the staging buffer and the set of bytes
already accessed. -/

namespace Sys2Proof.Machine

/-! ## Physical memory -/

theorem memRead_memPush (a : Nat) (b : Byte) (m : Memory) (x : Nat) (h : memRead m a = memDefault) :
    memRead (memPush a b m) x = if x = a then b else memRead m x := by
  unfold memPush
  by_cases hb : b = memDefault
  · by_cases hx : x = a
    · simp [hb, hx, h]
    · simp [hb, hx]
  · by_cases hx : x = a
    · simp [hb, hx, memRead]
    · have : a ≠ x := fun e => hx e.symm
      simp [hb, hx, memRead, this]

theorem memRead_of_all_gt (m : Memory) (a : Nat) (h : ∀ c ∈ m, a < c.1) : memRead m a = memDefault := by
  induction m with
  | nil => rfl
  | cons c rest ih =>
    obtain ⟨k, b⟩ := c
    have hk : a < k := h (k, b) (by simp)
    have : k ≠ a := by omega
    simp only [memRead, if_neg this]
    exact ih fun c hc => h c (by simp [hc])

theorem Memory.wf_cons (k : Nat) (b : Byte) (rest : Memory) :
    Memory.wf ((k, b) :: rest) = true ↔
      b ≠ memDefault ∧ (∀ c ∈ rest, k < c.1) ∧ Memory.wf rest = true := by
  simp [Memory.wf, and_assoc]

/-- Reading after a write, at every address. -/
theorem memRead_memWrite (m : Memory) (hm : m.wf = true) (a : Nat) (b : Byte) (x : Nat) :
    memRead (memWrite m a b) x = if x = a then b else memRead m x := by
  induction m with
  | nil => exact memRead_memPush a b [] x rfl
  | cons c rest ih =>
    obtain ⟨k, d⟩ := c
    obtain ⟨-, hgt, hr⟩ := (Memory.wf_cons k d rest).1 hm
    simp only [memWrite]
    by_cases h1 : a < k
    · rw [if_pos h1]
      refine memRead_memPush a b _ x (memRead_of_all_gt _ _ ?_)
      intro c hc
      rcases List.mem_cons.1 hc with rfl | hc
      · exact h1
      · exact lt_trans h1 (hgt c hc)
    · rw [if_neg h1]
      by_cases h2 : a = k
      · subst h2
        rw [if_pos rfl, memRead_memPush a b rest x (memRead_of_all_gt _ _ hgt)]
        by_cases hx : x = a
        · simp [hx]
        · have : a ≠ x := fun e => hx e.symm
          simp [hx, memRead, this]
      · rw [if_neg h2]
        simp only [memRead]
        by_cases hx : k = x
        · have : x ≠ a := by omega
          simp [hx, this]
        · simp only [if_neg hx]
          exact ih hr

theorem mem_memPush {a : Nat} {b : Byte} {m : Memory} {c : Host.Cell} (h : c ∈ memPush a b m) :
    c = (a, b) ∨ c ∈ m := by
  unfold memPush at h
  split at h
  · exact .inr h
  · simpa using h

theorem mem_memWrite {m : Memory} {a : Nat} {b : Byte} {c : Host.Cell} (h : c ∈ memWrite m a b) :
    c.1 = a ∨ c ∈ m := by
  induction m with
  | nil =>
    rcases mem_memPush h with rfl | h
    · exact .inl rfl
    · exact .inr h
  | cons d rest ih =>
    obtain ⟨k, d⟩ := d
    simp only [memWrite] at h
    split at h
    · rcases mem_memPush h with rfl | h
      · exact .inl rfl
      · exact .inr h
    · split at h
      · rcases mem_memPush h with rfl | h
        · exact .inl rfl
        · exact .inr (by simp [h])
      · rcases List.mem_cons.1 h with rfl | h
        · exact .inr (by simp)
        · rcases ih h with h | h
          · exact .inl h
          · exact .inr (by simp [h])

theorem memPush_wf {a : Nat} {b : Byte} {m : Memory} (hm : m.wf = true) (h : ∀ c ∈ m, a < c.1) :
    (memPush a b m).wf = true := by
  unfold memPush
  split
  · exact hm
  · next hb => exact (Memory.wf_cons a b m).2 ⟨hb, h, hm⟩

/-- Every write keeps the canonical form. -/
theorem memWrite_wf {m : Memory} (hm : m.wf = true) (a : Nat) (b : Byte) : (memWrite m a b).wf = true := by
  induction m with
  | nil => exact memPush_wf rfl (by simp)
  | cons c rest ih =>
    obtain ⟨k, d⟩ := c
    obtain ⟨hd, hgt, hr⟩ := (Memory.wf_cons k d rest).1 hm
    simp only [memWrite]
    split
    · next h1 =>
      refine memPush_wf hm ?_
      intro c hc
      rcases List.mem_cons.1 hc with rfl | hc
      · exact h1
      · exact lt_trans h1 (hgt c hc)
    · split
      · next h2 => exact memPush_wf hr (h2 ▸ hgt)
      · refine (Memory.wf_cons k d _).2 ⟨hd, ?_, ih hr⟩
        intro c hc
        rcases mem_memWrite hc with h | h
        · omega
        · exact hgt c h

theorem memoryOf_wf (l : List Host.Cell) : (memoryOf l).wf = true := by
  induction l with
  | nil => rfl
  | cons c rest ih => exact memWrite_wf ih c.1 c.2

/-- Reading the memory a list describes: the first entry of an address counts. -/
theorem memRead_memoryOf_cons (a : Nat) (b : Byte) (rest : List Host.Cell) (x : Nat) :
    memRead (memoryOf ((a, b) :: rest)) x = if x = a then b else memRead (memoryOf rest) x :=
  memRead_memWrite _ (memoryOf_wf rest) a b x

/-! ## The staging buffer -/

theorem stgRead_of_all_gt (l : List (Nat × Byte)) (i : Nat) (h : ∀ c ∈ l, i < c.1) :
    stgRead l i = Config.stagingByte i := by
  induction l with
  | nil => rfl
  | cons c rest ih =>
    obtain ⟨k, b⟩ := c
    have hk : i < k := h (k, b) (by simp)
    have : k ≠ i := by omega
    simp only [stgRead, if_neg this]
    exact ih fun c hc => h c (by simp [hc])

/-- Reading after a write, at every index. -/
theorem stgRead_stgWrite (l : List (Nat × Byte)) (i : Nat) (b : Byte) (x : Nat) :
    stgRead (stgWrite l i b) x = if x = i then b else stgRead l x := by
  induction l with
  | nil =>
    by_cases hx : x = i
    · simp [stgWrite, stgRead, hx]
    · have : i ≠ x := fun e => hx e.symm
      simp [stgWrite, stgRead, hx, this]
  | cons c rest ih =>
    obtain ⟨k, d⟩ := c
    simp only [stgWrite]
    split
    · by_cases hx : x = i
      · simp [stgRead, hx]
      · have : i ≠ x := fun e => hx e.symm
        simp [stgRead, hx, this]
    · split
      · next h =>
        subst h
        by_cases hx : x = i
        · simp [stgRead, hx]
        · have : i ≠ x := fun e => hx e.symm
          simp [stgRead, hx, this]
      · next h1 h2 =>
        simp only [stgRead]
        by_cases hx : k = x
        · have : x ≠ i := by omega
          simp [hx, this]
        · simp only [if_neg hx, ih]

theorem mem_stgWrite {l : List (Nat × Byte)} {i : Nat} {b : Byte} {c : Nat × Byte} (h : c ∈ stgWrite l i b) :
    c = (i, b) ∨ c ∈ l := by
  induction l with
  | nil => simpa [stgWrite] using h
  | cons d rest ih =>
    obtain ⟨k, d⟩ := d
    simp only [stgWrite] at h
    split at h
    · simpa using h
    · split at h
      · rcases List.mem_cons.1 h with h | h
        · exact .inl h
        · exact .inr (by simp [h])
      · rcases List.mem_cons.1 h with h | h
        · exact .inr (by simp [h])
        · rcases ih h with h | h
          · exact .inl h
          · exact .inr (by simp [h])

theorem stgWf_cons (k : Nat) (b : Byte) (rest : List (Nat × Byte)) :
    stgWf ((k, b) :: rest) = true ↔
      k < Config.stagingCapacity ∧ (∀ c ∈ rest, k < c.1) ∧ stgWf rest = true := by
  simp [stgWf, and_assoc]

/-- A write below the capacity keeps the staging buffer's form. -/
theorem stgWrite_wf {l : List (Nat × Byte)} (hl : stgWf l = true) {i : Nat} (hi : i < Config.stagingCapacity)
    (b : Byte) : stgWf (stgWrite l i b) = true := by
  induction l with
  | nil => simp [stgWrite, stgWf, hi]
  | cons c rest ih =>
    obtain ⟨k, d⟩ := c
    obtain ⟨hk, hgt, hr⟩ := (stgWf_cons k d rest).1 hl
    simp only [stgWrite]
    split
    · next h1 =>
      refine (stgWf_cons i b _).2 ⟨hi, ?_, hl⟩
      intro c hc
      rcases List.mem_cons.1 hc with rfl | hc
      · exact h1
      · exact lt_trans h1 (hgt c hc)
    · split
      · next h2 => exact (stgWf_cons i b rest).2 ⟨hi, h2 ▸ hgt, hr⟩
      · refine (stgWf_cons k d _).2 ⟨hk, ?_, ih hr⟩
        intro c hc
        rcases mem_stgWrite hc with rfl | h
        · simp only
          omega
        · exact hgt c h

theorem stgOf_wf (l : List (Nat × Byte)) : stgWf (stgOf l) = true := by
  induction l with
  | nil => rfl
  | cons c rest ih =>
    obtain ⟨i, b⟩ := c
    simp only [stgOf]
    split
    · next h => exact stgWrite_wf ih h b
    · exact ih

/-! ## The set of accessed bytes -/

theorem mem_insertIndex {i x : Nat} {l : List Nat} : x ∈ insertIndex i l ↔ x = i ∨ x ∈ l := by
  induction l with
  | nil => simp [insertIndex]
  | cons k rest ih =>
    simp only [insertIndex]
    split
    · simp
    · split
      · next h => subst h; simp
      · simp only [List.mem_cons, ih]
        tauto

theorem length_insertIndex {i : Nat} {l : List Nat} (h : i ∉ l) : (insertIndex i l).length = l.length + 1 := by
  induction l with
  | nil => rfl
  | cons k rest ih =>
    simp only [List.mem_cons, not_or] at h
    simp only [insertIndex]
    split
    · rfl
    · simp [h.1, ih h.2]

theorem insertIndex_rising {i : Nat} {l : List Nat} (hl : l.Pairwise (· < ·)) :
    (insertIndex i l).Pairwise (· < ·) := by
  induction l with
  | nil => simp [insertIndex]
  | cons k rest ih =>
    obtain ⟨hk, hr⟩ := List.pairwise_cons.1 hl
    simp only [insertIndex]
    split
    · next h1 =>
      refine List.pairwise_cons.2 ⟨?_, hl⟩
      intro x hx
      rcases List.mem_cons.1 hx with rfl | hx
      · exact h1
      · exact lt_trans h1 (hk x hx)
    · split
      · exact hl
      · refine List.pairwise_cons.2 ⟨?_, ih hr⟩
        intro x hx
        rcases mem_insertIndex.1 hx with rfl | hx
        · omega
        · exact hk x hx

end Sys2Proof.Machine
end

