-- ==== Sys2Proof/Laws/Translate.lean ====
section
/-! SUPPORT. What the page walk answers: the segments give the page table's byte map, cover the range, and a walk that
fails names the lowest unmapped address. -/

namespace Sys2Proof.Machine

theorem pageSize_pos (p : Platform) : 0 < pageSize p := Nat.pow_pos (by decide)

theorem pageSize_dvd (p : Platform) : pageSize p ∣ 2 ^ 64 := by
  unfold pageSize
  exact Nat.pow_dvd_pow 2 (by have := p.pageBits.isLt; omega)

/-- Within a page the map is contiguous. -/
theorem ptMap_add {ps : Nat} {pt : PageTable} {v pa i : Nat} (hps : 0 < ps) (hdvd : ps ∣ 2 ^ 64)
    (h : ptMap ps pt v = some pa) (hi : v % ps + i < ps) : ptMap ps pt (v + i) = some (pa + i) := by
  unfold ptMap at h ⊢
  split at h
  · next hv =>
    split at h
    · next q hq =>
      obtain ⟨k, hk⟩ := hdvd
      have hdiv : (v + i) / ps = v / ps := by
        have := Nat.div_add_mod v ps
        rw [show v + i = (v % ps + i) + ps * (v / ps) by omega, Nat.add_mul_div_left _ _ hps,
          Nat.div_eq_of_lt hi, Nat.zero_add]
      have hmod : (v + i) % ps = v % ps + i := by
        have := Nat.div_add_mod v ps
        rw [show v + i = (v % ps + i) + ps * (v / ps) by omega, Nat.add_mul_mod_self_left,
          Nat.mod_eq_of_lt hi]
      have hlt : v + i < 2 ^ 64 := by
        have h1 : v / ps < k := by
          rw [Nat.div_lt_iff_lt_mul hps, Nat.mul_comm, ← hk]
          exact hv
        have h2 := Nat.div_add_mod v ps
        have h3 : ps * (v / ps) + ps ≤ 2 ^ 64 := by
          rw [hk, ← Nat.mul_succ]
          exact Nat.mul_le_mul_left _ h1
        omega
      rw [if_pos hlt, hdiv, hq, hmod]
      have : pa = q + v % ps := by simpa using h.symm
      simp [this, Nat.add_assoc]
    · cases h
  · cases h

/-- A walk that succeeds covers exactly `n` bytes and maps each as the page table does. -/
theorem walk_ok {ps : Nat} {pt : PageTable} (hps : 0 < ps) (hdvd : ps ∣ 2 ^ 64) :
    ∀ {fuel va n : Nat} {segs : Segs}, n ≤ fuel → walk ps pt fuel va n = .ok segs →
      (segs.map Prod.snd).sum = n ∧ ∀ i < n, segPa segs i = ptMap ps pt (va + i) := by
  intro fuel
  induction fuel with
  | zero =>
    intro va n segs hn h
    have : n = 0 := by omega
    subst this
    simp only [walk, Except.ok.injEq] at h
    subst h
    simp
  | succ fuel ih =>
    intro va n segs hn h
    simp only [walk] at h
    split at h
    · next h0 =>
      simp only [Except.ok.injEq] at h
      subst h h0
      simp
    · next h0 =>
      split at h
      · cases h
      · next pa hpa =>
        have hmod : va % ps < ps := Nat.mod_lt _ hps
        split at h
        · cases h
        · next rest hrest =>
          simp only [Except.ok.injEq] at h
          subst h
          obtain ⟨hs, hm⟩ := ih (by omega) hrest
          refine ⟨by simp only [List.map_cons, List.sum_cons, hs]; omega, ?_⟩
          intro i hi
          simp only [segPa]
          split
          · next hlt =>
            exact (ptMap_add hps hdvd hpa (by omega)).symm
          · next hge =>
            rw [hm _ (by omega)]
            congr 1
            omega

/-- A walk that fails names the lowest unmapped address of the range. -/
theorem walk_error {ps : Nat} {pt : PageTable} (hps : 0 < ps) (hdvd : ps ∣ 2 ^ 64) :
    ∀ {fuel va n v : Nat}, walk ps pt fuel va n = .error v →
      ∃ i < n, v = va + i ∧ ptMap ps pt v = none ∧ ∀ j < i, (ptMap ps pt (va + j)).isSome = true := by
  intro fuel
  induction fuel with
  | zero => intro va n v h; simp [walk] at h
  | succ fuel ih =>
    intro va n v h
    simp only [walk] at h
    split at h
    · cases h
    · next h0 =>
      split at h
      · next hnone =>
        simp only [Except.error.injEq] at h
        subst h
        exact ⟨0, by omega, rfl, hnone, by simp⟩
      · next pa hpa =>
        have hmod : va % ps < ps := Nat.mod_lt _ hps
        split at h
        · next v' hrest =>
          simp only [Except.error.injEq] at h
          subst h
          obtain ⟨i, hi, hv, hnone, hlow⟩ := ih hrest
          refine ⟨min n (ps - va % ps) + i, by omega, by omega, hnone, ?_⟩
          intro j hj
          by_cases hlt : j < min n (ps - va % ps)
          · rw [ptMap_add hps hdvd hpa (by omega)]
            rfl
          · have := hlow (j - min n (ps - va % ps)) (by omega)
            rwa [show va + min n (ps - va % ps) + (j - min n (ps - va % ps)) = va + j by omega] at this
        · cases h

/-- A range whose bytes are all mapped is walked without failing. -/
theorem walk_of_mapped {ps : Nat} {pt : PageTable} (hps : 0 < ps) (hdvd : ps ∣ 2 ^ 64) {fuel va n : Nat}
    (h : ∀ i < n, (ptMap ps pt (va + i)).isSome = true) : ∃ segs, walk ps pt fuel va n = .ok segs := by
  cases hw : walk ps pt fuel va n with
  | ok segs => exact ⟨segs, rfl⟩
  | error v =>
    obtain ⟨i, hi, rfl, hnone, -⟩ := walk_error hps hdvd hw
    have := h i hi
    rw [hnone] at this
    cases this

/-- TRANSLATE's answer, once: what a success and each failure mean. -/
theorem translation_cases {s : State} {va n : Nat} :
    (∀ segs, translation s va n = .ok segs →
      s.plat.mode = .processEmulation ∧ walkRange s va n = .ok segs ∧ (segs.map Prod.snd).sum = n ∧
        ∀ i < n, segPa segs i = ptMap (pageSize s.plat) s.pageTable (va + i)) ∧
    (∀ f, translation s va n = .error f →
      (s.plat.mode = .other ∧ f = .translationUnsupported) ∨
        (s.plat.mode = .processEmulation ∧
          ∃ i < n, f = .translationFault (va + i) ∧
            ptMap (pageSize s.plat) s.pageTable (va + i) = none ∧
            ∀ j < i, (ptMap (pageSize s.plat) s.pageTable (va + j)).isSome = true)) := by
  constructor
  · intro segs h
    unfold translation at h
    split at h
    · cases h
    · next hm =>
      split at h
      · cases h
      · next segs' hw =>
        simp only [Except.ok.injEq] at h
        subst h
        exact ⟨hm, hw, walk_ok (pageSize_pos _) (pageSize_dvd _) le_rfl hw⟩
  · intro f h
    unfold translation at h
    split at h
    · next hm =>
      simp only [Except.error.injEq] at h
      exact .inl ⟨hm, h.symm⟩
    · next hm =>
      split at h
      · next v hw =>
        simp only [Except.error.injEq] at h
        subst h
        obtain ⟨i, hi, rfl, hn, hl⟩ := walk_error (pageSize_pos _) (pageSize_dvd _) hw
        exact .inr ⟨hm, i, hi, rfl, hn, hl⟩
      · cases h

/-- Byte `i` of segments that cover more than `i` bytes has a physical address. -/
theorem segPa_isSome {segs : Segs} {i : Nat} (h : i < (segs.map Prod.snd).sum) : (segPa segs i).isSome = true := by
  induction segs generalizing i with
  | nil => simp at h
  | cons g rest ih =>
    obtain ⟨pa, len⟩ := g
    simp only [List.map_cons, List.sum_cons] at h
    simp only [segPa]
    split
    · rfl
    · exact ih (by omega)

/-- The segments of a walk are not empty. -/
theorem walk_pos {ps : Nat} {pt : PageTable} (hps : 0 < ps) :
    ∀ {fuel va n : Nat} {segs : Segs}, walk ps pt fuel va n = .ok segs → ∀ g ∈ segs, 0 < g.2 := by
  intro fuel
  induction fuel with
  | zero => intro va n segs h; simp [walk] at h; subst h; simp
  | succ k ih =>
    intro va n segs h
    simp only [walk] at h
    split at h
    · cases h; simp
    · split at h
      · cases h
      · split at h
        · cases h
        · next rest hr =>
          cases h
          intro g hg
          rcases List.mem_cons.1 hg with rfl | hg
          · simp only
            have := Nat.mod_lt va hps
            omega
          · exact ih hr g hg

/-- Every byte of a segment is a byte of the range. -/
theorem segPa_mem {segs : Segs} :
    ∀ g ∈ segs, ∀ k < g.2, ∃ i < (segs.map Prod.snd).sum, segPa segs i = some (g.1 + k) := by
  induction segs with
  | nil => simp
  | cons h rest ih =>
    obtain ⟨pa, len⟩ := h
    intro g hg k hk
    rcases List.mem_cons.1 hg with rfl | hg
    · exact ⟨k, by simp; omega, by simp [segPa, hk]⟩
    · obtain ⟨i, hi, h⟩ := ih g hg k hk
      exact ⟨len + i, by simp; omega, by simp [segPa, h]⟩

/-- Segments none of whose bytes lies in the window do not touch it. -/
theorem segsTouchWindow_eq_false {p : Platform} {segs : Segs} (hpos : ∀ g ∈ segs, 0 < g.2)
    (h : ∀ i < (segs.map Prod.snd).sum, ∀ pa, segPa segs i = some pa → inMmioWindow p pa = false) :
    segsTouchWindow p segs = false := by
  rw [segsTouchWindow, List.any_eq_false]
  intro g hg
  simp only [Bool.and_eq_true, decide_eq_true_eq, not_and, not_lt]
  intro h1
  by_contra h2
  have hz := hpos g hg
  have hsz : Config.windowSize = 4096 := rfl
  by_cases hb : p.base ≤ g.1
  · obtain ⟨i, hi, hs⟩ := segPa_mem g hg 0 hz
    have := h i hi _ hs
    simp [inMmioWindow] at this
    omega
  · obtain ⟨i, hi, hs⟩ := segPa_mem g hg (p.base - g.1) (by omega)
    have := h i hi _ hs
    simp [inMmioWindow] at this
    omega

end Sys2Proof.Machine
end

