-- ==== Sys2Proof/Laws/Outcome.lean ====
section
/-! SUPPORT. What each shared operation, each operation of the block and one step can do: if it answers a next state, then
which. Proofs cite these instead of unfolding a meaning. -/

namespace Sys2Proof.Machine

/-! ## Shared operations -/

theorem whenLive_of_live {s : State} (h : s.fault = none) (k : Result) : whenLive s k = k := by
  simp [whenLive, h]

theorem whenLive_of_fault {s : State} {f : Fatal} (h : s.fault = some f) (k : Result) :
    whenLive s k = .refused (.afterFatal f) := by
  simp [whenLive, h]

theorem whenLive_next {s t : State} {k : Result} : whenLive s k = .next t ↔ s.fault = none ∧ k = .next t := by
  unfold whenLive
  split
  · next f h => simp [h]
  · next h => simp [h]

theorem whenLive_next_state {s t u : State} : whenLive s (.next u) = .next t ↔ s.fault = none ∧ t = u := by
  rw [whenLive_next, Host.Outcome.next.injEq, eq_comm (a := u)]

theorem ite_next {c : Bool} {k : Result} {r : Refusal} {t : State} :
    (if c = true then .refused r else k) = (.next t : Result) ↔ c = false ∧ k = .next t := by
  cases c <;> simp

theorem respondIfLive_of_live {s : State} (h : s.fault = none) (r : Reply) : respondIfLive s r = respond s r := by
  simp [respondIfLive, h]

theorem respondIfLive_of_fault {s : State} {f : Fatal} (h : s.fault = some f) (r : Reply) :
    respondIfLive s r = s := by
  simp [respondIfLive, h]

/-! ## TRANSLATE -/

theorem translation_of_mapped {s : State} {va n : Nat} (hm : s.plat.mode = .processEmulation)
    (h : ∀ i < n, (ptMap (pageSize s.plat) s.pageTable (va + i)).isSome = true) :
    ∃ segs, translation s va n = .ok segs := by
  obtain ⟨segs, hs⟩ := walk_of_mapped (pageSize_pos _) (pageSize_dvd _) (fuel := n) h
  exact ⟨segs, by simp [translation, hm, walkRange, hs]⟩

theorem translation_of_lowest {s : State} {va : U64} {n v : Nat} (hm : s.plat.mode = .processEmulation)
    (h : LowestUnmapped s va n v) : translation s va.toNat n = .error (.translationFault v) := by
  obtain ⟨i, hi, rfl, hn, hl⟩ := h
  cases ht : translation s va.toNat n with
  | ok segs =>
    obtain ⟨-, -, hs, hc⟩ := translation_cases.1 segs ht
    have := segPa_isSome (segs := segs) (i := i) (by omega)
    rw [hc i hi, hn] at this
    cases this
  | error f =>
    rcases translation_cases.2 f ht with ⟨h1, -⟩ | ⟨-, j, hj, rfl, hn', hl'⟩
    · rw [hm] at h1
      cases h1
    · rcases Nat.lt_trichotomy i j with h | h | h
      · have := hl' i h
        rw [hn] at this
        cases this
      · rw [h]
      · have := hl j h
        rw [hn'] at this
        cases this

/-- A mapped range outside the window translates, and does not touch the window. -/
theorem translation_of_mappedOutside {s : State} {va : U64} {n : U32} (hm : s.plat.mode = .processEmulation)
    (h : MappedOutside s va n) : ∃ segs, translation s va.toNat n.toNat = .ok segs ∧
      SegmentsFor s va n.toNat segs ∧ segsTouchWindow s.plat segs = false := by
  obtain ⟨segs, hs⟩ := translation_of_mapped (s := s) (va := va.toNat) (n := n.toNat) hm (fun i hi => by
    obtain ⟨pa, h1, -⟩ := h i hi
    rw [h1]
    rfl)
  obtain ⟨-, hw, hsum, hc⟩ := translation_cases.1 segs hs
  refine ⟨segs, hs, ⟨hsum, hc⟩, segsTouchWindow_eq_false (walk_pos (pageSize_pos _) hw) ?_⟩
  intro i hi pa hpa
  rw [hsum] at hi
  obtain ⟨q, h1, h2⟩ := h i hi
  rw [hc i hi, h1] at hpa
  cases hpa
  exact h2

/-! ## START -/

/-- START's checks with no phase outstanding and the bounds met: the translation decides. -/
theorem startCheck_of_inBounds {s : State} (hp : s.phase = .none) (hb : TriggerInBounds s) :
    startCheck s = match translation s s.srcAddr.toNat s.size.toNat with
      | .error f => .error f
      | .ok segs => .ok (⟨s.srcAddr, s.dstAddr, s.size⟩, segs) := by
  have h1 : usableSize Config.oversizePolicy s.size = some s.size := by
    simp [usableSize, Config.oversizePolicy, Config.stagingCapacity, hb.size_le]
  have h2 := hb.src_le
  have h3 := hb.dst_le
  have h4 : (wraps s.srcAddr s.size || wraps s.dstAddr s.size) = false := by
    simp only [wraps, Bool.or_eq_false_iff, decide_eq_false_iff_not]
    omega
  cases ht : translation s s.srcAddr.toNat s.size.toNat <;> simp [startCheck, hp, h1, h4, takeSnapshot, ht]

theorem startTouchesWindow_of_ok {s : State} {snap : Snapshot} {segs : Segs} (h : startCheck s = .ok (snap, segs))
    (hs : s.size.toNat ≤ Config.stagingCapacity) (ht : translation s s.srcAddr.toNat s.size.toNat = .ok segs)
    (hw : segsTouchWindow s.plat segs = false) : startTouchesWindow s = false := by
  have hsize : startSize s = s.size.toNat := by simp [startSize, usableSize, Config.oversizePolicy, hs]
  have hwalk := (translation_cases.1 segs ht).2.1
  simp [startTouchesWindow, startAccepted, h, rangeTouchesWindow, hsize, hwalk, hw]

theorem startTouchesWindow_of_error {s : State} {f : Fatal} (h : startCheck s = .error f) :
    startTouchesWindow s = false := by
  simp [startTouchesWindow, startAccepted, h]

theorem usableSize_le {n m : U32} (h : usableSize Config.oversizePolicy n = some m) :
    m = n ∧ n.toNat ≤ Config.stagingCapacity := by
  simp only [usableSize, Config.oversizePolicy] at h
  split at h
  · next hn => exact ⟨by simpa using h.symm, hn⟩
  · cases h

/-- START's checks, once: what a success gives. -/
theorem startCheck_ok {s : State} {snap : Snapshot} {segs : Segs} (h : startCheck s = .ok (snap, segs)) :
    s.phase = .none ∧ snap = ⟨s.srcAddr, s.dstAddr, s.size⟩ ∧ s.size.toNat ≤ Config.stagingCapacity ∧
      s.srcAddr.toNat + s.size.toNat ≤ 2 ^ 64 ∧ s.dstAddr.toNat + s.size.toNat ≤ 2 ^ 64 ∧
      translation s s.srcAddr.toNat s.size.toNat = .ok segs := by
  unfold startCheck at h
  split at h
  · cases h
  · next hp =>
    split at h
    · cases h
    · next n hn =>
      obtain ⟨rfl, hle⟩ := usableSize_le hn
      split at h
      · cases h
      · next hw =>
        split at h
        · cases h
        · next segs' ht =>
          simp only [Except.ok.injEq, Prod.mk.injEq] at h
          obtain ⟨rfl, rfl⟩ := h
          simp only [wraps, Bool.or_eq_true, decide_eq_true_eq, not_or, not_lt] at hw
          exact ⟨by simpa using hp, rfl, hle, hw.1, hw.2, ht⟩

theorem startThen_next {s t : State} {k : State → State} :
    startThen s k = .next t ↔ startTouchesWindow s = false ∧ t = k (startEffect s) := by
  unfold startThen
  simp only [refusesZeroSize, Config.zeroSizePolicy]
  simp only [Bool.false_eq_true, if_false, ite_next, Host.Outcome.next.injEq]
  constructor <;> rintro ⟨h, rfl⟩ <;> exact ⟨h, rfl⟩

/-- START's effect, once: a fatal condition latched, or the read phase issued. -/
theorem startEffect_cases (s : State) :
    (∃ f, startCheck s = .error f ∧ startEffect s = raise s f) ∨
      (∃ snap segs, startCheck s = .ok (snap, segs) ∧
        startEffect s = { s with status := 1, phase := .readPending snap segs, accessed := [] }) := by
  unfold startEffect
  cases h : startCheck s with
  | error f => exact .inl ⟨f, rfl, rfl⟩
  | ok p => exact .inr ⟨p.1, p.2, rfl, rfl⟩

theorem startTouchesWindow_ok {s : State} {snap : Snapshot} {segs : Segs} (h : startCheck s = .ok (snap, segs))
    (hw : startTouchesWindow s = false) : segsTouchWindow s.plat segs = false := by
  obtain ⟨-, -, hle, -, -, ht⟩ := startCheck_ok h
  have hsize : startSize s = s.size.toNat := by
    simp [startSize, usableSize, Config.oversizePolicy, hle]
  have hwalk := (translation_cases.1 segs ht).2.1
  simpa [startTouchesWindow, startAccepted, h, rangeTouchesWindow, hsize, hwalk] using hw

/-! ## READ_DONE and the byte accesses -/

/-- READ_DONE's effect, once. -/
theorem readDoneEffect_cases (s : State) (snap : Snapshot) :
    (∃ f, translation s snap.dst.toNat snap.size.toNat = .error f ∧ readDoneEffect s snap = raise s f) ∨
      (∃ segs, translation s snap.dst.toNat snap.size.toNat = .ok segs ∧
        readDoneEffect s snap = { s with phase := .writePending snap segs, accessed := [] }) := by
  unfold readDoneEffect
  cases h : translation s snap.dst.toNat snap.size.toNat with
  | error f => exact .inl ⟨f, rfl, rfl⟩
  | ok segs => exact .inr ⟨segs, rfl, rfl⟩

theorem readDoneTouchesWindow_ok {s : State} {snap : Snapshot} {segs : Segs}
    (ht : translation s snap.dst.toNat snap.size.toNat = .ok segs) (hw : readDoneTouchesWindow s snap = false) :
    segsTouchWindow s.plat segs = false := by
  have hwalk := (translation_cases.1 segs ht).2.1
  simpa [readDoneTouchesWindow, destinationAccepted, ht, rangeTouchesWindow, hwalk] using hw

theorem accessWith_next {s t : State} {n i : Nat} {segs : Segs} {move : State → Nat → Nat → State} :
    accessWith s n segs i move = .next t ↔
      i < n ∧ i ∉ s.accessed ∧ ∃ pa, segPa segs i = some pa ∧ hasMemory s.plat pa = true ∧ t = move s i pa := by
  unfold accessWith accessDue
  constructor
  · intro h
    split at h
    · next hd =>
      simp only [Bool.and_eq_true, decide_eq_true_eq, Bool.not_eq_true', List.contains_eq_mem,
        decide_eq_false_iff_not] at hd
      split at h
      · next pa hp =>
        split at h
        · next hm => exact ⟨hd.1, hd.2, pa, hp, hm, by simpa using h.symm⟩
        · cases h
      · cases h
    · cases h
  · rintro ⟨h1, h2, pa, h3, h4, rfl⟩
    simp [h1, h2, h3, h4]

/-- One byte access, once. -/
theorem byteAccess_next {s t : State} {i : Nat} (h : byteAccess i s = .next t) :
    s.fault = none ∧
      ((∃ snap segs pa, s.phase = .readPending snap segs ∧ i < snap.size.toNat ∧ i ∉ s.accessed ∧
          segPa segs i = some pa ∧ hasMemory s.plat pa = true ∧ t = readByte s i pa) ∨
        (∃ snap segs pa, s.phase = .writePending snap segs ∧ i < snap.size.toNat ∧ i ∉ s.accessed ∧
          segPa segs i = some pa ∧ hasMemory s.plat pa = true ∧ t = writeByte s i pa)) := by
  obtain ⟨hf, h⟩ := whenLive_next.1 h
  refine ⟨hf, ?_⟩
  split at h
  · cases h
  · next snap segs hp =>
    obtain ⟨h1, h2, pa, h3, h4, h5⟩ := accessWith_next.1 h
    exact .inl ⟨snap, segs, pa, hp, h1, h2, h3, h4, h5⟩
  · next snap segs hp =>
    obtain ⟨h1, h2, pa, h3, h4, h5⟩ := accessWith_next.1 h
    exact .inr ⟨snap, segs, pa, hp, h1, h2, h3, h4, h5⟩

/-! ## The queue -/

theorem peerAnswer_congr {s t : State} (h1 : t.peerScript = s.peerScript) (h2 : t.draws = s.draws) (p : Packet) :
    peerAnswer t p = peerAnswer s p := by
  simp [peerAnswer, h1, h2]

/-- A delivery attempt, once. -/
theorem tryDeliver_cases (s : State) :
    (s.queue = [] ∧ tryDeliver s = s) ∨
      (∃ e rest, s.queue = e :: rest ∧ peerAnswer s e.pkt = true ∧
        tryDeliver s = deliverHead (afterPeerAnswer s) e.pkt rest) ∨
      (∃ e rest, s.queue = e :: rest ∧ peerAnswer s e.pkt = false ∧
        tryDeliver s = { afterPeerAnswer s with retry := true }) := by
  unfold tryDeliver
  split
  · next h => exact .inl ⟨h, rfl⟩
  · next e rest h =>
    cases ha : peerAnswer s e.pkt with
    | true => exact .inr (.inl ⟨e, rest, h, ha, by simp⟩)
    | false => exact .inr (.inr ⟨e, rest, h, ha, by simp⟩)

/-! ## The operations -/

theorem exec_rdSrcLo_next {s t : State} :
    exec .rdSrcLo s = .next t ↔ s.fault = none ∧ t = respond s (.word (lowWord s.srcAddr)) :=
  whenLive_next_state

theorem exec_rdSrc_next {s t : State} :
    exec .rdSrc s = .next t ↔ s.fault = none ∧ t = respond s (.dword s.srcAddr) :=
  whenLive_next_state

theorem exec_wrSrcLo_next {s t : State} {v : U32} : exec (.wrSrcLo v) s = .next t ↔
    s.fault = none ∧ t = respond { s with srcAddr := withLowWord s.srcAddr v } .done :=
  whenLive_next_state

theorem exec_wrSrc_next {s t : State} {v : U64} : exec (.wrSrc v) s = .next t ↔
    s.fault = none ∧ t = respond { s with srcAddr := v } .done :=
  whenLive_next_state

theorem exec_rdDstLo_next {s t : State} :
    exec .rdDstLo s = .next t ↔ s.fault = none ∧ t = respond s (.word (lowWord s.dstAddr)) :=
  whenLive_next_state

theorem exec_rdDst_next {s t : State} :
    exec .rdDst s = .next t ↔ s.fault = none ∧ t = respond s (.dword s.dstAddr) :=
  whenLive_next_state

theorem exec_wrDstLo_next {s t : State} {v : U32} : exec (.wrDstLo v) s = .next t ↔
    s.fault = none ∧ t = respond { s with dstAddr := withLowWord s.dstAddr v } .done :=
  whenLive_next_state

theorem exec_wrDst_next {s t : State} {v : U64} : exec (.wrDst v) s = .next t ↔
    s.fault = none ∧ t = respond { s with dstAddr := v } .done :=
  whenLive_next_state

theorem exec_rdSize_next {s t : State} :
    exec .rdSize s = .next t ↔ s.fault = none ∧ t = respond s (.word s.size) :=
  whenLive_next_state

theorem exec_wrSize_next {s t : State} {v : U32} : exec (.wrSize v) s = .next t ↔
    s.fault = none ∧ t = respond { s with size := v } .done :=
  whenLive_next_state

theorem exec_rdCmd_next {s t : State} :
    exec .rdCmd s = .next t ↔ s.fault = none ∧ t = respond s (.word s.command) :=
  whenLive_next_state

/-- WR_CMD, once: rejected, or stored without a trigger, or stored and started. -/
theorem exec_wrCmd_next {s t : State} {v : U32} : exec (.wrCmd v) s = .next t ↔
    s.fault = none ∧
      ((startBit v = true ∧ s.status = 1 ∧ t = respond (warn s .startWhileBusy) .done) ∨
        (startBit v = false ∧ t = respond { s with command := v } .done) ∨
        (startBit v = true ∧ s.status ≠ 1 ∧ startTouchesWindow { s with command := v } = false ∧
          t = respondIfLive (startEffect { s with command := v }) .done)) := by
  have hr : rejectTrigger s v = warn s .startWhileBusy := by simp [rejectTrigger, Config.cmdStoreOnReject]
  simp only [exec, execWrCmd, whenLive_next, hr, busy]
  refine and_congr_right fun _ => ?_
  by_cases hb : startBit v = true
  · by_cases hs : s.status = 1
    · simp only [hb, hs, decide_true, Bool.and_self, if_true, Host.Outcome.next.injEq, true_and, ne_eq,
        not_true_eq_false, false_and, or_false, Bool.true_eq_false]
      exact eq_comm
    · simp only [hb, hs, decide_false, Bool.and_false, Bool.false_eq_true, if_false, if_true, startThen_next,
        true_and, ne_eq, not_false_eq_true, false_and, false_or, Bool.true_eq_false]
  · have hb' : startBit v = false := by simpa using hb
    simp only [hb', Bool.false_and, Bool.false_eq_true, if_false, Host.Outcome.next.injEq, true_and, false_and,
      or_false, false_or]
    exact eq_comm

theorem exec_rdStatus_next {s t : State} :
    exec .rdStatus s = .next t ↔ s.fault = none ∧ t = respond s (.word s.status) :=
  whenLive_next_state

theorem exec_wrStatus_next {s t : State} {v : U32} : exec (.wrStatus v) s = .next t ↔
    s.fault = none ∧ t = respond { s with status := v } .done :=
  whenLive_next_state

theorem exec_badwSrc_next {s t : State} {a : Access} {w : Nat} : exec (.badwSrc a w) s = .next t ↔
    s.fault = none ∧ t = raise s (.badWidth .srcAddr w) :=
  whenLive_next_state

theorem exec_badwDst_next {s t : State} {a : Access} {w : Nat} : exec (.badwDst a w) s = .next t ↔
    s.fault = none ∧ t = raise s (.badWidth .dstAddr w) :=
  whenLive_next_state

theorem exec_badwSize_next {s t : State} {a : Access} {w : Nat} : exec (.badwSize a w) s = .next t ↔
    s.fault = none ∧ t = raise s (.badWidth .size w) :=
  whenLive_next_state

theorem exec_badwCmd_next {s t : State} {a : Access} {w : Nat} : exec (.badwCmd a w) s = .next t ↔
    s.fault = none ∧ t = raise s (.badWidth .command w) :=
  whenLive_next_state

theorem exec_badwStatus_next {s t : State} {a : Access} {w : Nat} : exec (.badwStatus a w) s = .next t ↔
    s.fault = none ∧ t = raise s (.badWidth .status w) :=
  whenLive_next_state

theorem exec_rdUnmapped_next {s t : State} {o w : Nat} : exec (.rdUnmapped o w) s = .next t ↔
    s.fault = none ∧ t = respond (warn s (.unmappedOffset .read o w)) (.zero w) :=
  whenLive_next_state

theorem exec_wrUnmapped_next {s t : State} {o w v : Nat} : exec (.wrUnmapped o w v) s = .next t ↔
    s.fault = none ∧ t = respond (warn s (.unmappedOffset .write o w)) .done :=
  whenLive_next_state

theorem exec_start_next {s t : State} : exec .start s = .next t ↔
    s.fault = none ∧ s.status ≠ 1 ∧ startTouchesWindow s = false ∧ t = startEffect s := by
  simp only [exec, execStart, whenLive_next]
  rw [ite_next, startThen_next]
  simp [busy]

theorem exec_readDone_next {s t : State} : exec .readDone s = .next t ↔
    s.fault = none ∧ ∃ snap segs, s.phase = .readPending snap segs ∧ s.accessed.length = snap.size.toNat ∧
      readDoneTouchesWindow s snap = false ∧ t = readDoneEffect s snap := by
  simp only [exec, execReadDone, whenLive_next]
  refine and_congr_right fun _ => ?_
  constructor
  · intro h
    split at h
    · next snap segs hp =>
      split at h
      · next hl =>
        obtain ⟨hw, h⟩ := ite_next.1 h
        exact ⟨snap, segs, hp, hl, hw, by simpa using h.symm⟩
      · cases h
    · cases h
    · cases h
  · rintro ⟨snap, segs, hp, hl, hw, rfl⟩
    simp [hp, hl, hw]

theorem exec_writeDone_next {s t : State} : exec .writeDone s = .next t ↔
    s.fault = none ∧ ∃ snap segs, s.phase = .writePending snap segs ∧ s.accessed.length = snap.size.toNat ∧
      t = { s with status := 2, phase := .none, accessed := [] } := by
  simp only [exec, execWriteDone, whenLive_next]
  refine and_congr_right fun _ => ?_
  constructor
  · intro h
    split at h
    · next snap segs hp =>
      split at h
      · next hl => exact ⟨snap, segs, hp, hl, by simpa using h.symm⟩
      · cases h
    · cases h
    · cases h
  · rintro ⟨snap, segs, hp, hl, rfl⟩
    simp [hp, hl]

theorem exec_submit_next {s t : State} {p : Packet} : exec (.submit p) s = .next t ↔
    s.fault = none ∧ t = submitEffect s p :=
  whenLive_next_state

theorem exec_drain_next {s t : State} : exec .drain s = .next t ↔
    s.fault = none ∧ s.drainAt = some s.now ∧ t = drainEffect s := by
  simp only [exec, execDrain, whenLive_next]
  by_cases h : s.drainAt = some s.now <;> simp [h, eq_comm]

theorem exec_tryDeliver_next {s t : State} : exec .tryDeliver s = .next t ↔
    s.fault = none ∧ s.retry = false ∧ s.drainAt = none ∧ t = tryDeliver s := by
  simp only [exec, execTryDeliver, whenLive_next]
  cases s.retry <;> cases s.drainAt <;> simp [eq_comm]

theorem exec_peerReady_next {s t : State} : exec .peerReady s = .next t ↔
    s.fault = none ∧ t = peerReadyEffect s :=
  whenLive_next_state

theorem exec_translate_next {s t : State} {va : U64} {n : Nat} : exec (.translate va n) s = .next t ↔
    s.fault = none ∧ t = translateEffect s va.toNat n :=
  whenLive_next_state

theorem exec_rangeQuery_next {s t : State} : exec .rangeQuery s = .next t ↔
    s.fault = none ∧ t = emit s (.ranges (claimedRanges s.plat)) :=
  whenLive_next_state

/-- An operation answers a next state only where no fatal condition is latched. -/
theorem exec_next_live {i : Instr} {s t : State} (h : exec i s = .next t) : s.fault = none := by
  cases i <;> exact (whenLive_next.1 h).1

/-! ## Every engine and queue -/

theorem performAt_next {w : Who} {f : State → Result} {s t : State} : performAt w f s = .next t ↔
    ∃ v u, viewAt s w = some v ∧ f v = .next u ∧ t = putAt s w u := by
  unfold performAt
  constructor
  · intro h
    split at h
    · simp [whenLive_next] at h
    · next v hv =>
      split at h
      · next u hu => exact ⟨v, u, hv, hu, by simpa using h.symm⟩
      · cases h
      · cases h
  · rintro ⟨v, u, hv, hu, rfl⟩
    simp [hv, hu]

/-- The first engine and queue perform an operation on the machine itself. -/
theorem performAt_first (f : State → Result) (s : State) : performAt .first f s = f s := by
  simp only [performAt, viewAt, putAt]
  cases f s <;> rfl

theorem mem_everyone {s : State} {w : Who} : w ∈ everyone s ↔ (viewAt s w).isSome = true := by
  cases w <;> simp [everyone, viewAt]

/-- The operations of one of the engine's kind, and of one of the queue's. -/
def mayPerform (w : Who) (i : Instr) : Prop :=
  match w with
  | .first => True
  | .engine _ => isQueueOp i = false
  | .queue _ => isQueueOp i = true

theorem mayPerform_performerOf (k : Nat) (i : Instr) : mayPerform (performerOf k i) i := by
  unfold performerOf
  split
  · assumption
  · next h => simpa [mayPerform] using h

/-! ## One step -/

/-- What an engine or a queue does in a step, seen at its view: an operation of which `op` holds, a byte access, a change
of the page table (where `remaps` allows it), or the answer to a range query. -/
def LocalAct (op : Instr → Prop) (remaps : Prop) (v u : State) : Prop :=
  (∃ i, op i ∧ exec i v = .next u) ∨ (∃ i, byteAccess i v = .next u) ∨
    (remaps ∧ ∃ pt, u = { v with pageTable := pt }) ∨ u = emit v (.ranges v.plat.backendRanges)

/-- What the environment does in a step: time advances, or another agent stores a byte. -/
def EnvAct (v u : State) : Prop :=
  (∃ τ, mayReach v τ = true ∧ u = { v with now := τ }) ∨ ∃ pa b, u = { v with mem := memWrite v.mem pa b }

/-- Where an operation of `w` in a step from `s` comes from: it is asked for, or is an internal event. -/
def Comes (s : State) (w : Who) (i : Instr) : Prop :=
  asked s = some (w, i) ∨ i = .readDone ∨ i = .writeDone ∨ i = .drain ∧ StepFires s w .drain

/-- A further queue, which has no page table. -/
def isQueue (w : Who) : Prop := ∃ k, w = .queue k

/-- What one step does, at the state without the stimulus or after a draw: an act of an engine or queue on its view, or of
the environment. -/
def StepActs (s s0 t : State) : Prop :=
  (∃ w v u, viewAt s0 w = some v ∧ LocalAct (fun i => mayPerform w i ∧ Comes s w i) (¬ isQueue w) v u ∧
    t = putAt s0 w u) ∨ EnvAct s0 t

/-- Whom a stimulus is for. -/
def isFor (e : Stimulus) (w : Who) : Prop :=
  match e with
  | .sibling k _ => w = .engine k ∨ w = .queue k
  | _ => w = .first

/-- What a stimulus does: an act of the one it is for, on its view, or of the environment. -/
theorem perform_next {e : Stimulus} {s t : State} (h : perform e s = .next t) :
    (∃ w v u, isFor e w ∧ viewAt s w = some v ∧ v.fault = none ∧
      LocalAct (fun i => mayPerform w i ∧ ∀ rest, asked { s with inbox := e :: rest } = some (w, i)) (¬ isQueue w) v u ∧
      t = putAt s w u) ∨
      s.fault = none ∧ EnvAct s t ∧ isFor e .first := by
  cases e with
  | request r =>
    simp only [perform, runRequest] at h
    split at h
    · next i hi =>
      exact .inl ⟨.first, s, t, rfl, rfl, exec_next_live h,
        .inl ⟨i, ⟨trivial, fun rest => by simp [asked, hi, Except.toOption]⟩, h⟩, rfl⟩
    · simp [whenLive_next] at h
  | byteAccess i => exact .inl ⟨.first, s, t, rfl, rfl, (byteAccess_next h).1, .inr (.inl ⟨i, h⟩), rfl⟩
  | advance τ =>
    obtain ⟨hf, h⟩ := whenLive_next.1 h
    split at h
    · next hm => exact .inr ⟨hf, .inl ⟨τ, hm, by simpa using h.symm⟩, rfl⟩
    · cases h
  | foreignStore pa b =>
    obtain ⟨hf, h⟩ := whenLive_next.1 h
    split at h
    · exact .inr ⟨hf, .inr ⟨pa, b, by simpa using h.symm⟩, rfl⟩
    · cases h
  | remap pt =>
    obtain ⟨hf, h⟩ := whenLive_next_state.1 h
    exact .inl ⟨.first, s, t, rfl, rfl, hf, .inr (.inr (.inl ⟨nofun, pt, h⟩)), rfl⟩
  | queuePortQuery =>
    obtain ⟨hf, h⟩ := whenLive_next_state.1 h
    exact .inl ⟨.first, s, t, rfl, rfl, hf, .inr (.inr (.inr h)), rfl⟩
  | sibling k a =>
    left
    cases a with
    | request r =>
      simp only [perform, performAct] at h
      split at h
      · next i hi =>
        obtain ⟨v, u, hv, hu, rfl⟩ := performAt_next.1 h
        refine ⟨_, v, u, ?_, hv, exec_next_live hu, .inl ⟨i, ⟨mayPerform_performerOf k i, fun rest => ?_⟩, hu⟩, rfl⟩
        · unfold performerOf
          split
          · exact .inr rfl
          · exact .inl rfl
        · have hb : baseOf { s with inbox := .sibling k (.request r) :: rest } k = baseOf s k := rfl
          simp [asked, hb, hi, Except.toOption]
      · simp [whenLive_next] at h
    | byteAccess i =>
      obtain ⟨v, u, hv, hu, rfl⟩ := performAt_next.1 h
      exact ⟨_, v, u, .inl rfl, hv, (byteAccess_next hu).1, .inr (.inl ⟨i, hu⟩), rfl⟩
    | remap pt =>
      obtain ⟨v, u, hv, hu, rfl⟩ := performAt_next.1 h
      obtain ⟨hf, hu⟩ := whenLive_next_state.1 hu
      exact ⟨_, v, u, .inl rfl, hv, hf, .inr (.inr (.inl ⟨nofun, pt, hu⟩)), rfl⟩
    | queuePortQuery =>
      obtain ⟨v, u, hv, hu, rfl⟩ := performAt_next.1 h
      obtain ⟨hf, hu⟩ := whenLive_next_state.1 hu
      exact ⟨_, v, u, .inr rfl, hv, hf, .inr (.inr (.inr hu)), rfl⟩

/-- An event of an engine or queue, once. -/
theorem performLocal_next {e : Local} {s t : State} (h : performLocal e s = .next t) :
    (∃ i, (i = .readDone ∨ i = .writeDone ∨ i = .drain) ∧ exec i s = .next t) ∨ ∃ i, byteAccess i s = .next t := by
  cases e with
  | access i => exact .inr ⟨i, h⟩
  | readDone => exact .inl ⟨_, .inl rfl, h⟩
  | writeDone => exact .inl ⟨_, .inr (.inl rfl), h⟩
  | drain => exact .inl ⟨_, .inr (.inr rfl), h⟩

/-- The events of all engines and queues, once. -/
theorem mem_eventsOfAll {events : State → List Local} {s : State} {e : Internal} : e ∈ eventsOfAll events s ↔
    ∃ w v, viewAt s w = some v ∧ ∃ l ∈ events v, e = .of w l := by
  simp only [eventsOfAll, List.mem_flatMap, List.mem_map]
  constructor
  · rintro ⟨w, -, l, hl, rfl⟩
    cases hv : viewAt s w with
    | none => simp [hv] at hl
    | some v => exact ⟨w, v, hv, l, by simpa [hv] using hl, rfl⟩
  · rintro ⟨w, v, hv, l, hl, rfl⟩
    exact ⟨w, mem_everyone.2 (by simp [hv]), l, by simpa [hv] using hl, rfl⟩

/-- What a step with nothing in the inbox performs. -/
theorem idle_cases (s : State) :
    (∃ f, s.fault = some f ∧ idle s = .fault (.fatal f)) ∨
      (s.fault = none ∧ ∃ e ∈ internalEvents s, ∃ k,
        (k = s.draws ∨ k = s.draws + 1) ∧ idle s = performInternal e { s with draws := k }) := by
  unfold idle
  split
  · next f hf => exact .inl ⟨f, hf, rfl⟩
  · next hf =>
    refine .inr ⟨hf, ?_⟩
    have hne : internalEvents s ≠ [] := by
      unfold internalEvents schedulerEvents
      split <;> simp
    split
    · next hev => exact absurd hev hne
    · next e hev => exact ⟨e, by simp [hev], s.draws, .inl rfl, rfl⟩
    · next e es _ hev =>
      have hlt : Config.scheduleChoice s.draws % (e :: es).length < (e :: es).length :=
        Nat.mod_lt _ (by simp)
      refine ⟨(e :: es)[Config.scheduleChoice s.draws % (e :: es).length]'hlt,
        by rw [hev]; exact List.getElem_mem hlt, s.draws + 1, .inr rfl, ?_⟩
      simp only [List.getD_eq_getElem _ _ hlt]

/-- What a step performs: the next stimulus, or an internal event after at most one draw. -/
theorem step_cases (s : State) :
    (∃ e rest, s.inbox = e :: rest ∧ step s = perform e { s with inbox := rest }) ∨
      (s.inbox = [] ∧ ∃ f, s.fault = some f ∧ step s = .fault (.fatal f)) ∨
      (s.inbox = [] ∧ s.fault = none ∧ ∃ e ∈ internalEvents s, ∃ k,
        (k = s.draws ∨ k = s.draws + 1) ∧ step s = performInternal e { s with draws := k }) := by
  by_cases hi : s.inbox = []
  · have hs : step s = idle s := by simp only [step, stepOnce, hi]
    rcases idle_cases s with ⟨f, hf, h⟩ | ⟨hf, h⟩
    · exact .inr (.inl ⟨hi, f, hf, hs.trans h⟩)
    · exact .inr (.inr ⟨hi, hf, hs ▸ h⟩)
  · obtain ⟨e, rest, he⟩ := List.exists_cons_of_ne_nil hi
    exact .inl ⟨e, rest, he, by simp only [step, stepOnce, he]⟩

theorem LocalAct.mono {op op' : Instr → Prop} {p p' : Prop} {v u : State} (ho : ∀ i, op i → op' i) (hp : p → p')
    (h : LocalAct op p v u) : LocalAct op' p' v u := by
  rcases h with ⟨i, hi, h⟩ | h | ⟨hr, h⟩ | h
  · exact .inl ⟨i, ho i hi, h⟩
  · exact .inr (.inl h)
  · exact .inr (.inr (.inl ⟨hp hr, h⟩))
  · exact .inr (.inr (.inr h))

/-- The transfer engine has events in a phase alone, and no drain. -/
theorem of_mem_engineEvents {s : State} {l : Local} (h : l ∈ engineEvents s) : s.phase ≠ .none ∧ l ≠ .drain := by
  unfold engineEvents at h
  split at h
  · simp at h
  all_goals
    next hp =>
    refine ⟨by simp [hp], ?_⟩
    rintro rfl
    split at h <;> simp at h

theorem mem_dueDrain {s : State} {l : Local} : l ∈ dueDrain s ↔ l = .drain ∧ s.drainAt = some s.now := by
  unfold dueDrain
  split <;> simp_all

/-- An internal event is the transfer engine's, a drain that is due, or time passing. -/
theorem mem_internalEvents {s : State} {e : Internal} (h : e ∈ internalEvents s) :
    (∃ w v, viewAt s w = some v ∧ ∃ l, (l ∈ engineEvents v ∨ l ∈ dueDrain v) ∧ e = .of w l) ∨ e = .tick := by
  rcases List.mem_append.1 h with h | h
  · obtain ⟨w, v, hv, l, hl, rfl⟩ := mem_eventsOfAll.1 h
    exact .inl ⟨w, v, hv, l, .inl hl, rfl⟩
  · unfold schedulerEvents at h
    split at h
    · exact .inr (by simpa using h)
    · next hd =>
      rw [← hd] at h
      obtain ⟨w, v, hv, l, hl, rfl⟩ := mem_eventsOfAll.1 h
      exact .inl ⟨w, v, hv, l, .inr hl, rfl⟩

/-- A drain is a queue's event, the others an engine's. -/
theorem mayPerform_of_event {s v : State} {w : Who} {l : Local} (hv : viewAt s w = some v)
    (hl : l ∈ engineEvents v ∨ l ∈ dueDrain v) :
    (l = .drain → mayPerform w .drain) ∧ (l = .readDone → mayPerform w .readDone) ∧
      (l = .writeDone → mayPerform w .writeDone) := by
  cases w with
  | first => exact ⟨fun _ => trivial, fun _ => trivial, fun _ => trivial⟩
  | engine k =>
    obtain ⟨e, -, rfl⟩ := Option.map_eq_some_iff.1 hv
    refine ⟨?_, fun _ => rfl, fun _ => rfl⟩
    rintro rfl
    rcases hl with hl | hl
    · exact absurd rfl (of_mem_engineEvents hl).2
    · exact nomatch (mem_dueDrain.1 hl).2
  | queue k =>
    obtain ⟨q, -, rfl⟩ := Option.map_eq_some_iff.1 hv
    rcases hl with hl | hl
    · exact absurd rfl (of_mem_engineEvents hl).1
    · obtain ⟨rfl, -⟩ := mem_dueDrain.1 hl
      exact ⟨fun _ => rfl, nofun, nofun⟩

/-- One step that answers a next state, once. -/
theorem step_next {s t : State} (h : step s = .next t) :
    ∃ s0, s0.fault = none ∧ (∃ rest k, s0 = { s with inbox := rest, draws := k }) ∧ StepActs s s0 t := by
  have live : ∀ {s v : State} {w : Who}, viewAt s w = some v → v.fault = none → s.fault = none := by
    intro s v w hv hf
    cases w with
    | first =>
      cases hv
      exact hf
    | engine k =>
      obtain ⟨e, -, rfl⟩ := Option.map_eq_some_iff.1 hv
      exact hf
    | queue k =>
      obtain ⟨q, -, rfl⟩ := Option.map_eq_some_iff.1 hv
      exact hf
  rcases step_cases s with ⟨e, rest, hi, hs⟩ | ⟨-, f, -, hs⟩ | ⟨hi, hf, e, he, k, -, hs⟩
  · rw [hs] at h
    rcases perform_next h with ⟨w, v, u, -, hv, hf, hact, rfl⟩ | ⟨hf, hact, -⟩
    · refine ⟨_, live hv hf, ⟨rest, s.draws, rfl⟩, .inl ⟨w, v, u, hv, hact.mono ?_ id, rfl⟩⟩
      rintro i ⟨hm, ha⟩
      have ha := ha rest
      rw [show ({ s with inbox := e :: rest } : State) = s by rw [← hi]] at ha
      exact ⟨hm, .inl ha⟩
    · exact ⟨_, hf, ⟨rest, s.draws, rfl⟩, .inr hact⟩
  · rw [hs] at h
    cases h
  · have hs0 : ({ s with draws := k } : State) = { s with inbox := [], draws := k } := by rw [← hi]
    have fires : ∀ w l, e = .of w l → StepFires s w l := fun w l he => ⟨[], k, by rw [hs, he, hs0]⟩
    rw [hs] at h
    refine ⟨{ s with draws := k }, hf, ⟨[], k, hs0⟩, ?_⟩
    rcases mem_internalEvents he with ⟨w, v, hv, l, hl, rfl⟩ | rfl
    · obtain ⟨v', u, hv', hu, rfl⟩ := performAt_next.1 h
      obtain ⟨hd, hr, hw⟩ := mayPerform_of_event hv hl
      refine .inl ⟨w, v', u, hv', ?_, rfl⟩
      cases l with
      | access i => exact .inr (.inl ⟨i, hu⟩)
      | readDone => exact .inl ⟨.readDone, ⟨hr rfl, .inr (.inl rfl)⟩, hu⟩
      | writeDone => exact .inl ⟨.writeDone, ⟨hw rfl, .inr (.inr (.inl rfl))⟩, hu⟩
      | drain => exact .inl ⟨.drain, ⟨hd rfl, .inr (.inr (.inr ⟨rfl, fires w _ rfl⟩))⟩, hu⟩
    · obtain ⟨-, h⟩ := whenLive_next.1 h
      split at h
      · next hm => exact .inr (.inl ⟨_, hm, by simpa using h.symm⟩)
      · cases h

end Sys2Proof.Machine
end

