-- ==== Sys2Proof/Laws/Frames.lean ====
section
/-! SUPPORT. Frames: each shared effect and each operation changes only the fields named, written as the new state being
the old one with those fields replaced. A field not named is then equal by `rw`. -/

namespace Sys2Proof.Machine

theorem respondIfLive_frame (s : State) (r : Reply) :
    respondIfLive s r = { s with outputs := (respondIfLive s r).outputs } := by
  unfold respondIfLive
  split <;> rfl

theorem startEffect_frame (s : State) : startEffect s =
    { s with fault := (startEffect s).fault, status := (startEffect s).status,
             phase := (startEffect s).phase, accessed := (startEffect s).accessed } := by
  rcases startEffect_cases s with ⟨f, -, h⟩ | ⟨snap, segs, -, h⟩
  · rw [h]; rfl
  · rw [h]

theorem readDoneEffect_frame (s : State) (snap : Snapshot) : readDoneEffect s snap =
    { s with fault := (readDoneEffect s snap).fault, phase := (readDoneEffect s snap).phase,
             accessed := (readDoneEffect s snap).accessed } := by
  rcases readDoneEffect_cases s snap with ⟨f, -, h⟩ | ⟨segs, -, h⟩
  · rw [h]; rfl
  · rw [h]

theorem translateEffect_frame (s : State) (va n : Nat) : translateEffect s va n =
    { s with fault := (translateEffect s va n).fault, outputs := (translateEffect s va n).outputs } := by
  unfold translateEffect
  split <;> rfl

theorem afterPeerAnswer_frame (s : State) : afterPeerAnswer s =
    { s with peerScript := (afterPeerAnswer s).peerScript, draws := (afterPeerAnswer s).draws } := by
  unfold afterPeerAnswer
  split <;> rfl

theorem tryDeliver_frame (s : State) : tryDeliver s =
    { s with queue := (tryDeliver s).queue, retry := (tryDeliver s).retry, drainAt := (tryDeliver s).drainAt,
             outputs := (tryDeliver s).outputs, peerScript := (tryDeliver s).peerScript,
             draws := (tryDeliver s).draws } := by
  rcases tryDeliver_cases s with ⟨-, h⟩ | ⟨e, rest, -, -, h⟩ | ⟨e, rest, -, -, h⟩
  · rw [h]
  · rw [h, afterPeerAnswer_frame s]
    rfl
  · rw [h, afterPeerAnswer_frame s]

theorem drainEffect_frame (s : State) : drainEffect s =
    { s with queue := (drainEffect s).queue, retry := (drainEffect s).retry, drainAt := (drainEffect s).drainAt,
             outputs := (drainEffect s).outputs, peerScript := (drainEffect s).peerScript,
             draws := (drainEffect s).draws } := by
  unfold drainEffect
  split
  · rfl
  · rw [tryDeliver_frame]

theorem peerReadyEffect_frame (s : State) : peerReadyEffect s =
    { s with queue := (peerReadyEffect s).queue, retry := (peerReadyEffect s).retry,
             drainAt := (peerReadyEffect s).drainAt, outputs := (peerReadyEffect s).outputs,
             peerScript := (peerReadyEffect s).peerScript, draws := (peerReadyEffect s).draws,
             fault := (peerReadyEffect s).fault } := by
  unfold peerReadyEffect
  split
  · rw [tryDeliver_frame]
  · rfl

theorem submitEffect_frame (s : State) (p : Packet) : submitEffect s p =
    { s with queue := (submitEffect s p).queue, drainAt := (submitEffect s p).drainAt,
             outputs := (submitEffect s p).outputs, backendScript := (submitEffect s p).backendScript,
             storage := (submitEffect s p).storage, draws := (submitEffect s p).draws } := by
  unfold submitEffect serviced
  cases p.needsResponse <;> rfl

/-- What an operation of the engine may change. -/
theorem exec_engine_frame {i : Instr} {s t : State} (hi : isQueueOp i = false) (h : exec i s = .next t) :
    t = { s with srcAddr := t.srcAddr, dstAddr := t.dstAddr, size := t.size, command := t.command,
                 status := t.status, phase := t.phase, accessed := t.accessed, fault := t.fault, log := t.log,
                 outputs := t.outputs } := by
  cases i <;> first | (cases hi; done) | skip
  case rdSrcLo => obtain ⟨-, rfl⟩ := exec_rdSrcLo_next.1 h; rfl
  case rdSrc => obtain ⟨-, rfl⟩ := exec_rdSrc_next.1 h; rfl
  case wrSrcLo => obtain ⟨-, rfl⟩ := exec_wrSrcLo_next.1 h; rfl
  case wrSrc => obtain ⟨-, rfl⟩ := exec_wrSrc_next.1 h; rfl
  case rdDstLo => obtain ⟨-, rfl⟩ := exec_rdDstLo_next.1 h; rfl
  case rdDst => obtain ⟨-, rfl⟩ := exec_rdDst_next.1 h; rfl
  case wrDstLo => obtain ⟨-, rfl⟩ := exec_wrDstLo_next.1 h; rfl
  case wrDst => obtain ⟨-, rfl⟩ := exec_wrDst_next.1 h; rfl
  case rdSize => obtain ⟨-, rfl⟩ := exec_rdSize_next.1 h; rfl
  case wrSize => obtain ⟨-, rfl⟩ := exec_wrSize_next.1 h; rfl
  case rdCmd => obtain ⟨-, rfl⟩ := exec_rdCmd_next.1 h; rfl
  case wrCmd v =>
    rcases exec_wrCmd_next.1 h with ⟨-, ⟨-, -, rfl⟩ | ⟨-, rfl⟩ | ⟨-, -, -, rfl⟩⟩
    · rfl
    · rfl
    · rw [respondIfLive_frame, startEffect_frame]
  case rdStatus => obtain ⟨-, rfl⟩ := exec_rdStatus_next.1 h; rfl
  case wrStatus => obtain ⟨-, rfl⟩ := exec_wrStatus_next.1 h; rfl
  case badwSrc => obtain ⟨-, rfl⟩ := exec_badwSrc_next.1 h; rfl
  case badwDst => obtain ⟨-, rfl⟩ := exec_badwDst_next.1 h; rfl
  case badwSize => obtain ⟨-, rfl⟩ := exec_badwSize_next.1 h; rfl
  case badwCmd => obtain ⟨-, rfl⟩ := exec_badwCmd_next.1 h; rfl
  case badwStatus => obtain ⟨-, rfl⟩ := exec_badwStatus_next.1 h; rfl
  case rdUnmapped => obtain ⟨-, rfl⟩ := exec_rdUnmapped_next.1 h; rfl
  case wrUnmapped => obtain ⟨-, rfl⟩ := exec_wrUnmapped_next.1 h; rfl
  case start => obtain ⟨-, -, -, rfl⟩ := exec_start_next.1 h; rw [startEffect_frame]
  case readDone =>
    obtain ⟨-, snap, segs, -, -, -, rfl⟩ := exec_readDone_next.1 h
    rw [readDoneEffect_frame]
  case writeDone => obtain ⟨-, snap, segs, -, -, rfl⟩ := exec_writeDone_next.1 h; rfl
  case translate => obtain ⟨-, rfl⟩ := exec_translate_next.1 h; rw [translateEffect_frame]
  case rangeQuery => obtain ⟨-, rfl⟩ := exec_rangeQuery_next.1 h; rfl

/-- What an operation of the queue may change. -/
theorem exec_queue_frame {i : Instr} {s t : State} (hi : isQueueOp i = true) (h : exec i s = .next t) :
    t = { s with queue := t.queue, retry := t.retry, drainAt := t.drainAt, fault := t.fault,
                 outputs := t.outputs, peerScript := t.peerScript, backendScript := t.backendScript,
                 storage := t.storage, draws := t.draws } := by
  cases i <;> first | (cases hi; done) | skip
  case submit => obtain ⟨-, rfl⟩ := exec_submit_next.1 h; rw [submitEffect_frame]
  case drain => obtain ⟨-, -, rfl⟩ := exec_drain_next.1 h; rw [drainEffect_frame]
  case tryDeliver => obtain ⟨-, -, -, rfl⟩ := exec_tryDeliver_next.1 h; rw [tryDeliver_frame]
  case peerReady => obtain ⟨-, rfl⟩ := exec_peerReady_next.1 h; rw [peerReadyEffect_frame]

/-- What any operation may change: never memory, the staging buffer, time, the platform, the page table, the inbox
or the further engines and queues. -/
theorem exec_frame {i : Instr} {s t : State} (h : exec i s = .next t) :
    t.mem = s.mem ∧ t.stg = s.stg ∧ t.now = s.now ∧ t.plat = s.plat ∧ t.pageTable = s.pageTable ∧
      t.inbox = s.inbox ∧ t.otherEngines = s.otherEngines ∧ t.otherQueues = s.otherQueues := by
  cases hi : isQueueOp i with
  | true =>
    have hf := exec_queue_frame hi h
    refine ⟨?_, ?_, ?_, ?_, ?_, ?_, ?_, ?_⟩ <;> rw [hf]
  | false =>
    have hf := exec_engine_frame hi h
    refine ⟨?_, ?_, ?_, ?_, ?_, ?_, ?_, ?_⟩ <;> rw [hf]

/-- What a byte access may change. -/
theorem byteAccess_frame {i : Nat} {s t : State} (h : byteAccess i s = .next t) :
    t = { s with stg := t.stg, mem := t.mem, accessed := t.accessed } := by
  rcases byteAccess_next h with ⟨-, ⟨_, _, _, -, -, -, -, -, rfl⟩ | ⟨_, _, _, -, -, -, -, -, rfl⟩⟩ <;> rfl

/-- Operations only add to the log. -/
theorem exec_log_grows {i : Instr} {s t : State} (h : exec i s = .next t) : ∃ l, t.log = s.log ++ l := by
  have same : ∀ {u : State}, u.log = s.log → ∃ l, u.log = s.log ++ l := fun hu => ⟨[], by rw [hu, List.append_nil]⟩
  cases hq : isQueueOp i with
  | true => exact same (by rw [exec_queue_frame hq h])
  | false =>
    cases i <;> first | (cases hq; done) | skip
    case wrCmd v =>
      rcases exec_wrCmd_next.1 h with ⟨-, ⟨-, -, rfl⟩ | ⟨-, rfl⟩ | ⟨-, -, -, rfl⟩⟩
      · exact ⟨_, rfl⟩
      · exact same rfl
      · exact same (by rw [respondIfLive_frame, startEffect_frame])
    case start => obtain ⟨-, -, -, rfl⟩ := exec_start_next.1 h; exact same (by rw [startEffect_frame])
    case readDone =>
      obtain ⟨-, snap, segs, -, -, -, rfl⟩ := exec_readDone_next.1 h
      exact same (by rw [readDoneEffect_frame])
    case writeDone => obtain ⟨-, snap, segs, -, -, rfl⟩ := exec_writeDone_next.1 h; exact same rfl
    case translate => obtain ⟨-, rfl⟩ := exec_translate_next.1 h; exact same (by rw [translateEffect_frame])
    case rdUnmapped => obtain ⟨-, rfl⟩ := exec_rdUnmapped_next.1 h; exact ⟨_, rfl⟩
    case wrUnmapped => obtain ⟨-, rfl⟩ := exec_wrUnmapped_next.1 h; exact ⟨_, rfl⟩
    all_goals (obtain ⟨-, rfl⟩ := whenLive_next_state.1 h; exact same rfl)

end Sys2Proof.Machine
end

