-- ==== Sys2Proof/Laws/PerInstr.lean ====
section
/-! SUPPORT. Per instruction: the encoded descriptor word of every operation matches the opcode table's row of its own
mnemonic (30_encoding.md R109, R110). -/

namespace Sys2Proof.Laws.OwnRow

/-- The operation's descriptor word matches a row of the opcode table that has its mnemonic. -/
def Statement (i : Instr) : Prop :=
  ∃ r ∈ opcodeRows, r.mnemonic = mnemonicOf i ∧ r.matchesWord (encodeWord i) = true

/-- A width mismatch of either direction matches its priority 2 row. -/
theorem badw_matches (m : String) (p : Word) (offset : Nat) (a : Access) (w : Nat)
    (h : fieldsOf p = ⟨0#3, 0#1, 0#8, BitVec.ofNat 12 offset⟩) :
    Row.matchesWord ⟨m, p, 0xE00FFF#24, 2⟩ (accessWord a offset w) = true := by
  simp only [Row.matchesWord, beq_iff_eq]
  rw [kind_offset_mask, h]
  cases a <;> simp [accessWord, readWord, writeWord]

theorem rdSrcLo : Statement .rdSrcLo :=
  ⟨⟨"RD_SRC_LO", 0x004000#24, 0xFFFFFF#24, 1⟩, by decide, rfl,
    show Row.matchesWord _ (readWord 0x00 4) = true by decide⟩

theorem rdSrc : Statement .rdSrc :=
  ⟨⟨"RD_SRC", 0x008000#24, 0xFFFFFF#24, 1⟩, by decide, rfl,
    show Row.matchesWord _ (readWord 0x00 8) = true by decide⟩

theorem wrSrcLo (value : U32) : Statement (.wrSrcLo value) :=
  ⟨⟨"WR_SRC_LO", 0x104000#24, 0xFFFFFF#24, 1⟩, by decide, rfl,
    show Row.matchesWord _ (writeWord 0x00 4) = true by decide⟩

theorem wrSrc (value : U64) : Statement (.wrSrc value) :=
  ⟨⟨"WR_SRC", 0x108000#24, 0xFFFFFF#24, 1⟩, by decide, rfl,
    show Row.matchesWord _ (writeWord 0x00 8) = true by decide⟩

theorem rdDstLo : Statement .rdDstLo :=
  ⟨⟨"RD_DST_LO", 0x004004#24, 0xFFFFFF#24, 1⟩, by decide, rfl,
    show Row.matchesWord _ (readWord 0x04 4) = true by decide⟩

theorem rdDst : Statement .rdDst :=
  ⟨⟨"RD_DST", 0x008004#24, 0xFFFFFF#24, 1⟩, by decide, rfl,
    show Row.matchesWord _ (readWord 0x04 8) = true by decide⟩

theorem wrDstLo (value : U32) : Statement (.wrDstLo value) :=
  ⟨⟨"WR_DST_LO", 0x104004#24, 0xFFFFFF#24, 1⟩, by decide, rfl,
    show Row.matchesWord _ (writeWord 0x04 4) = true by decide⟩

theorem wrDst (value : U64) : Statement (.wrDst value) :=
  ⟨⟨"WR_DST", 0x108004#24, 0xFFFFFF#24, 1⟩, by decide, rfl,
    show Row.matchesWord _ (writeWord 0x04 8) = true by decide⟩

theorem rdSize : Statement .rdSize :=
  ⟨⟨"RD_SIZE", 0x004008#24, 0xFFFFFF#24, 1⟩, by decide, rfl,
    show Row.matchesWord _ (readWord 0x08 4) = true by decide⟩

theorem wrSize (value : U32) : Statement (.wrSize value) :=
  ⟨⟨"WR_SIZE", 0x104008#24, 0xFFFFFF#24, 1⟩, by decide, rfl,
    show Row.matchesWord _ (writeWord 0x08 4) = true by decide⟩

theorem rdCmd : Statement .rdCmd :=
  ⟨⟨"RD_CMD", 0x00400C#24, 0xFFFFFF#24, 1⟩, by decide, rfl,
    show Row.matchesWord _ (readWord 0x0C 4) = true by decide⟩

theorem wrCmd (value : U32) : Statement (.wrCmd value) :=
  ⟨⟨"WR_CMD", 0x10400C#24, 0xFFFFFF#24, 1⟩, by decide, rfl,
    show Row.matchesWord _ (writeWord 0x0C 4) = true by decide⟩

theorem rdStatus : Statement .rdStatus :=
  ⟨⟨"RD_STATUS", 0x004010#24, 0xFFFFFF#24, 1⟩, by decide, rfl,
    show Row.matchesWord _ (readWord 0x10 4) = true by decide⟩

theorem wrStatus (value : U32) : Statement (.wrStatus value) :=
  ⟨⟨"WR_STATUS", 0x104010#24, 0xFFFFFF#24, 1⟩, by decide, rfl,
    show Row.matchesWord _ (writeWord 0x10 4) = true by decide⟩

theorem badwSrc (access : Access) (width : Nat) : Statement (.badwSrc access width) :=
  ⟨⟨"BADW_SRC", 0x000000#24, 0xE00FFF#24, 2⟩, by decide, rfl, badw_matches _ _ _ _ _ (by decide)⟩

theorem badwDst (access : Access) (width : Nat) : Statement (.badwDst access width) :=
  ⟨⟨"BADW_DST", 0x000004#24, 0xE00FFF#24, 2⟩, by decide, rfl, badw_matches _ _ _ _ _ (by decide)⟩

theorem badwSize (access : Access) (width : Nat) : Statement (.badwSize access width) :=
  ⟨⟨"BADW_SIZE", 0x000008#24, 0xE00FFF#24, 2⟩, by decide, rfl, badw_matches _ _ _ _ _ (by decide)⟩

theorem badwCmd (access : Access) (width : Nat) : Statement (.badwCmd access width) :=
  ⟨⟨"BADW_CMD", 0x00000C#24, 0xE00FFF#24, 2⟩, by decide, rfl, badw_matches _ _ _ _ _ (by decide)⟩

theorem badwStatus (access : Access) (width : Nat) : Statement (.badwStatus access width) :=
  ⟨⟨"BADW_STATUS", 0x000010#24, 0xE00FFF#24, 2⟩, by decide, rfl, badw_matches _ _ _ _ _ (by decide)⟩

theorem rdUnmapped (offset : Nat) (width : Nat) : Statement (.rdUnmapped offset width) := by
  refine ⟨⟨"RD_UNMAPPED", 0x000000#24, 0xF00000#24, 3⟩, by decide, rfl, ?_⟩
  have hp : fieldsOf 0x000000#24 = ⟨0#3, 0#1, 0#8, 0#12⟩ := by decide
  simp only [Row.matchesWord, beq_iff_eq]
  rw [kind_dir_mask, hp]
  simp [encodeWord, readWord]

theorem wrUnmapped (offset : Nat) (width : Nat) (value : Nat) : Statement (.wrUnmapped offset width value) := by
  refine ⟨⟨"WR_UNMAPPED", 0x100000#24, 0xF00000#24, 3⟩, by decide, rfl, ?_⟩
  have hp : fieldsOf 0x100000#24 = ⟨0#3, 1#1, 0#8, 0#12⟩ := by decide
  simp only [Row.matchesWord, beq_iff_eq]
  rw [kind_dir_mask, hp]
  simp [encodeWord, writeWord]

theorem start : Statement .start :=
  ⟨⟨"START", 0xE00000#24, 0xE00FFF#24, 1⟩, by decide, rfl,
    show Row.matchesWord _ (eventWord 7#3 0) = true by decide⟩

theorem readDone : Statement .readDone :=
  ⟨⟨"READ_DONE", 0x800000#24, 0xE00000#24, 1⟩, by decide, rfl,
    show Row.matchesWord _ (eventWord 4#3 0) = true by decide⟩

theorem writeDone : Statement .writeDone :=
  ⟨⟨"WRITE_DONE", 0xA00000#24, 0xE00000#24, 1⟩, by decide, rfl,
    show Row.matchesWord _ (eventWord 5#3 0) = true by decide⟩

theorem submit (pkt : Packet) : Statement (.submit pkt) :=
  ⟨⟨"SUBMIT", 0x200000#24, 0xE00000#24, 1⟩, by decide, rfl,
    show Row.matchesWord _ (eventWord 1#3 0) = true by decide⟩

theorem drain : Statement .drain :=
  ⟨⟨"DRAIN", 0x400000#24, 0xE00000#24, 1⟩, by decide, rfl,
    show Row.matchesWord _ (eventWord 2#3 0) = true by decide⟩

theorem tryDeliver : Statement .tryDeliver :=
  ⟨⟨"TRY_DELIVER", 0xE00002#24, 0xE00FFF#24, 1⟩, by decide, rfl,
    show Row.matchesWord _ (eventWord 7#3 2) = true by decide⟩

theorem peerReady : Statement .peerReady :=
  ⟨⟨"PEER_READY", 0x600000#24, 0xE00000#24, 1⟩, by decide, rfl,
    show Row.matchesWord _ (eventWord 3#3 0) = true by decide⟩

theorem translate (va : U64) (n : Nat) : Statement (.translate va n) :=
  ⟨⟨"TRANSLATE", 0xE00001#24, 0xE00FFF#24, 1⟩, by decide, rfl,
    show Row.matchesWord _ (eventWord 7#3 1) = true by decide⟩

theorem rangeQuery : Statement .rangeQuery :=
  ⟨⟨"RANGE_QUERY", 0xC00000#24, 0xE00000#24, 1⟩, by decide, rfl,
    show Row.matchesWord _ (eventWord 6#3 0) = true by decide⟩

end Sys2Proof.Laws.OwnRow
end

