-- ==== Sys2Proof/Laws/Siblings.lean ====
section
/-! SUPPORT. The views of the engines and queues: what is shared, that a view is read back from what is put, and what one
step of the machine is at every view. -/

namespace Sys2Proof.Machine

/-! ## What a view shares with the machine -/

@[simp] theorem viewAt_first (s : State) : viewAt s .first = some s := rfl

theorem viewAt_engine {s v : State} {k : Nat} :
    viewAt s (.engine k) = some v ↔ ∃ e, s.otherEngines[k]? = some e ∧ v = engineView s e := by
  simp [viewAt, eq_comm]

theorem viewAt_queue {s v : State} {k : Nat} :
    viewAt s (.queue k) = some v ↔ ∃ q, s.otherQueues[k]? = some q ∧ v = queueView s q := by
  simp [viewAt, eq_comm]

/-- Time, the fatal latch, the log, memory and the counter of draws are the same at every view. -/
theorem viewAt_shared {s v : State} {w : Who} (h : viewAt s w = some v) :
    v.now = s.now ∧ v.fault = s.fault ∧ v.log = s.log ∧ v.mem = s.mem ∧ v.draws = s.draws := by
  cases w with
  | first =>
    cases h
    exact ⟨rfl, rfl, rfl, rfl, rfl⟩
  | engine k =>
    obtain ⟨e, -, rfl⟩ := viewAt_engine.1 h
    exact ⟨rfl, rfl, rfl, rfl, rfl⟩
  | queue k =>
    obtain ⟨q, -, rfl⟩ := viewAt_queue.1 h
    exact ⟨rfl, rfl, rfl, rfl, rfl⟩

/-- A view sees the stimuli and the draws made for the schedule at most. -/
theorem viewAt_congr {s v : State} {w : Who} {rest : List Stimulus} {k : Nat} (h : viewAt s w = some v) :
    ∃ rest', viewAt { s with inbox := rest, draws := k } w = some { v with inbox := rest', draws := k } := by
  cases w with
  | first =>
    cases h
    exact ⟨rest, rfl⟩
  | engine j =>
    obtain ⟨e, he, rfl⟩ := viewAt_engine.1 h
    exact ⟨[], viewAt_engine.2 ⟨e, he, rfl⟩⟩
  | queue j =>
    obtain ⟨q, hq, rfl⟩ := viewAt_queue.1 h
    exact ⟨[], viewAt_queue.2 ⟨q, hq, rfl⟩⟩

/-! ## Acting on a view -/

/-- What an act leaves alone of what is not the engine's or queue's own, and what it changes of the shared part: memory by
one byte at most, the log by appending. -/
theorem LocalAct.shared {op : Instr → Prop} {p : Prop} {v u : State} (h : LocalAct op p v u) :
    u.now = v.now ∧ u.plat = v.plat ∧ (∃ l, u.log = v.log ++ l) ∧
      (u.mem = v.mem ∨ ∃ pa b, u.mem = memWrite v.mem pa b) ∧
      u.otherEngines = v.otherEngines ∧ u.otherQueues = v.otherQueues := by
  have nothing : ∃ l, v.log = v.log ++ l := ⟨[], (List.append_nil _).symm⟩
  rcases h with ⟨i, -, h⟩ | ⟨i, h⟩ | ⟨-, pt, rfl⟩ | rfl
  · obtain ⟨hm, -, hn, hp, -, -, he, hq⟩ := exec_frame h
    exact ⟨hn, hp, exec_log_grows h, .inl hm, he, hq⟩
  · rcases byteAccess_next h with ⟨-, ⟨_, _, pa, -, -, -, -, -, rfl⟩ | ⟨_, _, pa, -, -, -, -, -, rfl⟩⟩
    · exact ⟨rfl, rfl, nothing, .inl rfl, rfl, rfl⟩
    · exact ⟨rfl, rfl, nothing, .inr ⟨pa, _, rfl⟩, rfl, rfl⟩
  · exact ⟨rfl, rfl, nothing, .inl rfl, rfl, rfl⟩
  · exact ⟨rfl, rfl, nothing, .inl rfl, rfl, rfl⟩

/-- Whoever has acted is seen as the act left it. -/
theorem viewAt_putAt {op : Instr → Prop} {s v u : State} {w : Who} (ho : ∀ i, op i → mayPerform w i)
    (hv : viewAt s w = some v) (h : LocalAct op (¬ isQueue w) v u) : viewAt (putAt s w u) w = some u := by
  cases w with
  | first => rfl
  | engine k =>
    obtain ⟨e, he, rfl⟩ := viewAt_engine.1 hv
    have hlt := (List.getElem?_eq_some_iff.1 he).1
    refine viewAt_engine.2 ⟨engineOf u, by simp [putAt, withShared, hlt], ?_⟩
    rcases h with ⟨i, hi, h⟩ | ⟨i, h⟩ | ⟨-, pt, rfl⟩ | rfl
    · rw [exec_engine_frame (ho i hi) h]
      rfl
    · rw [byteAccess_frame h]
      rfl
    · rfl
    · rfl
  | queue k =>
    obtain ⟨q, hq, rfl⟩ := viewAt_queue.1 hv
    have hlt := (List.getElem?_eq_some_iff.1 hq).1
    refine viewAt_queue.2 ⟨queueOf u, by simp [putAt, withShared, hlt], ?_⟩
    rcases h with ⟨i, hi, h⟩ | ⟨i, h⟩ | ⟨hne, -⟩ | rfl
    · rw [exec_queue_frame (ho i hi) h]
      rfl
    · rcases byteAccess_next h with ⟨-, ⟨_, _, _, hp, -⟩ | ⟨_, _, _, hp, -⟩⟩ <;> cases hp
    · exact absurd ⟨k, rfl⟩ hne
    · rfl

/-! ## One step at every view -/

/-- What the acts of others leave of a view. -/
def SharedAct (v u : State) : Prop :=
  ∃ engines queues fault log mem draws, (mem = v.mem ∨ ∃ pa b, mem = memWrite v.mem pa b) ∧
    u = { v with
      otherEngines := engines, otherQueues := queues, fault := fault, log := v.log ++ log, mem := mem, draws := draws }

/-- What one step of the machine is, seen by an engine or queue: an act of its own, of the environment, or of others. -/
def ViewActs (s : State) (w : Who) (v u : State) : Prop :=
  LocalAct (Comes s w) True v u ∨ EnvAct v u ∨ SharedAct v u

/-- Whoever has not acted sees what is shared change, and nothing else. -/
theorem viewAt_putAt_other {op : Instr → Prop} {p : Prop} {s v u v' : State} {w w' : Who} (hne : w' ≠ w)
    (hv : viewAt s w = some v) (h : LocalAct op p v u) (hv' : viewAt s w' = some v') :
    ∃ u', viewAt (putAt s w u) w' = some u' ∧ SharedAct v' u' := by
  obtain ⟨hn, hp, ⟨l, hl⟩, hm, he, hq⟩ := h.shared
  obtain ⟨h1, -, h3, h4, -⟩ := viewAt_shared hv
  obtain ⟨h1', -, h3', h4', -⟩ := viewAt_shared hv'
  rw [h3, ← h3'] at hl
  rw [h4, ← h4'] at hm
  rw [h1] at hn
  cases w' with
  | first =>
    cases hv'
    refine ⟨putAt s w u, rfl, (putAt s w u).otherEngines, (putAt s w u).otherQueues, u.fault, l, u.mem, u.draws, hm, ?_⟩
    rw [← hl]
    cases w with
    | first => exact absurd rfl hne
    | engine k => rfl
    | queue k => rfl
  | engine j =>
    obtain ⟨e, he', rfl⟩ := viewAt_engine.1 hv'
    refine ⟨engineView (putAt s w u) e, viewAt_engine.2 ⟨e, ?_, rfl⟩, [], [], u.fault, l, u.mem, u.draws, hm, ?_⟩
    · cases w with
      | first =>
        cases hv
        rw [show (putAt s .first u).otherEngines = s.otherEngines from he, he']
      | engine k =>
        have hkj : k ≠ j := fun h => hne (by rw [h])
        simpa [putAt, withShared, hkj] using he'
      | queue k => exact he'
    · rw [← hl]
      cases w with
      | first =>
        cases hv
        simp [putAt, engineView, hn, hp]
      | engine k => rfl
      | queue k => rfl
  | queue j =>
    obtain ⟨q, hq', rfl⟩ := viewAt_queue.1 hv'
    refine ⟨queueView (putAt s w u) q, viewAt_queue.2 ⟨q, ?_, rfl⟩, [], [], u.fault, l, u.mem, u.draws, hm, ?_⟩
    · cases w with
      | first =>
        cases hv
        rw [show (putAt s .first u).otherQueues = s.otherQueues from hq, hq']
      | engine k => exact hq'
      | queue k =>
        have hkj : k ≠ j := fun h => hne (by rw [h])
        simpa [putAt, withShared, hkj] using hq'
    · rw [← hl]
      cases w with
      | first =>
        cases hv
        simp [putAt, queueView, hn, hp]
      | engine k => rfl
      | queue k => rfl

/-- The environment's acts, seen by an engine or queue. -/
theorem EnvAct.view {s t v : State} {w : Who} (hv : viewAt s w = some v) (h : EnvAct s t) :
    ∃ u, viewAt t w = some u ∧ EnvAct v u := by
  rcases h with ⟨τ, hm, rfl⟩ | ⟨pa, b, rfl⟩
  · cases w with
    | first =>
      cases hv
      exact ⟨_, rfl, .inl ⟨τ, hm, rfl⟩⟩
    | engine k =>
      obtain ⟨e, he, rfl⟩ := viewAt_engine.1 hv
      refine ⟨_, viewAt_engine.2 ⟨e, he, rfl⟩, .inl ⟨τ, ?_, rfl⟩⟩
      simp only [mayReach, Bool.and_eq_true] at hm
      simp [mayReach, engineView, notPast, of_decide_eq_true hm.1.1]
    | queue k =>
      obtain ⟨q, hq, rfl⟩ := viewAt_queue.1 hv
      refine ⟨_, viewAt_queue.2 ⟨q, hq, rfl⟩, .inl ⟨τ, ?_, rfl⟩⟩
      simp only [mayReach, Bool.and_eq_true, List.all_eq_true] at hm
      simp [mayReach, queueView, of_decide_eq_true hm.1.1, hm.2 q (List.mem_of_getElem? hq)]
  · cases w with
    | first =>
      cases hv
      exact ⟨_, rfl, .inr ⟨pa, b, rfl⟩⟩
    | engine k =>
      obtain ⟨e, he, rfl⟩ := viewAt_engine.1 hv
      exact ⟨_, viewAt_engine.2 ⟨e, he, rfl⟩, .inr ⟨pa, b, rfl⟩⟩
    | queue k =>
      obtain ⟨q, hq, rfl⟩ := viewAt_queue.1 hv
      exact ⟨_, viewAt_queue.2 ⟨q, hq, rfl⟩, .inr ⟨pa, b, rfl⟩⟩

/-- One step of the machine, at the view of every engine and queue: it stays one, and what it does is an act of its own,
of the environment, or of others. -/
theorem step_view {s t : State} (h : step s = .next t) {w : Who} {v : State} (hv : viewAt s w = some v) :
    ∃ v0 v', viewAt t w = some v' ∧ v0.fault = none ∧ (∃ rest k, v0 = { v with inbox := rest, draws := k }) ∧
      ViewActs s w v0 v' := by
  obtain ⟨s0, hf, ⟨rest, k, rfl⟩, ha⟩ := step_next h
  obtain ⟨rest', hv0⟩ := viewAt_congr (rest := rest) (k := k) hv
  have hf0 : ({ v with inbox := rest', draws := k } : State).fault = none := (viewAt_shared hv0).2.1.trans hf
  rcases ha with ⟨w1, v1, u, hv1, hact, rfl⟩ | ha
  · by_cases hw : w = w1
    · subst hw
      rw [hv0] at hv1
      cases hv1
      exact ⟨_, u, viewAt_putAt (fun i hi => hi.1) hv0 hact, hf0, ⟨rest', k, rfl⟩,
        .inl (hact.mono (fun i hi => hi.2) fun _ => trivial)⟩
    · obtain ⟨u', hu', hs⟩ := viewAt_putAt_other hw hv1 hact hv0
      exact ⟨_, u', hu', hf0, ⟨rest', k, rfl⟩, .inr (.inr hs)⟩
  · obtain ⟨u', hu', he⟩ := ha.view hv0
    exact ⟨_, u', hu', hf0, ⟨rest', k, rfl⟩, .inr (.inl he)⟩

/-- A step makes no engine or queue. -/
theorem step_everyone {s t : State} (h : step s = .next t) :
    t.otherEngines.length = s.otherEngines.length ∧ t.otherQueues.length = s.otherQueues.length := by
  obtain ⟨s0, -, ⟨rest, k, rfl⟩, ha⟩ := step_next h
  rcases ha with ⟨w, v, u, hv, hact, rfl⟩ | ⟨τ, -, rfl⟩ | ⟨pa, b, rfl⟩
  · obtain ⟨-, -, -, -, he, hq⟩ := hact.shared
    cases w with
    | first =>
      cases hv
      exact ⟨congrArg List.length he, congrArg List.length hq⟩
    | engine j => exact ⟨List.length_set, rfl⟩
    | queue j => exact ⟨rfl, List.length_set⟩
  · exact ⟨rfl, rfl⟩
  · exact ⟨rfl, rfl⟩

/-- There is a view of every engine and queue that the next state has. -/
theorem viewAt_of_step {s t : State} (h : step s = .next t) {w : Who} {v' : State} (hv : viewAt t w = some v') :
    ∃ v, viewAt s w = some v := by
  obtain ⟨he, hq⟩ := step_everyone h
  cases w with
  | first => exact ⟨s, rfl⟩
  | engine k =>
    obtain ⟨e, hk, -⟩ := viewAt_engine.1 hv
    have hlt := (List.getElem?_eq_some_iff.1 hk).1
    rw [he] at hlt
    exact ⟨_, viewAt_engine.2 ⟨_, List.getElem?_eq_getElem hlt, rfl⟩⟩
  | queue k =>
    obtain ⟨q, hk, -⟩ := viewAt_queue.1 hv
    have hlt := (List.getElem?_eq_some_iff.1 hk).1
    rw [hq] at hlt
    exact ⟨_, viewAt_queue.2 ⟨_, List.getElem?_eq_getElem hlt, rfl⟩⟩

end Sys2Proof.Machine
end

