-- ==== Sys2Proof/Laws/Run.lean ====
section
/-! SUPPORT. Runs of several steps, taken apart at a step, what a waiting stimulus makes the next step,
and what the transfer engine can do in a phase. -/

namespace Sys2Proof.Machine

theorem run_succ {k : Nat} {s t : State} (h : step s = .next t) : core.run (k + 1) s = core.run k t := by
  have h' : core.step s = .next t := h
  simp only [Host.Core.run]
  rw [h']

theorem run_add {a b : Nat} {s t : State} (h : core.run a s = .next t) : core.run (a + b) s = core.run b t := by
  induction a generalizing s with
  | zero =>
    cases h
    rw [Nat.zero_add]
  | succ a ih =>
    rw [Nat.succ_add]
    simp only [Host.Core.run] at h
    split at h
    · next s' hs => exact (run_succ (k := a + b) hs).trans (ih h)
    · cases h
    · cases h

theorem step_of_byteAccess {s : State} {i : Nat} {rest : List Stimulus} (h : s.inbox = .byteAccess i :: rest) :
    step s = byteAccess i { s with inbox := rest } := by
  simp [step, stepOnce, h, perform]

/-- A step answers a next state only where no fatal condition is latched. -/
theorem step_next_live {s t : State} (h : step s = .next t) : s.fault = none := by
  obtain ⟨s0, hf, ⟨rest, k, rfl⟩, -⟩ := step_next h
  exact hf

/-! ## The transfer engine -/

/-- No more than `n` indices below `n` can have been accessed. -/
theorem accessed_length_le {l : List Nat} {n : Nat} (hr : l.Pairwise (· < ·)) (hw : ∀ i ∈ l, i < n) :
    l.length ≤ n := by
  have hd : l.Nodup := hr.imp Nat.ne_of_lt
  simpa using (List.subperm_of_subset hd fun i hi => List.mem_range.2 (hw i hi)).length_le

/-- With fewer than `n` bytes accessed one of the `n` is still to access. -/
theorem exists_not_accessed {l : List Nat} {n : Nat} (h : l.length < n) : ∃ i < n, i ∉ l := by
  by_contra hc
  push Not at hc
  have hle := (List.subperm_of_subset (List.nodup_range (n := n)) fun i hi => hc i (List.mem_range.1 hi)).length_le
  rw [List.length_range] at hle
  omega

/-- A byte of a transfer in flight that can be accessed, unless all have been. -/
theorem exists_outstanding {s : State} {snap : Snapshot} {segs : Segs} (hok : TransferOk s snap segs)
    (hb : BytesBacked s snap segs) (hl : s.accessed.length ≠ snap.size.toNat) :
    ∃ i ∈ outstanding s snap.size.toNat segs, i < snap.size.toNat ∧ i ∉ s.accessed ∧
      ∃ pa, segPa segs i = some pa ∧ hasMemory s.plat pa = true := by
  obtain ⟨i, hi, hni⟩ := exists_not_accessed (lt_of_le_of_ne (accessed_length_le hok.rising hok.within) hl)
  obtain ⟨pa, h1, h2⟩ := hb i hi
  exact ⟨i, by simp [outstanding, accessDue, hi, hni, h1, h2], hi, hni, pa, h1, h2⟩

/-- In an unobstructed phase the engine can step. -/
theorem exists_engineEvent {s : State} (hf : s.fault = none) (hi : EngineInv s) (hu : PhaseUnobstructed s)
    (hp : s.phase ≠ .none) : ∃ e ∈ engineEvents s, ∃ t, performLocal e s = .next t := by
  have hi := hi.2
  unfold PhaseUnobstructed at hu
  unfold engineEvents
  cases hph : s.phase with
  | none => exact absurd hph hp
  | readPending snap segs =>
    rw [hph] at hi hu
    by_cases hl : s.accessed.length = snap.size.toNat
    · exact ⟨.readDone, by simp [hl], _, exec_readDone_next.2 ⟨hf, snap, segs, hph, hl, hu.2, rfl⟩⟩
    · obtain ⟨i, h1, h2, h3, pa, h4, h5⟩ := exists_outstanding hi hu.1 hl
      refine ⟨.access i, by simp [hl, h1], readByte s i pa, ?_⟩
      simp only [performLocal, byteAccess, whenLive_of_live hf, hph]
      exact accessWith_next.2 ⟨h2, h3, pa, h4, h5, rfl⟩
  | writePending snap segs =>
    rw [hph] at hi hu
    by_cases hl : s.accessed.length = snap.size.toNat
    · exact ⟨.writeDone, by simp [hl], _, exec_writeDone_next.2 ⟨hf, snap, segs, hph, hl, rfl⟩⟩
    · obtain ⟨i, h1, h2, h3, pa, h4, h5⟩ := exists_outstanding hi hu hl
      refine ⟨.access i, by simp [hl, h1], writeByte s i pa, ?_⟩
      simp only [performLocal, byteAccess, whenLive_of_live hf, hph]
      exact accessWith_next.2 ⟨h2, h3, pa, h4, h5, rfl⟩

/-- An event of the transfer engine makes progress, unless it raises a fatal condition: one more byte accessed, or the
phase left. -/
theorem engineEvent_progress {l : Local} {v u : State} (hd : l ≠ .drain) (h : performLocal l v = .next u)
    (hl : u.fault = none) : u.phase ≠ v.phase ∨ u.accessed.length = v.accessed.length + 1 := by
  cases l with
  | access i =>
    right
    rcases byteAccess_next h with ⟨-, ⟨_, _, _, -, -, h3, -, -, rfl⟩ | ⟨_, _, _, -, -, h3, -, -, rfl⟩⟩ <;>
      exact length_insertIndex h3
  | readDone =>
    left
    obtain ⟨-, snap, segs, hp, -, -, rfl⟩ := exec_readDone_next.1 h
    rcases readDoneEffect_cases v snap with ⟨f, -, hd⟩ | ⟨dst, -, hd⟩
    · rw [hd] at hl
      cases hl
    · rw [hd, hp]
      nofun
  | writeDone =>
    left
    obtain ⟨-, snap, segs, hp, -, rfl⟩ := exec_writeDone_next.1 h
    rw [hp]
    nofun
  | drain => exact absurd rfl hd

/-- An event of `w`, at its view. -/
theorem stepFires_view {s t v : State} {w : Who} {l : Local} (hs : StepFires s w l) (h : step s = .next t)
    (hv : viewAt s w = some v) (hl : l ∈ engineEvents v ∨ l ∈ dueDrain v) :
    ∃ v0 v', (∃ rest k, v0 = { v with inbox := rest, draws := k }) ∧ performLocal l v0 = .next v' ∧
      viewAt t w = some v' := by
  obtain ⟨rest, k, hst⟩ := hs
  rw [h] at hst
  obtain ⟨v0, u, hv0, hu, rfl⟩ := performAt_next.1 hst.symm
  obtain ⟨rest', hv'⟩ := viewAt_congr (rest := rest) (k := k) hv
  rw [hv'] at hv0
  cases hv0
  obtain ⟨hd, hr, hw⟩ := mayPerform_of_event hv hl
  refine ⟨_, u, ⟨rest', k, rfl⟩, hu, viewAt_putAt (op := mayPerform w) (fun i hi => hi) hv' ?_⟩
  cases l with
  | access i => exact .inr (.inl ⟨i, hu⟩)
  | readDone => exact .inl ⟨.readDone, hr rfl, hu⟩
  | writeDone => exact .inl ⟨.writeDone, hw rfl, hu⟩
  | drain => exact .inl ⟨.drain, hd rfl, hu⟩

/-- What is asked for is what the step performs. -/
theorem asked_performs {s : State} {w : Who} {i : Instr} (ha : asked s = some (w, i)) :
    mayPerform w i ∧ ∃ rest, step s = performAt w (exec i) { s with inbox := rest } := by
  have hdec : ∀ {b : Nat} {r : Request} {f : Instr → Who},
      (decodeRequest b r).toOption.map (fun i => (f i, i)) = some (w, i) → decodeRequest b r = .ok i ∧ w = f i := by
    intro b r f hr
    cases hd : decodeRequest b r with
    | ok j =>
      rw [hd] at hr
      cases hr
      exact ⟨rfl, rfl⟩
    | error why =>
      rw [hd] at hr
      cases hr
  unfold asked at ha
  split at ha
  · next r rest hi =>
    obtain ⟨hd, rfl⟩ := hdec (f := fun _ => .first) ha
    refine ⟨trivial, rest, ?_⟩
    rw [performAt_first]
    simp only [step, stepOnce, hi, perform, runRequest, hd]
  · next k r rest hi =>
    obtain ⟨hd, rfl⟩ := hdec (f := performerOf k) ha
    refine ⟨mayPerform_performerOf k i, rest, ?_⟩
    have hb : baseOf { s with inbox := rest } k = baseOf s k := rfl
    simp only [step, stepOnce, hi, perform, performAct, hb, hd]
  · cases ha

/-- A drain that is asked for is the drain event. -/
theorem stepFires_of_asked {s : State} {w : Who} (ha : asked s = some (w, .drain)) : StepFires s w .drain := by
  obtain ⟨-, rest, h⟩ := asked_performs ha
  exact ⟨rest, s.draws, h⟩

/-- An operation asked for is performed by the one it is asked of, at its view. -/
theorem asked_step {s t v : State} {w : Who} {i : Instr} (ha : asked s = some (w, i)) (h : step s = .next t)
    (hv : viewAt s w = some v) : ∃ rest u, exec i { v with inbox := rest } = .next u ∧ viewAt t w = some u := by
  obtain ⟨hm, rest, hs⟩ := asked_performs ha
  rw [h] at hs
  obtain ⟨v0, u, hv0, hu, rfl⟩ := performAt_next.1 hs.symm
  obtain ⟨rest', hv'⟩ := viewAt_congr (rest := rest) (k := s.draws) hv
  have hd := (viewAt_shared hv).2.2.2.2
  rw [hv', ← hd] at hv0
  cases hv0
  exact ⟨rest', u, hu, viewAt_putAt (op := mayPerform w) (fun i hi => hi) (hv'.trans (by rw [hd])) (.inl ⟨i, hm, hu⟩)⟩

/-! ## What arrives between steps -/

/-- An arrival leaves every engine and queue as it was but for the stimuli and answers waiting. -/
theorem supplied_view {s t : State} (h : Supplied s t) (w : Who) :
    (viewAt s w = none ∧ viewAt t w = none) ∨
      ∃ v rest answers services queues, viewAt s w = some v ∧
        viewAt t w = some { v with
          inbox := rest, peerScript := answers, backendScript := services, otherQueues := queues } := by
  obtain ⟨stimuli, answers, services, queues, hall, rfl⟩ := h
  cases w with
  | first => exact .inr ⟨s, _, _, _, _, rfl, rfl⟩
  | engine k =>
    cases he : s.otherEngines[k]? with
    | none => exact .inl ⟨by simp [viewAt, he], by simp [viewAt, he]⟩
    | some e =>
      exact .inr ⟨engineView s e, [], [], [], [], viewAt_engine.2 ⟨e, he, rfl⟩, viewAt_engine.2 ⟨e, he, rfl⟩⟩
  | queue k =>
    by_cases hlt : k < s.otherQueues.length
    · have hlt' : k < queues.length := hall.length_eq ▸ hlt
      obtain ⟨a, b, hr⟩ := hall.get hlt hlt'
      refine .inr ⟨queueView s s.otherQueues[k], [], s.otherQueues[k].peerScript ++ a, s.otherQueues[k].backendScript ++ b,
        [], viewAt_queue.2 ⟨_, List.getElem?_eq_getElem hlt, rfl⟩,
        viewAt_queue.2 ⟨queues[k], List.getElem?_eq_getElem hlt', ?_⟩⟩
      rw [show queues[k] = _ from hr]
      rfl
    · have hlt' : ¬ k < queues.length := hall.length_eq ▸ hlt
      exact .inl ⟨by simp [viewAt, Nat.le_of_not_lt hlt], by simp [viewAt, Nat.le_of_not_lt hlt']⟩

/-- One step of a run and what arrives after it, at a view. -/
theorem run_view_next {run : Nat → State} (hr : IsRun run) {w : Who} {k : Nat} {v : State}
    (hk : viewAt (run k) w = some v) :
    ∃ t u rest answers services queues, step (run k) = .next t ∧ viewAt t w = some u ∧
      viewAt (run (k + 1)) w = some { u with
        inbox := rest, peerScript := answers, backendScript := services, otherQueues := queues } := by
  obtain ⟨t, ht, hs⟩ := hr k
  obtain ⟨v0, u, hu, -⟩ := step_view ht hk
  rcases supplied_view hs w with ⟨h, -⟩ | ⟨v, rest, answers, services, queues, h, h'⟩
  · rw [hu] at h
    cases h
  · rw [hu] at h
    cases h
    exact ⟨t, u, rest, answers, services, queues, ht, hu, h'⟩

/-- An engine or queue of a run has been there before. -/
theorem run_view_prev {run : Nat → State} (hr : IsRun run) {w : Who} {k : Nat} {v : State}
    (hk : viewAt (run (k + 1)) w = some v) : ∃ v, viewAt (run k) w = some v := by
  obtain ⟨t, ht, hs⟩ := hr k
  rcases supplied_view hs w with ⟨-, h⟩ | ⟨v, _, _, _, _, h, -⟩
  · rw [hk] at h
    cases h
  · exact viewAt_of_step ht h

/-- An engine or queue of a run is there all along. -/
theorem run_views {run : Nat → State} (hr : IsRun run) {w : Who} {k : Nat} {v : State}
    (hk : viewAt (run k) w = some v) : ∃ views : Nat → State, ∀ j, viewAt (run j) w = some (views j) := by
  have first : ∃ v, viewAt (run 0) w = some v := by
    induction k generalizing v with
    | zero => exact ⟨v, hk⟩
    | succ k ih =>
      obtain ⟨v, hv⟩ := run_view_prev hr hk
      exact ih hv
  have all : ∀ j, ∃ v, viewAt (run j) w = some v := by
    intro j
    induction j with
    | zero => exact first
    | succ j ih =>
      obtain ⟨v, hv⟩ := ih
      obtain ⟨_, _, _, _, _, _, -, -, h⟩ := run_view_next hr hv
      exact ⟨_, h⟩
  exact ⟨fun j => (all j).choose, fun j => (all j).choose_spec⟩

end Sys2Proof.Machine
end

