-- ==== Sys2Proof/Tests/Slice0.lean ====
section
/-! SUPPORT. The model's own tests: well-formedness, decoding of words written out from 30_encoding.md R101 and R110, one
step each of the vectors of 95_test_vectors.md, and for every obligation with hypotheses a state that meets them. -/

namespace Sys2Proof.Tests

open Sys2Proof.Machine

/-! ## Helper states -/

/-- A platform: window at 0x4000_0000, 4 KiB pages, memory below the window. -/
def plat : Platform := ⟨0x40000000, .processEmulation, 12, 64, [(0, 0x40000000)], [(0x80000000, 0x8000FFFF)]⟩

/-- The page table of 95_test_vectors.md section 2.5. -/
def vectorPages : PageTable := [(0x10, 0x7000), (0x11, 0x3000), (0x12, 0x4000), (0x20, 0x9000)]

/-- Identity on `[0x1000, 0x3000)` (T18). -/
def identityPages : PageTable := [(1, 0x1000), (2, 0x2000)]

/-- A state right after construction on that platform, at time 7, every byte of memory 0, with one engine and one
queue. -/
def start : State :=
  { State.reset with
    plat := plat, pageTable := identityPages, now := 7, mem := [], storage := [], otherEngines := [], otherQueues := [] }

/-- `start` with a second engine and a second queue. -/
def two : State :=
  { start with
    otherEngines := [.reset ⟨0x50000000, identityPages, []⟩]
    otherQueues := [.reset ⟨[(0x90000000, 0x9000FFFF)], []⟩] }

/-- `start` with a transfer set up. -/
def setup (src dst : U64) (size : U32) : State := { start with srcAddr := src, dstAddr := dst, size := size }

/-- One page of 2^64 bytes, mapped to itself. -/
def wide : Platform := { plat with pageBits := 64 }

/-- `setup` on it: every address is mapped. -/
def wideSetup (src dst : U64) (size : U32) : State := { setup src dst size with plat := wide, pageTable := [(0, 0)] }

/-- `start` in the mode in which the translator is not implemented. -/
def otherMode : State := { start with plat := { plat with mode := .other } }

/-- A packet. -/
def pkt (n : Nat) (needsResponse : Bool) : Packet := ⟨n, 4, false, [], needsResponse, needsResponse⟩

/-- The state a result leaves; `start` if it is none. -/
def after (r : Result) : State :=
  match r with
  | .next t => t
  | _ => start

/-- The result is a next state. -/
def completes (r : Result) : Bool :=
  match r with
  | .next _ => true
  | _ => false

/-- An operation given by a descriptor word. -/
def request (d : Word) (value : Nat) : Stimulus := .request (.word d (operandOfValue value))

/-- The same, of a further engine or queue. -/
def requestOf (k : Nat) (d : Word) (value : Nat) : Stimulus := .sibling k (.request (.word d (operandOfValue value)))

/-- A state after one stimulus. -/
def stimulated (e : Stimulus) (s : State) : State := after (step { s with inbox := [e] })

/-! ## Well-formedness: an ill-formed term for each check -/

theorem test_wf_refuses_width_4_src : (Instr.badwSrc .read 4).wf = false := by decide
theorem test_wf_refuses_width_8_dst : (Instr.badwDst .read 8).wf = false := by decide
theorem test_wf_refuses_width_4_size : (Instr.badwSize .read 4).wf = false := by decide
theorem test_wf_refuses_width_4_cmd : (Instr.badwCmd (.write 0) 4).wf = false := by decide
theorem test_wf_refuses_width_4_status : (Instr.badwStatus .read 4).wf = false := by decide
theorem test_wf_refuses_leaving_window : (Instr.badwSize .read 4089).wf = false := by decide
theorem test_wf_refuses_wide_value : (Instr.badwStatus (.write 0x100) 1).wf = false := by decide
theorem test_wf_refuses_register_offset : (Instr.rdUnmapped 0x10 4).wf = false := by decide
theorem test_wf_refuses_offset_past_window : (Instr.rdUnmapped 4096 0).wf = false := by decide
theorem test_wf_refuses_unmapped_wide_value : (Instr.wrUnmapped 0x20 4 0x100000000).wf = false := by decide
theorem test_wf_accepts_edges :
    (Instr.rdUnmapped 0xFFC 4).wf = true ∧ (Instr.badwSrc .read 4096).wf = true ∧
      (Instr.badwSrc .read 4096).fitsWord = false := by decide

/-! ## Decoding: `kind_dir_width_offset`, every constructor -/

/-- Reads and writes that hit a register. -/
theorem test_decode_hits :
    decodeWord 0b000_0_00000100_000000000000#24 (operandOfValue 0) = .ok .rdSrcLo ∧
    decodeWord 0b000_0_00001000_000000000000#24 (operandOfValue 0) = .ok .rdSrc ∧
    decodeWord 0b000_1_00000100_000000000000#24 (operandOfValue 0xDEADBEEF) = .ok (.wrSrcLo 0xDEADBEEF#32) ∧
    decodeWord 0b000_1_00001000_000000000000#24 (operandOfValue 0x100000000) = .ok (.wrSrc 0x100000000#64) ∧
    decodeWord 0b000_0_00000100_000000000100#24 (operandOfValue 0) = .ok .rdDstLo ∧
    decodeWord 0b000_0_00001000_000000000100#24 (operandOfValue 0) = .ok .rdDst ∧
    decodeWord 0b000_1_00000100_000000000100#24 (operandOfValue 0x2000) = .ok (.wrDstLo 0x2000#32) ∧
    decodeWord 0b000_1_00001000_000000000100#24 (operandOfValue 0x100000004) = .ok (.wrDst 0x100000004#64) ∧
    decodeWord 0b000_0_00000100_000000001000#24 (operandOfValue 0) = .ok .rdSize ∧
    decodeWord 0b000_1_00000100_000000001000#24 (operandOfValue 16) = .ok (.wrSize 16#32) ∧
    decodeWord 0b000_0_00000100_000000001100#24 (operandOfValue 0) = .ok .rdCmd ∧
    decodeWord 0b000_1_00000100_000000001100#24 (operandOfValue 1) = .ok (.wrCmd 1#32) ∧
    decodeWord 0b000_0_00000100_000000010000#24 (operandOfValue 0) = .ok .rdStatus ∧
    decodeWord 0b000_1_00000100_000000010000#24 (operandOfValue 2) = .ok (.wrStatus 2#32) :=
  ⟨rfl, rfl, rfl, rfl, rfl, rfl, rfl, rfl, rfl, rfl, rfl, rfl, rfl, rfl⟩

/-- Width mismatches and unmapped offsets (E5 to E10, M18 to M23). -/
theorem test_decode_falls :
    decodeWord 0b000_0_00000010_000000000000#24 (operandOfValue 0) = .ok (.badwSrc .read 2) ∧
    decodeWord 0b000_1_00000001_000000000100#24 (operandOfValue 0xFF) = .ok (.badwDst (.write 0xFF) 1) ∧
    decodeWord 0b000_0_00001000_000000001000#24 (operandOfValue 0) = .ok (.badwSize .read 8) ∧
    decodeWord 0b000_1_00001000_000000001100#24 (operandOfValue 1) = .ok (.badwCmd (.write 1) 8) ∧
    decodeWord 0b000_1_00000010_000000010000#24 (operandOfValue 7) = .ok (.badwStatus (.write 7) 2) ∧
    decodeWord 0b000_0_00000100_000000100000#24 (operandOfValue 0) = .ok (.rdUnmapped 0x20 4) ∧
    decodeWord 0b000_1_00000100_000000000010#24 (operandOfValue 0xFFFFFFFF) =
      .ok (.wrUnmapped 0x02 4 0xFFFFFFFF) :=
  ⟨rfl, rfl, rfl, rfl, rfl, rfl, rfl⟩

/-- Events and internal steps. -/
theorem test_decode_events :
    decodeWord 0b001_0_00000000_000000000000#24 { operandOfValue 0 with pkt := pkt 9 true } =
      .ok (.submit (pkt 9 true)) ∧
    decodeWord 0b010_0_00000000_000000000000#24 (operandOfValue 0) = .ok .drain ∧
    decodeWord 0b011_0_00000000_000000000000#24 (operandOfValue 0) = .ok .peerReady ∧
    decodeWord 0b100_0_00000000_000000000000#24 (operandOfValue 0) = .ok .readDone ∧
    decodeWord 0b101_0_00000000_000000000000#24 (operandOfValue 0) = .ok .writeDone ∧
    decodeWord 0b110_0_00000000_000000000000#24 (operandOfValue 0) = .ok .rangeQuery ∧
    decodeWord 0b111_0_00000000_000000000000#24 (operandOfValue 0) = .ok .start ∧
    decodeWord 0b111_0_00000000_000000000001#24 { operandOfValue 0 with va := 0x10010, n := 16 } =
      .ok (.translate 0x10010#64 16) ∧
    decodeWord 0b111_0_00000000_000000000010#24 (operandOfValue 0) = .ok .tryDeliver :=
  ⟨rfl, rfl, rfl, rfl, rfl, rfl, rfl, rfl, rfl⟩

/-- What the decoder rejects: E11, a sub-step with no row, an address outside the window. -/
theorem test_decode_rejects :
    decodeWord 0b000_0_00000100_111111111101#24 (operandOfValue 0) = .error .outOfWindow ∧
    decodeWord 0b111_0_00000000_000000000011#24 (operandOfValue 0) = .error (.reservedSubstep 3) ∧
    decodeAddress 0x40000000 .read 0x3FFFFFFC 4 = .error .outOfWindow ∧
    decodeAddress 0x40000000 .read 0x40001000 4 = .error .outOfWindow :=
  ⟨rfl, rfl, rfl, rfl⟩

/-- A payload's first byte is the least significant (20_memory.md R65). -/
theorem test_decode_payload :
    decodeRequest 0x40000000 (.payload 0x40000008 [0x10, 0, 0, 0x80]) = .ok (.wrSize 0x80000010#32) := rfl

/-- An access wider than a descriptor word can say (30_encoding.md R115). -/
theorem test_decode_wide_access :
    decodeRequest 0x40000000 (.access .read 0x40000000 300) = .ok (.badwSrc .read 300) := rfl

/-- Table bits above the descriptor word are the write value. -/
theorem test_decode_table_word :
    decodeTableWord 24 0x004010 = some .rdStatus ∧ decodeTableWord 56 (0x10400C + 3 * 2 ^ 24) = some (.wrCmd 3) :=
  ⟨rfl, rfl⟩

/-! ## From reset -/

/-- The operation placed is the very next one performed (M1). -/
theorem test_reset_reads_zero :
    step (State.reset.withFetchWord 24 0x008000) = exec .rdSrc State.reset ∧
      exec .rdSrc State.reset = .next { State.reset with outputs := [.response (Config.startTime + 10) (.dword 0)] } :=
  ⟨rfl, rfl⟩

/-- A trigger's write value stands above the descriptor word. -/
theorem test_reset_runs_write :
    step (State.reset.withFetchWord 56 (0x104008 + 16 * 2 ^ 24)) = exec (.wrSize 16) State.reset := rfl

/-- With nothing in the inbox time passes. -/
theorem test_idle_ticks : step start = .next { start with now := 8 } := rfl

/-! ## Register File & Decoder (95_test_vectors.md section 2.2) -/

/-- M3 before its reads. -/
def m3 : State := { start with srcAddr := 0x1122334455667788 }

/-- The outputs and the log an operation leaves. -/
def said (r : Result) : List Output × List Warning := ((after r).outputs, (after r).log)

theorem test_rd_src_lo : said (exec .rdSrcLo m3) = ([.response 17 (.word 0x55667788)], []) := by decide
theorem test_rd_src : said (exec .rdSrc m3) = ([.response 17 (.dword 0x1122334455667788)], []) := by decide
theorem test_wr_src_lo_keeps_high :
    (after (exec (.wrSrcLo 0xDEADBEEF) m3)).srcAddr = 0x11223344DEADBEEF := by decide
theorem test_wr_src : (after (exec (.wrSrc 0x1122334455667788) start)).srcAddr = m3.srcAddr := by decide
theorem test_rd_dst_lo :
    said (exec .rdDstLo { start with dstAddr := 0xFFFFFFFFFFFFFFFF }) = ([.response 17 (.word 0xFFFFFFFF)], []) := by
  decide
theorem test_rd_dst : said (exec .rdDst m3) = ([.response 17 (.dword 0)], []) := by decide
theorem test_wr_dst_lo_keeps_high :
    (after (exec (.wrDstLo 4) { start with dstAddr := 0x100000000 })).dstAddr = 0x100000004 := by decide
theorem test_wr_dst_leaves_size :
    (after (exec (.wrDst 0xFFFFFFFFFFFFFFFF) (setup 0 0 16))).dstAddr = 0xFFFFFFFFFFFFFFFF ∧
      (after (exec (.wrDst 0xFFFFFFFFFFFFFFFF) (setup 0 0 16))).size = 16 := by decide
theorem test_rd_size : said (exec .rdSize (setup 0 0 0xFFFFFFFF)) = ([.response 17 (.word 0xFFFFFFFF)], []) := by decide
theorem test_wr_size : (after (exec (.wrSize 0xFFFFFFFF) start)).size = 0xFFFFFFFF := by decide
theorem test_rd_cmd :
    said (exec .rdCmd { start with command := 0xFFFFFFFE }) = ([.response 17 (.word 0xFFFFFFFE)], []) := by decide

/-- M8: bit 0 clear starts nothing. -/
theorem test_wr_cmd_no_trigger :
    (after (exec (.wrCmd 0xFFFFFFFE) (setup 0x1000 0x2000 4))).command = 0xFFFFFFFE ∧
      (after (exec (.wrCmd 0xFFFFFFFE) (setup 0x1000 0x2000 4))).phase = .none := by decide

/-- M9: bit 0 set starts. -/
theorem test_wr_cmd_trigger :
    (after (exec (.wrCmd 0xFFFFFFFF) (setup 0x1000 0x2000 4))).status = 1 ∧
      (after (exec (.wrCmd 0xFFFFFFFF) (setup 0x1000 0x2000 4))).phase =
        .readPending ⟨0x1000, 0x2000, 4⟩ [(0x1000, 4)] := by decide

theorem test_rd_status : said (exec .rdStatus { start with status := 2 }) = ([.response 17 (.word 2)], []) := by decide

/-- M14. -/
theorem test_wr_status : (after (exec (.wrStatus 7) start)).status = 7 := by decide

/-- M18 to M22. -/
theorem test_badw :
    (after (exec (.badwSrc .read 2) start)).fault = some (.badWidth .srcAddr 2) ∧
      (after (exec (.badwDst (.write 0xFF) 1) start)).fault = some (.badWidth .dstAddr 1) ∧
      (after (exec (.badwSize .read 8) start)).fault = some (.badWidth .size 8) ∧
      (after (exec (.badwCmd (.write 1) 8) start)).fault = some (.badWidth .command 8) ∧
      (after (exec (.badwStatus .read 1) start)).fault = some (.badWidth .status 1) := by decide

/-- M24. -/
theorem test_rd_unmapped :
    said (exec (.rdUnmapped 0x20 4) start) = ([.response 17 (.zero 4)], [.unmappedOffset .read 0x20 4]) := by decide

/-- P5 line 2. -/
theorem test_wr_unmapped :
    said (exec (.wrUnmapped 0x0E 1 1) start) = ([.response 17 .done], [.unmappedOffset .write 0x0E 1]) := by decide

/-! ## Transfer Controller (section 2.3) -/

/-- T8: the range ends exactly at 2^64. -/
theorem test_start_top :
    (after (exec .start (wideSetup 0xFFFFFFFFFFFFFFF0 0 16))).phase =
      .readPending ⟨0xFFFFFFFFFFFFFFF0, 0, 16⟩ [(0xFFFFFFFFFFFFFFF0, 16)] := by decide

/-- T6. -/
theorem test_start_overrun :
    (after (exec .start (setup 0x1000 0x2000 1048577))).fault = some (.stagingOverrun 1048577) := by decide

/-- A read phase of `size` bytes, all read. -/
def readDoneState (dst : U64) : State :=
  { start with status := 1, phase := .readPending ⟨0x1000, dst, 2⟩ [(0x1000, 2)], accessed := [0, 1],
               stg := [(0, 0xA0), (1, 0xA1)] }

/-- T1. -/
theorem test_read_done :
    (after (exec .readDone (readDoneState 0x2000))).phase = .writePending ⟨0x1000, 0x2000, 2⟩ [(0x2000, 2)] := by decide

/-- T18. -/
theorem test_read_done_fault :
    (after (exec .readDone (readDoneState 0x2FFF))).fault = some (.translationFault 0x3000) := by decide

/-- M17: STATUS is 2 whatever it held. -/
theorem test_write_done :
    (after (exec .writeDone { start with phase := .writePending ⟨0, 0, 0⟩ [] })).status = 2 := by decide

/-- T17. -/
theorem test_write_done_not_enabled : exec .writeDone (readDoneState 0x2000) = .refused .writeDoneNotEnabled := rfl

/-- One byte of a read phase and one of a write phase. -/
theorem test_byte_accesses :
    (after (byteAccess 1 { start with mem := [(0x1001, 0xA1)], phase := .readPending ⟨0x1000, 0x2000, 2⟩ [(0x1000, 2)] })).stg
        = [(1, 0xA1)] ∧
      (after (byteAccess 1 { start with stg := [(1, 0xA1)], phase := .writePending ⟨0x1000, 0x2000, 2⟩ [(0x2000, 2)] })).mem
        = [(0x2001, 0xA1)] := by decide

/-! ## Response Queue (section 2.4) -/

/-- A backend that answers after `latency`, having filled in the data read and stored a byte. -/
def served (latency : Time) (p : Packet) : Served := ⟨latency, { p with payload := [0xAB] }, [(4, 0xCD)]⟩

/-- Q1, the submission: the packet is queued as the backend left it (42_response_queue.md R200). -/
theorem test_submit :
    (after (exec (.submit (pkt 1 true)) { start with now := 5, backendScript := [served 0 (pkt 1 true)] })).queue =
        [⟨{ pkt 1 true with payload := [0xAB] }, 5⟩] ∧
      (after (exec (.submit (pkt 1 true)) { start with now := 5, backendScript := [served 0 (pkt 1 true)] })).drainAt =
        some 5 := by decide

/-- Q2: the access has its effect on the backend all the same (R216). -/
theorem test_submit_no_response :
    (after (exec (.submit (pkt 1 false)) { start with backendScript := [served 9 (pkt 1 false)] })).queue = [] ∧
      (after (exec (.submit (pkt 1 false)) { start with backendScript := [served 9 (pkt 1 false)] })).storage = [(4, 0xCD)] ∧
      (after (exec (.submit (pkt 1 false)) { start with backendScript := [served 9 (pkt 1 false)] })).outputs =
        [.serviced (pkt 1 false) 9 { pkt 1 false with payload := [0xAB] }, .accepted (pkt 1 false)] := by decide

/-- Two packets waiting at 60, the second ready at 25 (Q3). -/
def q3 (answers : List Bool) : State :=
  { start with now := 60, queue := [⟨pkt 1 true, 60⟩, ⟨pkt 2 true, 25⟩], drainAt := some 60, peerScript := answers }

theorem test_drain_accept :
    (after (exec .drain (q3 [true]))).outputs = [.delivered (pkt 1 true) 60] ∧
      (after (exec .drain (q3 [true]))).drainAt = some 61 := by decide

theorem test_drain_refuse :
    (after (exec .drain (q3 [false]))).queue = (q3 []).queue ∧ (after (exec .drain (q3 [false]))).retry = true ∧
      (after (exec .drain (q3 [false]))).drainAt = none := by decide

theorem test_try_deliver :
    (after (exec .tryDeliver { q3 [true] with drainAt := none })).queue = [⟨pkt 2 true, 25⟩] := by decide

/-- P3 line 5. -/
theorem test_peer_ready :
    (after (exec .peerReady { q3 [true] with drainAt := none, retry := true, now := 150 })).outputs =
        [.delivered (pkt 1 true) 150] ∧
      (after (exec .peerReady { q3 [true] with drainAt := none, retry := true, now := 150 })).drainAt = some 151 := by
  decide

/-- Q6. -/
theorem test_peer_ready_spurious : (after (exec .peerReady start)).fault = some .spuriousPeerReady := by decide

/-! ## Address Translator (section 2.5) -/

/-- X2. -/
theorem test_translate :
    (after (exec (.translate 0x10FF8 16) { start with pageTable := vectorPages })).outputs =
      [.segments [(0x7FF8, 8), (0x3000, 8)]] := by decide

/-- X6. -/
theorem test_translate_fault :
    (after (exec (.translate 0x12FF8 16) { start with pageTable := vectorPages })).fault =
      some (.translationFault 0x13000) := by decide

/-- X9. -/
theorem test_range_query : said (exec .rangeQuery start) = ([.ranges [(0x40000000, 0x40000FFF)]], []) := by decide

/-! ## Further engines and queues (60_exceptions.md R281) -/

/-- A fatal condition of the second engine is the machine's, and what it logs stands in the one log. -/
theorem test_sibling_engine_is_shared :
    (stimulated (requestOf 0 0x002000#24 0) two).fault = some (.badWidth .srcAddr 2) ∧
      (stimulated (requestOf 0 0x004020#24 0) two).log = [.unmappedOffset .read 0x20 4] ∧
      (stimulated (requestOf 0 0x004020#24 0) two).outputs = [] := by decide

/-- A register write of the second engine is its own. -/
theorem test_sibling_engine_is_apart :
    (viewAt (stimulated (requestOf 0 0x104008#24 16) two) (.engine 0)).map State.size = some 16 ∧
      (stimulated (requestOf 0 0x104008#24 16) two).size = 0 := by decide

/-- A packet submitted to the second queue waits there. -/
theorem test_sibling_queue_is_apart :
    (stimulated (.sibling 0 (.request (.word 0x200000#24 { operandOfValue 0 with pkt := pkt 9 true }))) two).queue = [] ∧
      (viewAt (stimulated (.sibling 0 (.request (.word 0x200000#24 { operandOfValue 0 with pkt := pkt 9 true }))) two)
        (.queue 0)).map (fun v => v.queue.length) = some 1 :=
  ⟨rfl, rfl⟩

/-- The second engine answers a range query with its own window, the second queue's port with its backend's ranges
(43_address_translator.md R248). -/
theorem test_sibling_ranges :
    (viewAt (stimulated (requestOf 0 0xC00000#24 0) two) (.engine 0)).map State.outputs =
        some [.ranges [(0x50000000, 0x50000FFF)]] ∧
      (viewAt (stimulated (.sibling 0 .queuePortQuery) two) (.queue 0)).map State.outputs =
        some [.ranges [(0x90000000, 0x9000FFFF)]] := by decide

/-- There is no third engine and no third queue. -/
theorem test_sibling_refusals :
    step { two with inbox := [requestOf 1 0x004010#24 0] } = .refused (.noSuch (.engine 1)) ∧
      step { two with inbox := [requestOf 1 0x600000#24 0] } = .refused (.noSuch (.queue 1)) := ⟨rfl, rfl⟩

/-- A packet that waits in the second queue keeps the machine from being quiescent (70_reset_and_hazards.md R332). -/
theorem test_quiescent :
    two.quiescent ∧
      ¬ State.quiescent { two with otherQueues := [{ Queue.reset ⟨[], []⟩ with queue := [⟨pkt 1 true, 7⟩] }] } := by
  refine ⟨⟨rfl, fun w v h => ?_⟩, fun h => ?_⟩
  · match w, h with
    | .first, rfl => exact ⟨rfl, rfl, nofun⟩
    | .engine 0, rfl => exact ⟨rfl, rfl, nofun⟩
    | .queue 0, rfl => exact ⟨rfl, rfl, nofun⟩
    | .engine (k + 1), h => cases h
    | .queue (k + 1), h => cases h
  · exact absurd (h.2 (.queue 0) _ rfl).2.1 (List.cons_ne_nil _ _)

/-- The pseudo-operation's descriptor words (P4 lines 1 to 4). -/
theorem test_dma_copy :
    dmaCopy 0x100000000 0x100000004 8 =
      [request 0x108000#24 0x100000000, request 0x108004#24 0x100000004, request 0x104008#24 8,
       request 0x10400C#24 1] := by decide

/-- The trigger comes only after the three writes, which are in any order; nothing is left after it (R117). -/
theorem test_dma_copy_order :
    nextOps (.dmaCopy 1 2 3) [(.wrSize 3, .done)] = [.wrSrc 1, .wrDst 2] ∧
      nextOps (.dmaCopy 1 2 3) [(.wrSrc 1, .done), (.wrDst 2, .done), (.wrSize 3, .done)] = [.wrCmd 1] ∧
      nextOps (.dmaCopy 1 2 3) [(.wrCmd 1, .done), (.wrSrc 1, .done), (.wrDst 2, .done), (.wrSize 3, .done)] = [] := by
  decide

/-- Polling goes on after 1 and ends after 2 (R117). -/
theorem test_poll_until_complete :
    nextOps .pollComplete [] = [.rdStatus] ∧ nextOps .pollComplete [(.rdStatus, .word 1)] = [.rdStatus] ∧
      nextOps .pollComplete [(.rdStatus, .word 2), (.rdStatus, .word 1)] = [] := by decide

/-- The low word written is the one just read (R117). -/
theorem test_write_src_high :
    nextOps (.writeSrcHigh 0x11223344) [] = [.rdSrc] ∧
      nextOps (.writeSrcHigh 0x11223344) [(.rdSrc, .dword 0xFFFFFFFFDEADBEEF)] = [.wrSrc 0x11223344DEADBEEF] := by
  decide

/-- A list of bytes describes memory in any order, a zero byte included (log entry 7). -/
theorem test_memory_of :
    memoryOf [(0x1001, 5), (0x1002, 0), (0x1000, 7), (0x1001, 6)] = [(0x1000, 7), (0x1001, 5)] := by decide

/-! ## Witnesses: for every obligation with hypotheses, states and operands that meet them, each clause at its edge -/

/-- The address space on `wide` is mapped to itself. -/
theorem wide_maps (v : Nat) (h : v < 2 ^ 64) : ptMap (pageSize wide) [(0, 0)] v = some v := by
  have hp : pageSize wide = 2 ^ 64 := rfl
  have hd : v / pageSize wide = 0 := Nat.div_eq_of_lt (hp ▸ h)
  have hm : v % pageSize wide = v := Nat.mod_eq_of_lt (hp ▸ h)
  rw [ptMap, if_pos h, hd, hm]
  simp [pageLookup]

/-- A range of `wide` below the window is mapped outside the window. -/
theorem wide_outside (s : State) (va : U64) (n : U32) (hp : s.plat = wide) (ht : s.pageTable = [(0, 0)])
    (h : va.toNat + n.toNat ≤ 0x40000000) : MappedOutside s va n := by
  intro i hi
  refine ⟨va.toNat + i, ?_, ?_⟩
  · rw [hp, ht]; exact wide_maps _ (by omega)
  · rw [hp]
    have hlt : ¬ 0x40000000 ≤ va.toNat + i := by omega
    simp only [inMmioWindow, show wide.base = 0x40000000 from rfl, hlt, decide_false, Bool.false_and]

theorem witness_DecodeOfEncodeWord :
    (Instr.rdUnmapped 0xF01 255).wf = true ∧ (Instr.rdUnmapped 0xF01 255).fitsWord = true ∧
      (Instr.badwStatus (.write 0) 0).wf = true ∧ (Instr.badwStatus (.write 0) 0).fitsWord = true ∧
      (Instr.wrDst 0xFFFFFFFFFFFFFFFF).wf = true ∧ (Instr.wrDst 0xFFFFFFFFFFFFFFFF).fitsWord = true := by
  simp [Instr.wf, Instr.fitsWord, isRegOffset, inWindow, Config.windowSize, Access.fits]

theorem witness_DecodeOfEncodeRequest : (Instr.badwSrc .read 4096).wf = true ∧ (Instr.rdUnmapped 4095 1).wf = true := by
  decide

theorem witness_DecodedIsWellFormed :
    decodeRequest 0x40000000 (.access .read 0x40000000 4096) = .ok (.badwSrc .read 4096) := rfl

theorem witness_DecodedAccessKeepsEveryField :
    decodeAccess (.write 0x1FF) 0x0E 1 = .ok (.wrUnmapped 0x0E 1 0xFF) ∧
      decodeAccess (.write (2 ^ 64)) 0 8 = .ok (.wrSrc 0) := ⟨rfl, rfl⟩

theorem witness_StepPerformsDecodedOperation :
    (State.reset.withFetchWord 24 0x008000).inbox = .request (.word 0x008000#24 (operandOfValue 0)) :: [] ∧
      decodeRequest State.reset.plat.base (.word 0x008000#24 (operandOfValue 0)) = .ok .rdSrc := ⟨rfl, rfl⟩

/-- The second engine performs an operation and refuses one; the second queue performs one; there is no third engine. -/
theorem witness_StepPerformsDecodedOperation_sibling :
    baseOf two 0 = 0x50000000 ∧ decodeRequest (baseOf two 0) (.access .read 0x50000000 8) = .ok .rdSrc ∧
      performerOf 0 .rdSrc = .engine 0 ∧ performerOf 0 (.submit (pkt 1 true)) = .queue 0 ∧
      (∃ v, viewAt two (.engine 0) = some v ∧ completes (exec .rdSrc v) = true ∧
        exec .writeDone v = .refused .writeDoneNotEnabled) ∧
      (∃ v, viewAt two (.queue 0) = some v ∧ completes (exec (.submit (pkt 1 true)) v) = true) ∧
      viewAt two (performerOf 1 .rdSrc) = none ∧ two.fault = none :=
  ⟨rfl, rfl, rfl, rfl, ⟨_, rfl, rfl, rfl⟩, ⟨_, rfl, rfl⟩, rfl, rfl⟩

theorem witness_StepRefusesUndecodable :
    start.fault = none ∧
      decodeRequest start.plat.base (.access .read 0x40000FFD 4) = .error .outOfWindow ∧
      decodeRequest start.plat.base (.word 0xE00003#24 (operandOfValue 0)) = .error (.reservedSubstep 3) :=
  ⟨rfl, rfl, rfl⟩

theorem witness_IdleStepRunsEnabledEvent :
    start.fault = none ∧ start.inbox = [] ∧ start.phase = .none ∧ start.drainAt = none ∧
      (q3 []).fault = none ∧ (q3 []).inbox = [] ∧ (q3 []).phase = .none ∧ (q3 []).drainAt = some (q3 []).now ∧
      (∀ e ∈ two.otherEngines, e.phase = .none) ∧ ∀ q ∈ two.otherQueues, ∀ d, q.drainAt = some d → two.now < d := by
  refine ⟨rfl, rfl, rfl, rfl, rfl, rfl, rfl, rfl, ?_, ?_⟩ <;> simp [two, Queue.reset, Engine.reset]

/-- For every statement whose one hypothesis on the state is that no fatal condition is latched. -/
theorem witness_no_fault : start.fault = none ∧ State.reset.fault = none := ⟨rfl, rfl⟩

theorem witness_AddressWritesStore_frame :
    completes (exec (.wrSrcLo 0xFFFFFFFF) start) = true ∧ (∀ w, Instr.wrSrcLo 0xFFFFFFFF ≠ .wrSrc w) ∧
      completes (exec (.wrDstLo 0) start) = true ∧ (∀ w, Instr.wrDstLo 0 ≠ .wrDst w) :=
  ⟨rfl, nofun, rfl, nofun⟩

theorem witness_CommandWriteWithoutTriggerStores : start.fault = none ∧ (0xFFFFFFFE#32).getLsbD 0 = false := by decide

theorem witness_TriggerWhileBusyOnlyWarns :
    (readDoneState 0).fault = none ∧ (3#32).getLsbD 0 = true ∧ (readDoneState 0).status = 1 := by decide

/-- T5 and T11: the largest size, and the empty range at the top address. -/
theorem witness_TriggerBeginsTransfer :
    ∀ s ∈ [wideSetup 0 0xFFFFFFFFFFF00000 0x100000, wideSetup 0xFFFFFFFFFFFFFFFF 0xFFFFFFFFFFFFFFFF 0],
      s.fault = none ∧ (1#32).getLsbD 0 = true ∧ s.status ≠ 1 ∧ s.phase = .none ∧ TriggerInBounds s ∧
        s.plat.mode = .processEmulation ∧ MappedOutside s s.srcAddr s.size := by
  intro s hs
  rcases List.mem_cons.1 hs with rfl | hs
  · exact ⟨rfl, by decide, by decide, rfl, ⟨by decide, by decide, by decide⟩, rfl,
      wide_outside _ _ _ rfl rfl (by decide)⟩
  · obtain rfl := List.mem_singleton.1 hs
    exact ⟨rfl, by decide, by decide, rfl, ⟨by decide, by decide, by decide⟩, rfl, fun i hi => absurd hi (Nat.not_lt_zero i)⟩

theorem witness_WidthMismatchLatchesBadWidth :
    (0x003000#24 &&& 0xE00FFF#24 = 0x000000#24 ∧ (fieldsOf 0x003000#24).width ≠ 4 ∧ (fieldsOf 0x003000#24).width ≠ 8) ∧
    (0x1FF004#24 &&& 0xE00FFF#24 = 0x000004#24 ∧ (fieldsOf 0x1FF004#24).width ≠ 4 ∧ (fieldsOf 0x1FF004#24).width ≠ 8) ∧
    (0x008008#24 &&& 0xE00FFF#24 = 0x000008#24 ∧ (fieldsOf 0x008008#24).width ≠ 4) ∧
    (0x10800C#24 &&& 0xE00FFF#24 = 0x00000C#24 ∧ (fieldsOf 0x10800C#24).width ≠ 4) ∧
    (0x000010#24 &&& 0xE00FFF#24 = 0x000010#24 ∧ (fieldsOf 0x000010#24).width ≠ 4) := by decide

/-- An access at a register's offset with an illegal width waits. -/
def illegal (offset width : Nat) : State :=
  { start with inbox := [.request (.access .read (start.plat.base + offset) width)] }

theorem witness_IllegalWidthAccessIsFatal :
    ∀ c ∈ [(0x00, 0), (0x00, 4096), (0x04, 16), (0x04, 4092), (0x08, 8), (0x08, 4088), (0x0C, 5), (0x0C, 4084), (0x10, 3),
        (0x10, 4080)],
      (illegal c.1 c.2).fault = none ∧ c.1 + c.2 ≤ 4096 ∧ c.2 ≠ 4 ∧ (c.1 ≤ 4 → c.2 ≠ 8) ∧
        (illegal c.1 c.2).inbox = .request (.access .read ((illegal c.1 c.2).plat.base + c.1) c.2) :: [] := by
  decide

theorem witness_UnmappedAccessWarns :
    ∀ c ∈ [(0x01, 1), (0x0F, 0), (0x11, 4079), (4095, 1)],
      c.1 < 4096 ∧ c.1 + c.2 ≤ 4096 ∧ c.1 ≠ 0x00 ∧ c.1 ≠ 0x04 ∧ c.1 ≠ 0x08 ∧ c.1 ≠ 0x0C ∧ c.1 ≠ 0x10 := by decide

/-- E10 and E9. -/
theorem witness_UnmappedAccessWarns_words :
    (fieldsOf 0x004FFC#24).kind = 0#3 ∧ (fieldsOf 0x004FFC#24).dir = 0#1 ∧
      (fieldsOf 0x004FFC#24).offset.toNat + (fieldsOf 0x004FFC#24).width.toNat = 4096 ∧
      (fieldsOf 0x104002#24).kind = 0#3 ∧ (fieldsOf 0x104002#24).dir = 1#1 ∧ (fieldsOf 0x104002#24).offset = 0x02 := by
  decide

/-- A transfer whose source lies in the window waits for its trigger. -/
def touching : State := wideSetup 0x40000000 0 1

/-- All three outcomes occur. -/
theorem witness_EveryAccessRespondsOnce :
    start.fault = none ∧ (accessOf (.wrCmd 1)).isSome = true ∧
      (after (exec (.wrCmd 1) (setup 0x1000 0x2000 16))).outputs = [.response 17 .done] ∧
      (after (exec (.wrCmd 1) (setup 0x1000 0x2000 1048577))).fault = some (.stagingOverrun 1048577) ∧
      exec (.wrCmd 1) touching = .refused .touchesWindow := ⟨rfl, rfl, by decide, by decide, rfl⟩

theorem witness_StartIssuesReadPhase : ∃ s : State, s.fault = none ∧ s.status ≠ 1 ∧ s.phase = .none ∧
    TriggerInBounds s ∧ s.plat.mode = .processEmulation ∧ MappedOutside s s.srcAddr s.size :=
  ⟨wideSetup 0x3FF00000 0xFFFFFFFFFFF00000 0x100000, rfl, by decide, rfl, ⟨by decide, by decide, by decide⟩, rfl,
    wide_outside _ _ _ rfl rfl (by decide)⟩

/-- M16, T6, T9, T10, T12, T19. -/
theorem witness_StartFatalConditionsInOrder :
    StartFatal { readDoneState 0 with status := 0 } .overlappingTransfer ∧
    StartFatal (setup 0x1000 0x2000 1048577) (.stagingOverrun 1048577) ∧
    StartFatal (setup 0xFFFFFFFFFFFFFFF0 0 17) (.addressWrap ⟨0xFFFFFFFFFFFFFFF0, 0, 17⟩) ∧
    StartFatal (setup 0x1000 0xFFFFFFFFFFFFFFFF 2) (.addressWrap ⟨0x1000, 0xFFFFFFFFFFFFFFFF, 2⟩) ∧
    StartFatal otherMode .translationUnsupported ∧
    StartFatal (setup 0x2FF8 0x1000 16) (.translationFault 0x3000) ∧
    (setup 0x2FF8 0x1000 16).fault = none ∧ (setup 0x2FF8 0x1000 16).status ≠ 1 := by
  refine ⟨.overlapping (by decide), .overrun (s := setup 0x1000 0x2000 1048577) rfl (by decide),
    .wrap (s := setup 0xFFFFFFFFFFFFFFF0 0 17) rfl (by decide) (.inl (by decide)),
    .wrap (s := setup 0x1000 0xFFFFFFFFFFFFFFFF 2) rfl (by decide) (.inr (by decide)),
    .unsupported rfl ⟨by decide, by decide, by decide⟩ rfl,
    .unmapped rfl ⟨by decide, by decide, by decide⟩ rfl 0x3000 ⟨8, by decide, by decide, by decide, by decide⟩,
    rfl, by decide⟩

theorem witness_ReadDoneIssuesWritePhase :
    (readDoneState 0x2FFF).fault = none ∧ (readDoneState 0x2FFF).phase = .readPending ⟨0x1000, 0x2FFF, 2⟩ [(0x1000, 2)] ∧
      (readDoneState 0x2FFF).accessed.length = (2 : U32).toNat ∧ (readDoneState 0x2FFF).plat.mode = .processEmulation ∧
      LowestUnmapped (readDoneState 0x2FFF) 0x2FFF 2 0x3000 ∧ MappedOutside (readDoneState 0x2FFE) 0x2FFE 2 := by
  refine ⟨rfl, rfl, rfl, rfl, ⟨1, by decide, by decide, by decide, by decide⟩, ?_⟩
  intro i hi
  have hi : i < 2 := hi
  exact ⟨0x2FFE + i, by interval_cases i <;> decide, by interval_cases i <;> decide⟩

theorem witness_WriteDoneCompletes :
    ({ readDoneState 0 with phase := .writePending ⟨0x1000, 0, 2⟩ [(0x2000, 2)] } : State).fault = none ∧
      (readDoneState 0).accessed.length = (2 : U32).toNat := ⟨rfl, rfl⟩

/-- One byte of two read; one byte of two written; a drain one unit early; a trigger's test met; a pending retry. -/
theorem witness_EventsNotEnabledAreRefused :
    (∀ snap segs, ({ readDoneState 0 with accessed := [0] } : State).phase = .readPending snap segs →
      [0].length ≠ snap.size.toNat) ∧
    (∀ snap segs, ({ readDoneState 0 with phase := .writePending ⟨0, 0, 1⟩ [], accessed := [] } : State).phase =
      .writePending snap segs → ([] : List Nat).length ≠ snap.size.toNat) ∧
    ({ q3 [] with now := 59 } : State).drainAt ≠ some ({ q3 [] with now := 59 } : State).now ∧
    (readDoneState 0).status = 1 ∧ (q3 []).drainAt ≠ none := by
  refine ⟨?_, ?_, by decide, rfl, by decide⟩
  · intro snap segs h; cases h; decide
  · intro snap segs h; cases h; decide

theorem witness_ByteAccessMovesOneByte :
    start.fault = none ∧ 1 < (2 : U32).toNat ∧ segPa [(0x1000, 2)] 1 = some 0x1001 ∧
      (1 : Nat) ∉ ([0] : List Nat) ∧ (1 : Nat) ∈ ([0, 1] : List Nat) ∧ hasMemory plat 0x1001 = true ∧
      hasMemory plat 0x3FFFFFFF = true ∧ hasMemory plat 0x40000000 = false := by decide

/-- A read phase of two bytes, accessed in falling order. -/
def reading : State :=
  { start with phase := .readPending ⟨0x1000, 0x1001, 2⟩ [(0x1000, 2)], status := 1, mem := [(0x1000, 1), (0x1001, 2)],
               inbox := [.byteAccess 1, .byteAccess 0] }

theorem order_perm : [1, 0].Perm (List.range (2 : U32).toNat) := by decide

theorem witness_ReadPhaseFillsStagingInAnyOrder :
    reading.fault = none ∧ reading.accessed = [] ∧ reading.inbox = [1, 0].map Stimulus.byteAccess ++ [] ∧
      [1, 0].Perm (List.range (2 : U32).toNat) ∧
      ∀ i < (2 : U32).toNat, ∃ pa, segPa [(0x1000, 2)] i = some pa ∧ hasMemory reading.plat pa = true := by
  refine ⟨rfl, rfl, rfl, order_perm, fun i hi => ?_⟩
  have hi : i < 2 := hi
  exact ⟨0x1000 + i, by interval_cases i <;> decide, by interval_cases i <;> decide⟩

theorem witness_WritePhaseStoresInAnyOrder :
    MemoryInv reading ∧ [1, 0].Perm (List.range (2 : U32).toNat) ∧
      ∀ i < (2 : U32).toNat, ∃ pa, segPa [(0x1001, 2)] i = some pa ∧ hasMemory reading.plat pa = true ∧
        ∀ j < (2 : U32).toNat, segPa [(0x1001, 2)] j = some pa → j = i := by
  refine ⟨rfl, order_perm, fun i hi => ?_⟩
  have hi : i < 2 := hi
  exact ⟨0x1001 + i, by interval_cases i <;> decide, by interval_cases i <;> decide,
    by interval_cases i <;> decide⟩

/-- Source and destination overlap by one byte. -/
theorem witness_TransferCopiesSourceToDestination :
    reading.fault = none ∧ MemoryInv reading ∧ reading.plat.mode = .processEmulation ∧
      reading.phase = .readPending ⟨0x1000, 0x1001, 2⟩ [(0x1000, 2)] ∧ reading.accessed = [] ∧
      [1, 0].Perm (List.range (2 : U32).toNat) ∧ MappedToMemory reading 0x1001 2 ∧
      ∀ i < (2 : U32).toNat, ∀ j < (2 : U32).toNat,
        ptMap (pageSize reading.plat) reading.pageTable ((0x1001 : U64).toNat + i) =
          ptMap (pageSize reading.plat) reading.pageTable ((0x1001 : U64).toNat + j) → i = j := by
  refine ⟨rfl, rfl, rfl, rfl, rfl, order_perm, fun i hi => ?_, by decide⟩
  have hi : i < 2 := hi
  exact ⟨0x1001 + i, by interval_cases i <;> decide, by interval_cases i <;> decide⟩

theorem witness_SubmitAppendsAndSchedules :
    start.fault = none ∧ (pkt 1 false).needsResponse = false ∧ (pkt 1 true).needsResponse = true ∧ start.queue = [] ∧
      start.retry = false ∧ (q3 []).queue ≠ [] ∧ (q3 []).fault = none ∧
      serviceAnswer { start with backendScript := [served 0 (pkt 1 true)] } (pkt 1 true) =
        ⟨0, { pkt 1 true with payload := [0xAB] }, [(4, 0xCD)]⟩ := by decide

/-- The three callers of a delivery, with entries left and without. -/
theorem witness_AcceptedDeliveryPopsHead :
    (∀ s ∈ [q3 [true], { q3 [true] with queue := [⟨pkt 1 true, 60⟩] }],
      s.fault = none ∧ (∃ tail, s.queue = ⟨pkt 1 true, 60⟩ :: tail) ∧ peerAnswer s (pkt 1 true) = true ∧
        s.retry = false ∧ s.drainAt = some s.now) ∧
    ({ q3 [true] with drainAt := none } : State).retry = false ∧
    ({ q3 [true] with drainAt := none, retry := true } : State).drainAt = none := by
  refine ⟨fun s hs => ?_, rfl, rfl⟩
  rcases List.mem_cons.1 hs with rfl | hs
  · exact ⟨rfl, ⟨_, rfl⟩, rfl, rfl, rfl⟩
  · obtain rfl := List.mem_singleton.1 hs
    exact ⟨rfl, ⟨_, rfl⟩, rfl, rfl, rfl⟩

theorem witness_RefusedDeliveryKeepsHead :
    (q3 [false]).fault = none ∧ (q3 [false]).queue = ⟨pkt 1 true, 60⟩ :: [⟨pkt 2 true, 25⟩] ∧
      peerAnswer (q3 [false]) (pkt 1 true) = false ∧ (q3 [false]).retry = false ∧
      (q3 [false]).drainAt = some (q3 [false]).now ∧ ({ q3 [false] with drainAt := none } : State).drainAt = none ∧
      ({ q3 [false] with drainAt := none, retry := true } : State).retry = true := by decide

theorem witness_DrainWithoutAttempt :
    start.fault = none ∧ start.queue = [] ∧ start.retry = false ∧ start.drainAt = none ∧
      ({ start with drainAt := some 7 } : State).drainAt = some start.now ∧
      ({ q3 [] with retry := true } : State).drainAt = some (q3 []).now ∧
      ({ start with retry := true } : State).queue = [] := by decide

theorem witness_RangeQueryReportsWindow :
    two.fault = none ∧ two.otherQueues[0]? = some (.reset ⟨[(0x90000000, 0x9000FFFF)], []⟩) := ⟨rfl, rfl⟩

theorem witness_SpuriousPeerReadyIsFatal : start.fault = none ∧ start.retry = false := by decide

theorem q3_inv (answers : List Bool) : QueueInv (q3 answers) where
  retry_nonempty := nofun
  drain_iff := by simp [q3, start, State.reset]
  drain_due := by simp [q3]
  retry_ready := nofun

/-- Q3's drain, asked for by the scheduler. -/
theorem witness_DeliveryIsNotEarly :
    QueueInv { q3 [true] with inbox := [request 0x400000#24 0] } ∧
      completes (step { q3 [true] with inbox := [request 0x400000#24 0] }) = true ∧
      Output.delivered (pkt 1 true) 60 ∈
        (after (step { q3 [true] with inbox := [request 0x400000#24 0] })).outputs.drop 0 := by
  refine ⟨?_, by decide, by decide⟩
  have h := q3_inv [true]
  exact ⟨h.1, h.2, h.3, h.4⟩

/-- X2, across two pages that are not adjacent, and X7, an empty range at an unmapped address. -/
theorem witness_TranslateAnswersPageMap :
    ({ start with pageTable := vectorPages } : State).plat.mode = .processEmulation ∧
      (∀ i < 16, (ptMap (pageSize plat) vectorPages ((0x10FF8 : U64).toNat + i)).isSome = true) ∧
      (∀ i < 0, (ptMap (pageSize plat) vectorPages ((0x50000 : U64).toNat + i)).isSome = true) := by decide

/-- X6. -/
theorem witness_TranslateFaultsAtLowestUnmapped :
    LowestUnmapped { start with pageTable := vectorPages } 0x12FF8 16 0x13000 :=
  ⟨8, by decide, by decide, by decide, by decide⟩

/-- T12, T13 and a phase outstanding. -/
theorem witness_OtherModeNeverTransfers :
    otherMode.fault = none ∧ otherMode.plat.mode = .other ∧ otherMode.phase = .none ∧ otherMode.status ≠ 1 ∧
      TriggerInBounds otherMode ∧ (1#32).getLsbD 0 = true ∧ completes (exec (.wrCmd 1) otherMode) = true ∧
      ({ otherMode with status := 1 } : State).status = 1 :=
  ⟨rfl, rfl, rfl, by decide, ⟨by decide, by decide, by decide⟩, by decide, by decide, rfl⟩

theorem witness_PageTableIsPagewiseContiguous :
    ptMap (pageSize plat) vectorPages 0x10FFF = some 0x7FFF ∧
      0x10FFF / pageSize plat = 0x10000 / pageSize plat := by decide

theorem witness_FatalIsAbsorbing :
    ({ start with fault := some .spuriousPeerReady } : State).inbox = [] ∧
      ({ start with fault := some .spuriousPeerReady, inbox := [.advance 9] } : State).inbox ≠ [] := by decide

theorem witness_FatalEntryIsPrecise :
    completes (exec (.wrCmd 1) otherMode) = true ∧
      (after (exec (.wrCmd 1) otherMode)).fault = some .translationUnsupported ∧
      completes (exec .peerReady start) = true ∧ (after (exec .peerReady start)).fault = some .spuriousPeerReady := by
  decide

/-- For the statements at every view: the second engine and the second queue have theirs, and the step answers. -/
theorem witness_every_view :
    ∀ w ∈ [Who.first, .engine 0, .queue 0], (viewAt two w).isSome = true ∧
      (viewAt (stimulated (requestOf 0 0x104008#24 16) two) w).isSome = true := by decide

/-- For the statements about every operation that answers a next state: one operation of each kind does. -/
theorem witness_operations_complete :
    ∀ c ∈ [(Instr.wrCmd 1, readDoneState 0), (.rdUnmapped 0x20 4, start), (.wrUnmapped 0x0E 1 1, start),
        (.wrCmd 1, setup 0x1000 0x2000 1), (.readDone, readDoneState 0x2000), (.tryDeliver, { q3 [true] with drainAt := none }),
        (.drain, q3 [false]), (.submit (pkt 1 true), { start with backendScript := [served 3 (pkt 1 true)] }),
        (.peerReady, { q3 [true] with drainAt := none, retry := true }), (.rangeQuery, start), (.badwSrc .read 2, start)],
      completes (exec c.1 c.2) = true := by decide

theorem witness_ReadReturnsWrittenValue : start.fault = none ∧ (0#32).getLsbD 0 = false := by decide

theorem witness_TimeAndRecordsOnlyGrow :
    completes (step { q3 [] with now := 59, inbox := [.advance 60] }) = true ∧ (q3 []).drainAt = some 60 ∧ 59 ≤ 60 := by
  decide

theorem witness_StepKeepsMemoryCanonical :
    MemoryInv { reading with inbox := [.foreignStore 0x1000 0] } ∧
      completes (step { reading with inbox := [.foreignStore 0x1000 0] }) = true := ⟨rfl, by decide⟩

theorem witness_StepKeepsEngineInvariant : EngineInv reading ∧ completes (step reading) = true :=
  ⟨⟨by decide, by decide, by decide, by decide, by decide, by decide, by simp [reading, start, State.reset], by decide⟩,
    by decide⟩

theorem witness_StepKeepsQueueInvariant : QueueInv (q3 [true]) ∧ completes (step (q3 [true])) = true :=
  ⟨q3_inv _, by decide⟩

/-- One packet delivered, one queued. -/
def fifo : State :=
  { q3 [true] with queue := [⟨pkt 2 true, 25⟩],
                   outputs := [.serviced (pkt 1 true) 0 (pkt 1 true), .serviced (pkt 3 false) 0 (pkt 3 false),
                               .serviced (pkt 2 true) 0 (pkt 2 true), .delivered (pkt 1 true) 59] }

theorem witness_StepKeepsDeliveryOrder : FifoInv fifo ∧ completes (step fifo) = true := ⟨rfl, by decide⟩

theorem witness_StatusIsBusyExactlyInPhase :
    StatusAgrees { readDoneState 0x2000 with inbox := [request 0x800000#24 0] } ∧
      completes (step { readDoneState 0x2000 with inbox := [request 0x800000#24 0] }) = true ∧
      ∀ v, decodeRequest plat.base (.word 0x800000#24 (operandOfValue 0)) ≠ .ok (.wrStatus v) :=
  ⟨⟨fun _ => nofun, fun _ => rfl⟩, by decide, fun v h => by cases h⟩

/-- Each way a phase moves. -/
theorem witness_PhaseAdvancesOnlyInOrder :
    (after (step { setup 0x1000 0x2000 2 with inbox := [request 0x10400C#24 1] })).phase =
        .readPending ⟨0x1000, 0x2000, 2⟩ [(0x1000, 2)] ∧
      (after (step { readDoneState 0x2000 with inbox := [request 0x800000#24 0] })).phase =
        .writePending ⟨0x1000, 0x2000, 2⟩ [(0x2000, 2)] ∧
      (after (step { readDoneState 0 with phase := .writePending ⟨0x1000, 0x2000, 2⟩ [(0x2000, 2)],
                                          inbox := [request 0xA00000#24 0] })).phase = .none := by decide

/-- A transfer of one byte, all its steps asked for. -/
def copying : State :=
  { start with phase := .readPending ⟨0x1000, 0x2000, 1⟩ [(0x1000, 1)], status := 1, mem := [(0x1000, 7)],
               inbox := [.byteAccess 0, request 0x800000#24 0, .byteAccess 0, request 0xA00000#24 0] }

/-- What it leaves. -/
def copied : State :=
  { start with status := 2, stg := [(0, 7)], mem := [(0x1000, 7), (0x2000, 7)] }

/-- The transfer runs to its end, then time passes for ever. -/
def copyRun : Nat → State
  | 0 => copying
  | 1 => after (step copying)
  | 2 => after (step (after (step copying)))
  | 3 => after (step (after (step (after (step copying)))))
  | n + 4 => { copied with now := 7 + n }

/-- With one engine and one queue, nothing outstanding and nothing asked only time passes. -/
theorem quiet_ticks (s : State) (h : s.inbox = []) (hf : s.fault = none) (hp : s.phase = .none) (hd : s.drainAt = none)
    (he : s.otherEngines = []) (hq : s.otherQueues = []) : step s = .next { s with now := s.now + 1 } := by
  simp [step, stepOnce, idle, internalEvents, eventsOfAll, everyone, viewAt, engineEvents, dueDrain, schedulerEvents,
    performInternal, advanceTime, whenLive, mayReach, notPast, h, hf, hp, hd, he, hq]

/-- Nothing arrives. -/
theorem supplied_nothing (s : State) (hq : s.otherQueues = []) : Supplied s s :=
  ⟨[], [], [], [], by rw [hq]; exact .nil, by rw [← hq]; simp⟩

theorem copyRun_isRun : IsRun copyRun
  | 0 => ⟨_, rfl, supplied_nothing _ rfl⟩
  | 1 => ⟨_, rfl, supplied_nothing _ rfl⟩
  | 2 => ⟨_, rfl, supplied_nothing _ rfl⟩
  | 3 => ⟨_, rfl, supplied_nothing _ rfl⟩
  | n + 4 => ⟨_, quiet_ticks { copied with now := 7 + n } rfl rfl rfl rfl rfl rfl, supplied_nothing _ rfl⟩

theorem copyRun_unobstructed : ∀ j, PhaseUnobstructed (copyRun j)
  | 0 => ⟨fun i hi => ⟨0x1000, by have hi : i < 1 := hi; interval_cases i; rfl, rfl⟩, rfl⟩
  | 1 => ⟨fun i hi => ⟨0x1000, by have hi : i < 1 := hi; interval_cases i; rfl, rfl⟩, rfl⟩
  | 2 => fun i hi => ⟨0x2000, by have hi : i < 1 := hi; interval_cases i; rfl, rfl⟩
  | 3 => fun i hi => ⟨0x2000, by have hi : i < 1 := hi; interval_cases i; rfl, rfl⟩
  | _ + 4 => trivial

/-- A view of a machine with one engine and one queue is the machine. -/
theorem viewAt_alone {s v : State} {w : Who} (he : s.otherEngines = []) (hq : s.otherQueues = []) (h : viewAt s w = some v) :
    w = .first ∧ v = s := by
  cases w with
  | first => exact ⟨rfl, (Option.some.inj h).symm⟩
  | engine k => simp [viewAt, he] at h
  | queue k => simp [viewAt, hq] at h

/-- After the fourth step the engine has nothing to do, so the run is fair; both phases occur. -/
theorem witness_FairTransferCompletes :
    IsRun copyRun ∧ WeaklyFair copyRun ∧ (∀ v, viewAt (copyRun 0) .first = some v → EngineInv v) ∧
      (∀ j v, viewAt (copyRun j) .first = some v → PhaseUnobstructed v) ∧
      (copyRun 0).phase = .readPending ⟨0x1000, 0x2000, 1⟩ [(0x1000, 1)] ∧
      (copyRun 2).phase = .writePending ⟨0x1000, 0x2000, 1⟩ [(0x2000, 1)] := by
  refine ⟨copyRun_isRun, fun w k h => ?_, ?_, ?_, rfl, rfl⟩
  · obtain ⟨v, hv, e, he, -⟩ := h (k + 4) (Nat.le_add_right k 4)
    obtain ⟨-, rfl⟩ := viewAt_alone (s := copyRun (k + 4)) rfl rfl hv
    exact absurd he List.not_mem_nil
  · rintro v ⟨⟩
    exact ⟨by decide, by decide, by decide, by decide, by decide, by decide, by simp [copyRun, copying, start, State.reset],
      by decide⟩
  · rintro j v ⟨⟩
    exact copyRun_unobstructed j

/-- A refused packet waits, the peer signals, and its answer is at hand. -/
def refused (answer : Bool) : State :=
  { start with queue := [⟨pkt 1 true, 7⟩], retry := true, peerScript := [answer], inbox := [request 0x600000#24 0] }

/-- The packet is delivered, then time passes for ever. -/
def peerRun : Nat → State
  | 0 => refused true
  | n + 1 => { after (step (refused true)) with now := 7 + n }

theorem witness_PeerDutyResumesDelivery :
    IsRun peerRun ∧ PeersKeepDuty peerRun ∧ viewAt (peerRun 0) .first = some (refused true) ∧
      (refused true).retry = true ∧ (refused true).queue = ⟨pkt 1 true, 7⟩ :: [] := by
  refine ⟨fun k => ?_, fun w k v hv h => ?_, rfl, rfl, rfl⟩
  · cases k with
    | zero => exact ⟨_, rfl, supplied_nothing _ rfl⟩
    | succ n =>
      exact ⟨_, quiet_ticks { after (step (refused true)) with now := 7 + n } rfl rfl rfl rfl rfl rfl, supplied_nothing _ rfl⟩
  · cases k with
    | zero =>
      obtain ⟨rfl, rfl⟩ := viewAt_alone rfl rfl hv
      exact ⟨0, le_rfl, rfl⟩
    | succ n =>
      obtain ⟨rfl, rfl⟩ := viewAt_alone rfl rfl hv
      exact absurd h (by simp [peerRun, show (after (step (refused true))).retry = false from rfl])

/-- A packet waits whose drain is due. -/
def due : State := { start with queue := [⟨pkt 1 true, 7⟩], drainAt := some 7, peerScript := [true] }

/-- The drain fires and delivers it, then time passes for ever. -/
def drainRun : Nat → State
  | 0 => due
  | n + 1 => { after (step due) with now := 7 + n }

theorem witness_PeerDutyResumesDelivery_drain :
    IsRun drainRun ∧ SchedulerFires drainRun ∧ (∀ v, viewAt (drainRun 0) .first = some v → QueueInv v) ∧
      viewAt (drainRun 0) .first = some due ∧ due.drainAt = some 7 ∧ due.queue = ⟨pkt 1 true, 7⟩ :: [] := by
  refine ⟨fun k => ?_, fun w k v d hv h => ?_, ?_, rfl, rfl, rfl⟩
  · cases k with
    | zero => exact ⟨_, rfl, supplied_nothing _ rfl⟩
    | succ n =>
      exact ⟨_, quiet_ticks { after (step due) with now := 7 + n } rfl rfl rfl rfl rfl rfl, supplied_nothing _ rfl⟩
  · cases k with
    | zero =>
      obtain ⟨rfl, rfl⟩ := viewAt_alone rfl rfl hv
      exact ⟨0, le_rfl, due, rfl, rfl, [], 0, rfl⟩
    | succ n =>
      obtain ⟨rfl, rfl⟩ := viewAt_alone rfl rfl hv
      exact absurd h (by simp [drainRun, show (after (step due)).drainAt = none from rfl])
  · rintro v ⟨⟩
    exact ⟨nofun, by simp [drainRun, due, start, State.reset], by simp [drainRun, due, start], nofun⟩

/-- DMA_COPY of the largest size, and a poll that ends. -/
theorem witness_PseudoOperationsPerform :
    (wideSetup 0 0 0).fault = none ∧ (wideSetup 0 0 0).status ≠ 1 ∧ (wideSetup 0 0 0).phase = .none ∧
      TriggerInBounds (wideSetup 0 0xFFFFFFFFFFF00000 0x100000) ∧ (wideSetup 0 0 0).plat.mode = .processEmulation ∧
      MappedOutside (wideSetup 0 0 0) 0 0x100000 ∧ ({ start with status := 2 } : State).status = 2 ∧
      Performs .pollComplete [] { start with status := 2 } (after (exec .rdStatus { start with status := 2 })) ∧
      performed [] (.wrSize 3) = false ∧
      .wrCmd 1 ∈ nextOps (.dmaCopy 1 2 3) [(.wrSrc 1, .done), (.wrDst 2, .done), (.wrSize 3, .done)] := by
  refine ⟨rfl, by decide, rfl, ⟨by decide, by decide, by decide⟩, rfl, wide_outside _ _ _ rfl rfl (by decide), rfl,
    .own (i := .rdStatus) (by decide) rfl rfl (.finished (by decide)), rfl, by decide⟩

end Sys2Proof.Tests
end

