-- ==== Sys2Proof/Proofs/IllegalWidth.lean ====
section
/-! PROOFS. What the decoder answers for an access at a register's offset, what a step does with an access in the window,
and the fatal width mismatches at the register offsets (30_encoding.md R102, R111). -/

namespace Sys2Proof

/-! ## Accesses at the register offsets -/

/-- The address `BASE + offset` selects `offset` (30_encoding.md R107). -/
@[simp] theorem decodeAddress_base_add (base : Nat) (a : Access) (offset width : Nat) :
    decodeAddress base a (base + offset) width = decodeAccess a offset width := by
  simp [decodeAddress]

theorem decodeAccess_srcOffset {a : Access} {w : Nat} (hw : 0x00 + w ≤ 4096) :
    decodeAccess a 0x00 w = .ok (decodeSrc a w) := by
  simp [decodeAccess, inWindow_iff.2 ⟨by decide, hw⟩]

theorem decodeAccess_dstOffset {a : Access} {w : Nat} (hw : 0x04 + w ≤ 4096) :
    decodeAccess a 0x04 w = .ok (decodeDst a w) := by
  simp [decodeAccess, inWindow_iff.2 ⟨by decide, hw⟩]

theorem decodeAccess_sizeOffset {a : Access} {w : Nat} (hw : 0x08 + w ≤ 4096) :
    decodeAccess a 0x08 w = .ok (decodeSize a w) := by
  simp [decodeAccess, inWindow_iff.2 ⟨by decide, hw⟩]

theorem decodeAccess_cmdOffset {a : Access} {w : Nat} (hw : 0x0C + w ≤ 4096) :
    decodeAccess a 0x0C w = .ok (decodeCmd a w) := by
  simp [decodeAccess, inWindow_iff.2 ⟨by decide, hw⟩]

theorem decodeAccess_statusOffset {a : Access} {w : Nat} (hw : 0x10 + w ≤ 4096) :
    decodeAccess a 0x10 w = .ok (decodeStatus a w) := by
  simp [decodeAccess, inWindow_iff.2 ⟨by decide, hw⟩]

/-! ## Widths a register does not accept -/

theorem decodeSrc_of_badWidth {a : Access} {w : Nat} (h4 : w ≠ 4) (h8 : w ≠ 8) :
    decodeSrc a w = .badwSrc (a.trunc w) w := by
  simp [decodeSrc, h4, h8]

theorem decodeDst_of_badWidth {a : Access} {w : Nat} (h4 : w ≠ 4) (h8 : w ≠ 8) :
    decodeDst a w = .badwDst (a.trunc w) w := by
  simp [decodeDst, h4, h8]

theorem decodeSize_of_badWidth {a : Access} {w : Nat} (h4 : w ≠ 4) :
    decodeSize a w = .badwSize (a.trunc w) w := by
  simp [decodeSize, h4]

theorem decodeCmd_of_badWidth {a : Access} {w : Nat} (h4 : w ≠ 4) :
    decodeCmd a w = .badwCmd (a.trunc w) w := by
  simp [decodeCmd, h4]

theorem decodeStatus_of_badWidth {a : Access} {w : Nat} (h4 : w ≠ 4) :
    decodeStatus a w = .badwStatus (a.trunc w) w := by
  simp [decodeStatus, h4]

end Sys2Proof

namespace Sys2Proof.Machine

/-- A request that decodes to an operation is that operation, performed without the stimulus. -/
theorem step_of_request {s : State} {r : Request} {i : Instr} {rest : List Stimulus}
    (hin : s.inbox = .request r :: rest) (hd : decodeRequest s.plat.base r = .ok i) :
    step s = exec i { s with inbox := rest } := by
  simp [step, stepOnce, hin, perform, runRequest, hd]

/-- An access at `BASE + offset` is the operation that the offset and the width select. -/
theorem step_of_access {s : State} {a : Access} {offset width : Nat} {i : Instr} {rest : List Stimulus}
    (hin : s.inbox = .request (.access a (s.plat.base + offset) width) :: rest)
    (hd : decodeAccess a offset width = .ok i) : step s = exec i { s with inbox := rest } :=
  step_of_request hin ((decodeAddress_base_add s.plat.base a offset width).trans hd)

/-- Settles O20: at each register offset the decoder answers the register's width mismatch, which latches F1 alone. -/
theorem illegalWidthAccessIsFatal : Obligations.IllegalWidthAccessIsFatal := by
  intro s a offset width rest hlive hin hwin
  refine ⟨?src, ?dst, ?size, ?cmd, ?status⟩
  case src =>
    rintro rfl h4 h8
    rw [step_of_access hin (decodeAccess_srcOffset hwin), decodeSrc_of_badWidth h4 h8]
    exact exec_badwSrc_next.2 ⟨hlive, rfl⟩
  case dst =>
    rintro rfl h4 h8
    rw [step_of_access hin (decodeAccess_dstOffset hwin), decodeDst_of_badWidth h4 h8]
    exact exec_badwDst_next.2 ⟨hlive, rfl⟩
  case size =>
    rintro rfl h4
    rw [step_of_access hin (decodeAccess_sizeOffset hwin), decodeSize_of_badWidth h4]
    exact exec_badwSize_next.2 ⟨hlive, rfl⟩
  case cmd =>
    rintro rfl h4
    rw [step_of_access hin (decodeAccess_cmdOffset hwin), decodeCmd_of_badWidth h4]
    exact exec_badwCmd_next.2 ⟨hlive, rfl⟩
  case status =>
    rintro rfl h4
    rw [step_of_access hin (decodeAccess_statusOffset hwin), decodeStatus_of_badWidth h4]
    exact exec_badwStatus_next.2 ⟨hlive, rfl⟩

end Sys2Proof.Machine
end

