-- ==== Sys2Proof/Proofs/RegisterAccess.lean ====
section
/-! PROOFS. The register accesses of 40_mmio_register_access.md: what the decoder reads from a word of kind 0, which
operations change an address register, and the effect and frame of reads, writes, width mismatches and misses. -/

namespace Sys2Proof

/-! ## Words of kind 0 -/

/-- A word of kind 0 is an access at its offset with its width (30_encoding.md R101). -/
theorem decodeWord_of_kind_zero {d : Word} (hk : (fieldsOf d).kind = 0#3) (o : Operand) :
    decodeWord d o = decodeAccess (if (fieldsOf d).dir = 1#1 then .write o.value else .read)
      (fieldsOf d).offset.toNat (fieldsOf d).width.toNat := by
  simp [decodeWord, decodeFields, hk]

/-- The pattern of a BADW row is its register's offset: a word that matches it is an access there
(30_encoding.md R110). -/
theorem decodeWord_of_kind_offset_mask {d : Word} {n : Nat} (hn : n < 4096)
    (h : d &&& 0xE00FFF#24 = BitVec.ofNat 24 n) (o : Operand) :
    ∃ a, decodeWord d o = decodeAccess a n (fieldsOf d).width.toNat := by
  obtain ⟨hk, -, -, hoff⟩ := (kind_offset_mask d _).1 h
  obtain ⟨hkn, -, -, hoffn⟩ := fieldsOf_toNat (BitVec.ofNat 24 n)
  rw [BitVec.toNat_ofNat] at hkn hoffn
  have hkind : (fieldsOf d).kind = 0#3 := by
    rw [hk]
    exact BitVec.eq_of_toNat_eq (by rw [hkn, BitVec.toNat_ofNat]; omega)
  have hoffset : (fieldsOf d).offset.toNat = n := by
    rw [hoff]
    omega
  exact ⟨_, by rw [decodeWord_of_kind_zero hkind, hoffset]⟩

theorem isRegOffset_eq_false_iff {offset : Nat} : isRegOffset offset = false ↔
    offset ≠ 0x00 ∧ offset ≠ 0x04 ∧ offset ≠ 0x08 ∧ offset ≠ 0x0C ∧ offset ≠ 0x10 := by
  simp [isRegOffset, and_assoc]

/-- An access inside the window at an offset that selects no register is a miss (30_encoding.md R112). -/
theorem decodeAccess_of_not_isRegOffset {offset width : Nat} (hreg : isRegOffset offset = false)
    (hlt : offset < 4096) (hwin : offset + width ≤ 4096) (a : Access) :
    decodeAccess a offset width = .ok (decodeUnmapped a offset width) := by
  obtain ⟨hsrc, hdst, hsize, hcmd, hstatus⟩ := isRegOffset_eq_false_iff.1 hreg
  simp [decodeAccess, inWindow_iff.2 ⟨hlt, hwin⟩, hsrc, hdst, hsize, hcmd, hstatus]

end Sys2Proof

namespace Sys2Proof.Machine

/-! ## The address registers -/

/-- A low-word write keeps bits 63:32 (10_state.md R21, R22). -/
@[simp] theorem highWord_withLowWord (r : U64) (v : U32) : highWord (withLowWord r v) = highWord r := by
  unfold withLowWord
  exact BitVec.extractLsb'_append_eq_left

/-- Bits 63:32 of an address register are written by its own 8-byte write only (40_mmio_register_access.md R134, R135,
R138, R139). -/
theorem exec_highWord_cases {i : Instr} {s t : State} (h : exec i s = .next t) :
    (highWord t.srcAddr = highWord s.srcAddr ∨ ∃ w, i = .wrSrc w) ∧
      (highWord t.dstAddr = highWord s.dstAddr ∨ ∃ w, i = .wrDst w) := by
  cases i
  case wrSrcLo v =>
    obtain ⟨-, rfl⟩ := exec_wrSrcLo_next.1 h
    exact ⟨.inl (highWord_withLowWord s.srcAddr v), .inl rfl⟩
  case wrSrc w =>
    obtain ⟨-, rfl⟩ := exec_wrSrc_next.1 h
    exact ⟨.inr ⟨w, rfl⟩, .inl rfl⟩
  case wrDstLo v =>
    obtain ⟨-, rfl⟩ := exec_wrDstLo_next.1 h
    exact ⟨.inl rfl, .inl (highWord_withLowWord s.dstAddr v)⟩
  case wrDst w =>
    obtain ⟨-, rfl⟩ := exec_wrDst_next.1 h
    exact ⟨.inl rfl, .inr ⟨w, rfl⟩⟩
  case wrCmd v =>
    rcases exec_wrCmd_next.1 h with ⟨-, ⟨-, -, rfl⟩ | ⟨-, rfl⟩ | ⟨-, -, -, rfl⟩⟩
    · exact ⟨.inl rfl, .inl rfl⟩
    · exact ⟨.inl rfl, .inl rfl⟩
    · rw [respondIfLive_frame, startEffect_frame]
      exact ⟨.inl rfl, .inl rfl⟩
  case start =>
    obtain ⟨-, -, -, rfl⟩ := exec_start_next.1 h
    rw [startEffect_frame]
    exact ⟨.inl rfl, .inl rfl⟩
  case readDone =>
    obtain ⟨-, snap, segs, -, -, -, rfl⟩ := exec_readDone_next.1 h
    rw [readDoneEffect_frame]
    exact ⟨.inl rfl, .inl rfl⟩
  case writeDone =>
    obtain ⟨-, snap, segs, -, -, rfl⟩ := exec_writeDone_next.1 h
    exact ⟨.inl rfl, .inl rfl⟩
  case translate =>
    obtain ⟨-, rfl⟩ := exec_translate_next.1 h
    rw [translateEffect_frame]
    exact ⟨.inl rfl, .inl rfl⟩
  case submit | drain | tryDeliver | peerReady =>
    rw [exec_queue_frame rfl h]
    exact ⟨.inl rfl, .inl rfl⟩
  all_goals -- what is left only warns, responds, raises or writes a 32-bit register
    obtain ⟨-, rfl⟩ := whenLive_next_state.1 h
    exact ⟨.inl rfl, .inl rfl⟩

/-! ## Reads and writes of the registers -/

/-- Settles O12: the writes' outcomes, and that the high words have no other writer. -/
theorem addressWritesStore : Obligations.AddressWritesStore := by
  refine ⟨fun _ => ⟨rfl, rfl, rfl, rfl⟩, fun s v w hlive => ?effect, fun i s t h => ?high⟩
  case effect =>
    exact ⟨exec_wrSrcLo_next.2 ⟨hlive, rfl⟩, exec_wrSrc_next.2 ⟨hlive, rfl⟩,
      exec_wrDstLo_next.2 ⟨hlive, rfl⟩, exec_wrDst_next.2 ⟨hlive, rfl⟩⟩
  case high =>
    obtain ⟨hsrc, hdst⟩ := exec_highWord_cases h
    exact ⟨fun hne => hsrc.resolve_right fun ⟨w, hw⟩ => hne w hw,
      fun hne => hdst.resolve_right fun ⟨w, hw⟩ => hne w hw⟩

/-- Settles O10: each read answers its register and leaves every other field as it was. -/
theorem addressReadsRespond : Obligations.AddressReadsRespond := by
  refine ⟨fun _ => ⟨rfl, rfl, rfl, rfl⟩, fun s hlive => ?_⟩
  exact ⟨exec_rdSrcLo_next.2 ⟨hlive, rfl⟩, exec_rdSrc_next.2 ⟨hlive, rfl⟩,
    exec_rdDstLo_next.2 ⟨hlive, rfl⟩, exec_rdDst_next.2 ⟨hlive, rfl⟩⟩

/-- Settles O14: the store is unconditional, so the value is not looked at. -/
theorem sizeWriteStoresAnyValue : Obligations.SizeWriteStoresAnyValue :=
  ⟨fun _ => rfl, fun _ _ hlive => exec_wrSize_next.2 ⟨hlive, rfl⟩⟩

/-! ## Width mismatches and misses -/

/-- Settles O19: a BADW row's mask fixes the offset, so only the width is left to decode, and the latch is all that
changes. -/
theorem widthMismatchLatchesBadWidth : Obligations.WidthMismatchLatchesBadWidth := by
  refine ⟨fun d o => ?decode, fun s a w hlive => ?effect⟩
  case decode =>
    have hwidth := (fieldsOf d).width.isLt
    refine ⟨fun h h4 h8 => ?src, fun h h4 h8 => ?dst, fun h h4 => ?size, fun h h4 => ?cmd, fun h h4 => ?status⟩
    all_goals obtain ⟨a, ha⟩ := decodeWord_of_kind_offset_mask (by decide) h o
    case src =>
      exact ⟨_, by rw [ha, decodeAccess_srcOffset (by omega),
        decodeSrc_of_badWidth (BitVec.toNat_ne.1 h4) (BitVec.toNat_ne.1 h8)]⟩
    case dst =>
      exact ⟨_, by rw [ha, decodeAccess_dstOffset (by omega),
        decodeDst_of_badWidth (BitVec.toNat_ne.1 h4) (BitVec.toNat_ne.1 h8)]⟩
    case size =>
      exact ⟨_, by rw [ha, decodeAccess_sizeOffset (by omega), decodeSize_of_badWidth (BitVec.toNat_ne.1 h4)]⟩
    case cmd =>
      exact ⟨_, by rw [ha, decodeAccess_cmdOffset (by omega), decodeCmd_of_badWidth (BitVec.toNat_ne.1 h4)]⟩
    case status =>
      exact ⟨_, by rw [ha, decodeAccess_statusOffset (by omega), decodeStatus_of_badWidth (BitVec.toNat_ne.1 h4)]⟩
  case effect =>
    exact ⟨exec_badwSrc_next.2 ⟨hlive, rfl⟩, exec_badwDst_next.2 ⟨hlive, rfl⟩,
      exec_badwSize_next.2 ⟨hlive, rfl⟩, exec_badwCmd_next.2 ⟨hlive, rfl⟩, exec_badwStatus_next.2 ⟨hlive, rfl⟩⟩

/-- Settles O21: accesses and kind 0 words take the same miss of the decoder, whatever the width. -/
theorem unmappedAccessWarns : Obligations.UnmappedAccessWarns := by
  refine ⟨fun offset width value hlt hwin hsrc hdst hsize hcmd hstatus => ?access,
    fun d o hk hwin hsrc hdst hsize hcmd hstatus => ?word, fun s offset width value hlive => ?effect⟩
  case access =>
    have hmiss := decodeAccess_of_not_isRegOffset
      (isRegOffset_eq_false_iff.2 ⟨hsrc, hdst, hsize, hcmd, hstatus⟩) hlt hwin
    exact ⟨hmiss .read, hmiss (.write value)⟩
  case word =>
    have hreg : isRegOffset (fieldsOf d).offset.toNat = false :=
      isRegOffset_eq_false_iff.2 ⟨BitVec.toNat_ne.1 hsrc, BitVec.toNat_ne.1 hdst, BitVec.toNat_ne.1 hsize,
        BitVec.toNat_ne.1 hcmd, BitVec.toNat_ne.1 hstatus⟩
    rw [decodeWord_of_kind_zero hk, decodeAccess_of_not_isRegOffset hreg (fieldsOf d).offset.isLt hwin]
    exact ⟨fun hdir => by rw [hdir]; rfl, fun hdir => by rw [hdir]; rfl⟩
  case effect =>
    exact ⟨exec_rdUnmapped_next.2 ⟨hlive, rfl⟩, exec_wrUnmapped_next.2 ⟨hlive, rfl⟩⟩

end Sys2Proof.Machine
end

