-- ==== Sys2Proof/Proofs/TransferController.lean ====
section
/-! PROOFS. The completion of a transfer by WRITE_DONE (41_transfer_controller.md R178). -/

namespace Sys2Proof.Machine

/-- Settles O27: the word selects WRITE_DONE by its kind alone, and the event's outcome once enabled reads nothing but
the latch, the phase and the count of bytes written, so STATUS is 2 whatever it held. -/
theorem writeDoneCompletes : Obligations.WriteDoneCompletes := by
  refine ⟨fun _ => ?decode, fun s snap segs hlive hphase hwritten => ?effect⟩
  case decode => rfl
  case effect => exact exec_writeDone_next.2 ⟨hlive, snap, segs, hphase, hwritten, rfl⟩

end Sys2Proof.Machine
end

