-- ==== Sys2Proof/Proofs/ResponseQueue.lean ====
section
/-! PROOFS. The two paths of a delivery attempt, through the three operations that make one: TRY_DELIVER, DRAIN and
PEER_READY (42_response_queue.md R202 to R207). -/

namespace Sys2Proof.Machine

/-! ## The peer's draw reads nothing a caller changes before the attempt -/

@[simp] theorem afterPeerAnswer_setDrainAt (s : State) (d : Option Time) :
    afterPeerAnswer { s with drainAt := d } = { afterPeerAnswer s with drainAt := d } := by
  unfold afterPeerAnswer
  cases s.peerScript <;> rfl

@[simp] theorem afterPeerAnswer_setRetry (s : State) (r : Bool) :
    afterPeerAnswer { s with retry := r } = { afterPeerAnswer s with retry := r } := by
  unfold afterPeerAnswer
  cases s.peerScript <;> rfl

/-! ## The two paths of an attempt -/

/-- The success path with no drain outstanding (42_response_queue.md R204). -/
theorem tryDeliver_of_accepted {s : State} {e : Entry} {tail : List Entry} (hqueue : s.queue = e :: tail)
    (hpeer : peerAnswer s e.pkt = true) (hdrain : s.drainAt = none) :
    tryDeliver s = { afterPeerAnswer s with
      outputs := s.outputs ++ [.delivered e.pkt s.now], queue := tail, retry := false
      drainAt := tail.head?.map (fun next => max next.readyTime (s.now + 1)) } := by
  have hpath : tryDeliver s = deliverHead (afterPeerAnswer s) e.pkt tail := by
    simp [tryDeliver, hqueue, hpeer]
  cases tail with
  | nil => simp [hpath, deliverHead, emit, hdrain]
  | cons next rest => simp [hpath, deliverHead, emit]

/-- The failure path (42_response_queue.md R205). -/
theorem tryDeliver_of_refused {s : State} {e : Entry} {tail : List Entry} (hqueue : s.queue = e :: tail)
    (hpeer : peerAnswer s e.pkt = false) : tryDeliver s = { afterPeerAnswer s with retry := true } := by
  simp [tryDeliver, hqueue, hpeer]

/-! ## The three callers, where they attempt a delivery -/

/-- DRAIN with `retry` clear attempts a delivery with its own event gone (42_response_queue.md R202). -/
theorem exec_drain_eq_tryDeliver {s : State} (hlive : s.fault = none) (hretry : s.retry = false)
    (hdue : s.drainAt = some s.now) : exec .drain s = .next (tryDeliver { s with drainAt := none }) :=
  exec_drain_next.2 ⟨hlive, hdue, by simp [drainEffect, hretry]⟩

/-- PEER_READY with a retry pending attempts a delivery with the flag cleared (42_response_queue.md R207). -/
theorem exec_peerReady_eq_tryDeliver {s : State} (hlive : s.fault = none) (hretry : s.retry = true) :
    exec .peerReady s = .next (tryDeliver { s with retry := false }) :=
  exec_peerReady_next.2 ⟨hlive, by simp [peerReadyEffect, hretry]⟩

/-- Settles O34: each caller attempts the delivery with no drain outstanding, so what the success path schedules is all
that stands in the slot afterwards. -/
theorem acceptedDeliveryPopsHead : Obligations.AcceptedDeliveryPopsHead := by
  intro s e tail hlive hqueue hpeer
  refine ⟨fun hretry hdrain => ?tryDeliver, fun hretry hdue => ?drain, fun hretry hdrain => ?peerReady⟩
  case tryDeliver =>
    exact exec_tryDeliver_next.2 ⟨hlive, hretry, hdrain, (tryDeliver_of_accepted hqueue hpeer hdrain).symm⟩
  case drain =>
    have hattempt := tryDeliver_of_accepted (s := { s with drainAt := none }) hqueue hpeer rfl
    rw [exec_drain_eq_tryDeliver hlive hretry hdue, hattempt, afterPeerAnswer_setDrainAt]
  case peerReady =>
    have hattempt := tryDeliver_of_accepted (s := { s with retry := false }) hqueue hpeer hdrain
    rw [exec_peerReady_eq_tryDeliver hlive hretry, hattempt, afterPeerAnswer_setRetry]

/-- Settles O35: the failure path sets `retry` and nothing else, so only DRAIN's own event is gone. -/
theorem refusedDeliveryKeepsHead : Obligations.RefusedDeliveryKeepsHead := by
  intro s e tail hlive hqueue hpeer
  refine ⟨fun hretry hdrain => ?tryDeliver, fun hretry hdue => ?drain, fun hretry => ?peerReady⟩
  case tryDeliver =>
    exact exec_tryDeliver_next.2 ⟨hlive, hretry, hdrain, (tryDeliver_of_refused hqueue hpeer).symm⟩
  case drain =>
    have hattempt := tryDeliver_of_refused (s := { s with drainAt := none }) hqueue hpeer
    rw [exec_drain_eq_tryDeliver hlive hretry hdue, hattempt, afterPeerAnswer_setDrainAt]
  case peerReady =>
    have hattempt := tryDeliver_of_refused (s := { s with retry := false }) hqueue hpeer
    rw [exec_peerReady_eq_tryDeliver hlive hretry, hattempt, afterPeerAnswer_setRetry]

end Sys2Proof.Machine
end

