-- ==== Sys2Proof/Proofs/Exceptions.lean ====
section
/-! PROOFS. Two conditions of 60_exceptions.md: the warning of a rejected trigger (R269) and the fatal condition of a
spurious PEER_READY (R263). -/

namespace Sys2Proof.Machine

/-- Settles O17: of WR_CMD's three outcomes this is the rejected trigger's, which stores nothing (D9) and is answered. -/
theorem triggerWhileBusyOnlyWarns : Obligations.TriggerWhileBusyOnlyWarns := by
  intro s v hlive htrigger hbusy
  have hrejected : exec (.wrCmd v) s = .next (respond (warn s .startWhileBusy) .done) :=
    exec_wrCmd_next.2 ⟨hlive, .inl ⟨htrigger, hbusy, rfl⟩⟩
  exact hrejected

/-- PEER_READY with no retry pending only latches its fatal condition (42_response_queue.md R207). -/
theorem exec_peerReady_eq_raise {s : State} (hlive : s.fault = none) (hretry : s.retry = false) :
    exec .peerReady s = .next (raise s .spuriousPeerReady) :=
  exec_peerReady_next.2 ⟨hlive, by simp [peerReadyEffect, hretry]⟩

/-- Settles O37: the word selects PEER_READY by its kind alone, and the latch is all that `raise` changes. -/
theorem spuriousPeerReadyIsFatal : Obligations.SpuriousPeerReadyIsFatal := by
  refine ⟨fun _ => ?decode, fun s hlive hretry => ?effect⟩
  case decode => rfl
  case effect => exact exec_peerReady_eq_raise hlive hretry

end Sys2Proof.Machine
end

