-- ==== Sys2Proof/Proofs/Encoding.lean ====
section
/-! PROOFS. The decoder and the encoder undo each other, the decoder answers well-formed operations, and it reads a word
as the opcode table does (30_encoding.md sections 1 and 3). -/

namespace Sys2Proof

/-! ## Words built by the encoder -/

/-- The word of an access decodes as the access, the write value being the operand's (30_encoding.md R101). -/
theorem decodeWord_accessWord {a : Access} {offset width : Nat} {o : Operand} (hoff : offset < 4096)
    (hwidth : width < 256) (hval : o.value = a.value) :
    decodeWord (accessWord a offset width) o = decodeAccess a offset width := by
  cases a with
  | read =>
    rw [accessWord, readWord, decodeWord_of_kind_zero (by simp)]
    simp [Nat.mod_eq_of_lt, hoff, hwidth]
  | write v =>
    rw [accessWord, writeWord, decodeWord_of_kind_zero (by simp)]
    simp [Nat.mod_eq_of_lt, hoff, hwidth, hval, Access.value]

/-- The encoder writes an MMIO operation as its access: word and write value (30_encoding.md R100, R101). -/
theorem encode_of_accessOf {i : Instr} {a : Access} {offset width : Nat} (h : accessOf i = some (a, offset, width)) :
    encodeWord i = accessWord a offset width ∧ (encodeOperand i).value = a.value := by
  cases i <;> cases h <;> exact ⟨rfl, rfl⟩

/-- The word of an event decodes by its kind and sub-step (30_encoding.md R101). -/
theorem decodeWord_eventWord (kind : BitVec 3) (substep : BitVec 12) (o : Operand) :
    decodeWord (eventWord kind substep) o = decodeFields ⟨kind, 0#1, 0#8, substep⟩ o := by
  rw [decodeWord, eventWord, fieldsOf_wordOf]

/-- An event or internal step is decoded from its word and operand alone (30_encoding.md R104). -/
theorem decodeWord_encode_of_not_access {i : Instr} (h : accessOf i = none) :
    decodeWord (encodeWord i) (encodeOperand i) = .ok i := by
  cases i <;> cases h <;> rw [encodeWord, decodeWord_eventWord] <;> rfl

/-! ## The decoder on the access of a well-formed operation -/

/-- A well-formed MMIO operation's access lies in the window. -/
theorem inWindow_of_accessOf {i : Instr} {a : Access} {offset width : Nat} (hwf : i.wf = true)
    (h : accessOf i = some (a, offset, width)) : offset < 4096 ∧ offset + width ≤ 4096 := by
  rw [← inWindow_iff]
  cases i <;> cases h <;> simp_all [Instr.wf, inWindow, Config.windowSize]

/-- The width of an access that fits the word is below 256 (30_encoding.md R101). -/
theorem width_lt_of_fitsWord {i : Instr} {a : Access} {offset width : Nat} (hfits : i.fitsWord = true)
    (h : accessOf i = some (a, offset, width)) : width < 256 := by
  cases i <;> cases h <;> exact of_decide_eq_true hfits

/-- Decoding the access a well-formed operation is gives the operation back (30_encoding.md R102). -/
theorem decodeAccess_of_accessOf {i : Instr} {a : Access} {offset width : Nat} (hwf : i.wf = true)
    (h : accessOf i = some (a, offset, width)) : decodeAccess a offset width = .ok i := by
  obtain ⟨hlt, hwin⟩ := inWindow_of_accessOf hwf h
  cases i <;> cases h
  case rdUnmapped =>
    simp only [Instr.wf, Bool.and_eq_true, Bool.not_eq_true'] at hwf
    exact decodeAccess_of_not_isRegOffset hwf.1 hlt hwin _
  case wrUnmapped =>
    simp only [Instr.wf, Bool.and_eq_true, Bool.not_eq_true', decide_eq_true_eq] at hwf
    rw [decodeAccess_of_not_isRegOffset hwf.1.1 hlt hwin, decodeUnmapped, Nat.mod_eq_of_lt hwf.2]
  case badwSrc =>
    simp only [Instr.wf, Bool.and_eq_true, bne_iff_ne] at hwf
    obtain ⟨⟨⟨h4, h8⟩, -⟩, hfits⟩ := hwf
    rw [decodeAccess_srcOffset hwin, decodeSrc_of_badWidth h4 h8, Access.trunc_of_fits hfits]
  case badwDst =>
    simp only [Instr.wf, Bool.and_eq_true, bne_iff_ne] at hwf
    obtain ⟨⟨⟨h4, h8⟩, -⟩, hfits⟩ := hwf
    rw [decodeAccess_dstOffset hwin, decodeDst_of_badWidth h4 h8, Access.trunc_of_fits hfits]
  case badwSize =>
    simp only [Instr.wf, Bool.and_eq_true, bne_iff_ne] at hwf
    rw [decodeAccess_sizeOffset hwin, decodeSize_of_badWidth hwf.1.1, Access.trunc_of_fits hwf.2]
  case badwCmd =>
    simp only [Instr.wf, Bool.and_eq_true, bne_iff_ne] at hwf
    rw [decodeAccess_cmdOffset hwin, decodeCmd_of_badWidth hwf.1.1, Access.trunc_of_fits hwf.2]
  case badwStatus =>
    simp only [Instr.wf, Bool.and_eq_true, bne_iff_ne] at hwf
    rw [decodeAccess_statusOffset hwin, decodeStatus_of_badWidth hwf.1.1, Access.trunc_of_fits hwf.2]
  case rdSrcLo | rdSrc | rdDstLo | rdDst | rdSize | rdCmd | rdStatus => rfl
  case wrSrcLo | wrSrc => simp [decodeAccess_srcOffset hwin, decodeSrc]
  case wrDstLo | wrDst => simp [decodeAccess_dstOffset hwin, decodeDst]
  case wrSize => simp [decodeAccess_sizeOffset hwin, decodeSize]
  case wrCmd => simp [decodeAccess_cmdOffset hwin, decodeCmd]
  case wrStatus => simp [decodeAccess_statusOffset hwin, decodeStatus]

/-- Settles O2: an MMIO operation's word decodes as its access, which the decoder gives back; the other words carry
nothing but kind and sub-step. -/
theorem decodeOfEncodeWord : Obligations.DecodeOfEncodeWord := by
  intro i hwf hfits
  change decodeWord (encodeWord i) (encodeOperand i) = .ok i
  cases h : accessOf i with
  | none => exact decodeWord_encode_of_not_access h
  | some access =>
    obtain ⟨a, offset, width⟩ := access
    obtain ⟨hword, hval⟩ := encode_of_accessOf h
    rw [hword, decodeWord_accessWord (inWindow_of_accessOf hwf h).1 (width_lt_of_fitsWord hfits h) hval]
    exact decodeAccess_of_accessOf hwf h

/-- Settles O3: the request of an MMIO operation is its access at BASE + offset, whatever the width. -/
theorem decodeOfEncodeRequest : Obligations.DecodeOfEncodeRequest := by
  intro base i hwf
  unfold encodeRequest
  cases h : accessOf i with
  | none => exact decodeWord_encode_of_not_access h
  | some access =>
    obtain ⟨a, offset, width⟩ := access
    exact (decodeAddress_base_add base a offset width).trans (decodeAccess_of_accessOf hwf h)

/-! ## What the decoder answers -/

/-- The decoder on an access, once: the window, then the register its offset selects, or a miss (30_encoding.md R102). -/
theorem decodeAccess_ok {a : Access} {offset width : Nat} {i : Instr} (h : decodeAccess a offset width = .ok i) :
    inWindow offset width = true ∧
      (offset = 0x00 ∧ i = decodeSrc a width ∨ offset = 0x04 ∧ i = decodeDst a width ∨
        offset = 0x08 ∧ i = decodeSize a width ∨ offset = 0x0C ∧ i = decodeCmd a width ∨
        offset = 0x10 ∧ i = decodeStatus a width ∨
        isRegOffset offset = false ∧ i = decodeUnmapped a offset width) := by
  unfold decodeAccess at h
  split at h
  · next hwin =>
    refine ⟨hwin, ?_⟩
    rw [isRegOffset_eq_false_iff]
    split_ifs at h <;> cases h <;> simp_all
  · cases h

/-- The one reason an access is rejected (30_encoding.md R102 step 0). -/
theorem decodeAccess_error {a : Access} {offset width : Nat} {why : Reject}
    (h : decodeAccess a offset width = .error why) : why = .outOfWindow ∧ inWindow offset width = false := by
  unfold decodeAccess at h
  split_ifs at h with hwin
  cases h
  exact ⟨rfl, by simpa using hwin⟩

/-! The decoder of each register: its operation is the access it was decoded from, and well formed in the window. -/

theorem accessOf_decodeSrc (a : Access) (width : Nat) :
    accessOf (decodeSrc a width) = some (a.trunc width, 0x00, width) := by
  unfold decodeSrc
  cases a <;> split_ifs <;> simp_all [accessOf, Access.trunc]

theorem accessOf_decodeDst (a : Access) (width : Nat) :
    accessOf (decodeDst a width) = some (a.trunc width, 0x04, width) := by
  unfold decodeDst
  cases a <;> split_ifs <;> simp_all [accessOf, Access.trunc]

theorem accessOf_decodeSize (a : Access) (width : Nat) :
    accessOf (decodeSize a width) = some (a.trunc width, 0x08, width) := by
  unfold decodeSize
  cases a <;> split_ifs <;> simp_all [accessOf, Access.trunc]

theorem accessOf_decodeCmd (a : Access) (width : Nat) :
    accessOf (decodeCmd a width) = some (a.trunc width, 0x0C, width) := by
  unfold decodeCmd
  cases a <;> split_ifs <;> simp_all [accessOf, Access.trunc]

theorem accessOf_decodeStatus (a : Access) (width : Nat) :
    accessOf (decodeStatus a width) = some (a.trunc width, 0x10, width) := by
  unfold decodeStatus
  cases a <;> split_ifs <;> simp_all [accessOf, Access.trunc]

theorem accessOf_decodeUnmapped (a : Access) (offset width : Nat) :
    accessOf (decodeUnmapped a offset width) = some (a.trunc width, offset, width) := by
  cases a <;> rfl

theorem wf_decodeSrc {width : Nat} (hwin : inWindow 0x00 width = true) (a : Access) :
    (decodeSrc a width).wf = true := by
  have hfits := Access.fits_trunc width a
  unfold decodeSrc
  cases a <;> split_ifs <;> simp_all [Instr.wf]

theorem wf_decodeDst {width : Nat} (hwin : inWindow 0x04 width = true) (a : Access) :
    (decodeDst a width).wf = true := by
  have hfits := Access.fits_trunc width a
  unfold decodeDst
  cases a <;> split_ifs <;> simp_all [Instr.wf]

theorem wf_decodeSize {width : Nat} (hwin : inWindow 0x08 width = true) (a : Access) :
    (decodeSize a width).wf = true := by
  have hfits := Access.fits_trunc width a
  unfold decodeSize
  cases a <;> split_ifs <;> simp_all [Instr.wf]

theorem wf_decodeCmd {width : Nat} (hwin : inWindow 0x0C width = true) (a : Access) :
    (decodeCmd a width).wf = true := by
  have hfits := Access.fits_trunc width a
  unfold decodeCmd
  cases a <;> split_ifs <;> simp_all [Instr.wf]

theorem wf_decodeStatus {width : Nat} (hwin : inWindow 0x10 width = true) (a : Access) :
    (decodeStatus a width).wf = true := by
  have hfits := Access.fits_trunc width a
  unfold decodeStatus
  cases a <;> split_ifs <;> simp_all [Instr.wf]

theorem wf_decodeUnmapped {offset width : Nat} (hreg : isRegOffset offset = false)
    (hwin : inWindow offset width = true) (a : Access) : (decodeUnmapped a offset width).wf = true := by
  cases a <;> simp [decodeUnmapped, Instr.wf, hreg, hwin, Nat.mod_lt]

/-- Settles O5: each register's decoder keeps direction, width and the value cut to the width. -/
theorem decodedAccessKeepsEveryField : Obligations.DecodedAccessKeepsEveryField := by
  intro a offset width i h
  obtain ⟨-, ⟨rfl, rfl⟩ | ⟨rfl, rfl⟩ | ⟨rfl, rfl⟩ | ⟨rfl, rfl⟩ | ⟨rfl, rfl⟩ | ⟨-, rfl⟩⟩ := decodeAccess_ok h
  · exact accessOf_decodeSrc a width
  · exact accessOf_decodeDst a width
  · exact accessOf_decodeSize a width
  · exact accessOf_decodeCmd a width
  · exact accessOf_decodeStatus a width
  · exact accessOf_decodeUnmapped a offset width

/-- An operation decoded from an access is well formed (30_encoding.md R102, R111, R112). -/
theorem wf_of_decodeAccess {a : Access} {offset width : Nat} {i : Instr} (h : decodeAccess a offset width = .ok i) :
    i.wf = true := by
  obtain ⟨hwin, ⟨rfl, rfl⟩ | ⟨rfl, rfl⟩ | ⟨rfl, rfl⟩ | ⟨rfl, rfl⟩ | ⟨rfl, rfl⟩ | ⟨hreg, rfl⟩⟩ := decodeAccess_ok h
  · exact wf_decodeSrc hwin a
  · exact wf_decodeDst hwin a
  · exact wf_decodeSize hwin a
  · exact wf_decodeCmd hwin a
  · exact wf_decodeStatus hwin a
  · exact wf_decodeUnmapped hreg hwin a

/-- The decoder on the fields of a word, once: kind 0 is an access, the others are events and internal steps. -/
theorem decodeWord_cases (d : Word) (o : Operand) :
    ((fieldsOf d).kind = 0#3 ∧ decodeWord d o = decodeAccess (if (fieldsOf d).dir = 1#1 then .write o.value else .read)
      (fieldsOf d).offset.toNat (fieldsOf d).width.toNat) ∨
    ((fieldsOf d).kind = 1#3 ∧ decodeWord d o = .ok (.submit o.pkt)) ∨
    ((fieldsOf d).kind = 2#3 ∧ decodeWord d o = .ok .drain) ∨
    ((fieldsOf d).kind = 3#3 ∧ decodeWord d o = .ok .peerReady) ∨
    ((fieldsOf d).kind = 4#3 ∧ decodeWord d o = .ok .readDone) ∨
    ((fieldsOf d).kind = 5#3 ∧ decodeWord d o = .ok .writeDone) ∨
    ((fieldsOf d).kind = 6#3 ∧ decodeWord d o = .ok .rangeQuery) ∨
    ((fieldsOf d).kind = 7#3 ∧ decodeWord d o = decodeSubstep (fieldsOf d).offset.toNat o) := by
  have hkinds : ∀ k : BitVec 3, k = 0#3 ∨ k = 1#3 ∨ k = 2#3 ∨ k = 3#3 ∨ k = 4#3 ∨ k = 5#3 ∨ k = 6#3 ∨ k = 7#3 := by
    decide
  rcases hkinds (fieldsOf d).kind with hk | hk | hk | hk | hk | hk | hk | hk <;>
    simp [decodeWord, decodeFields, hk]

/-- The internal steps, once. -/
theorem decodeSubstep_cases (n : Nat) (o : Operand) :
    (n = 0 ∧ decodeSubstep n o = .ok .start) ∨ (n = 1 ∧ decodeSubstep n o = .ok (.translate o.va o.n)) ∨
      (n = 2 ∧ decodeSubstep n o = .ok .tryDeliver) ∨
      (3 ≤ n ∧ decodeSubstep n o = .error (.reservedSubstep n)) := by
  unfold decodeSubstep
  split_ifs <;> simp_all
  omega

/-- An operation decoded from an address is well formed. -/
theorem wf_of_decodeAddress {base : Nat} {a : Access} {address width : Nat} {i : Instr}
    (h : decodeAddress base a address width = .ok i) : i.wf = true := by
  unfold decodeAddress at h
  split_ifs at h
  exact wf_of_decodeAccess h

/-- An operation decoded from a word is well formed. -/
theorem wf_of_decodeWord {d : Word} {o : Operand} {i : Instr} (h : decodeWord d o = .ok i) : i.wf = true := by
  rcases decodeWord_cases d o with ⟨-, hd⟩ | ⟨-, hd⟩ | ⟨-, hd⟩ | ⟨-, hd⟩ | ⟨-, hd⟩ | ⟨-, hd⟩ | ⟨-, hd⟩ | ⟨-, hd⟩ <;>
    rw [hd] at h
  · exact wf_of_decodeAccess h
  iterate 6
    · cases h
      rfl
  · rcases decodeSubstep_cases (fieldsOf d).offset.toNat o with ⟨-, hs⟩ | ⟨-, hs⟩ | ⟨-, hs⟩ | ⟨-, hs⟩ <;>
      rw [hs] at h <;> cases h <;> rfl

/-- Settles O4: all three forms of a request are decoded as an access or as a word. -/
theorem decodedIsWellFormed : Obligations.DecodedIsWellFormed := by
  intro base r i h
  cases r with
  | word d o => exact wf_of_decodeWord h
  | access a address width => exact wf_of_decodeAddress h
  | payload address bytes => exact wf_of_decodeAddress h

/-- Settles O6: each word evaluates to its operation, its operand left open. -/
theorem specVectorWordsDecode : Obligations.SpecVectorWordsDecode := by
  intro o
  refine ⟨?_, ?_, ?_, ?_, ?_, ?_, ?_, ?_, ?_, ?_, ?_, ?_, ?_, ?_⟩ <;> rfl

end Sys2Proof
end

