-- ==== Sys2Proof/Proofs/OpcodeTable.lean ====
section
/-! PROOFS. The decoder reads every word as the opcode table's first matching row (30_encoding.md R109, R110). -/

namespace Sys2Proof

/-! ## Which rows can match a word -/

/-- Every row looks at the kind. -/
theorem kind_of_matchesWord {r : Row} (hr : r ∈ opcodeRows) {d : Word} (h : r.matchesWord d = true) :
    (fieldsOf d).kind = (fieldsOf r.pattern).kind := by
  have hmask : ∀ r ∈ opcodeRows, (fieldsOf r.mask).kind = BitVec.allOnes 3 := by decide
  obtain ⟨hk, -⟩ := (and_eq_iff d r.mask r.pattern).1 (beq_iff_eq.1 h)
  rwa [hmask r hr, BitVec.and_allOnes] at hk

/-- An exact hit is matched by its own word alone. -/
theorem eq_of_hit_matchesWord {r : Row} (hr : r ∈ hitRows) {d : Word} (h : r.matchesWord d = true) :
    d = r.pattern := by
  have hmask : ∀ r ∈ hitRows, r.mask = 0xFFFFFF#24 := by decide
  have hd : d &&& r.mask = r.pattern := beq_iff_eq.1 h
  rwa [hmask r hr, exact_mask] at hd

/-- No row of these matches a word of another kind. -/
theorem find?_eq_none_of_kind {rows : List Row} (hrows : ∀ r ∈ rows, r ∈ opcodeRows) {d : Word}
    (h : ∀ r ∈ rows, (fieldsOf r.pattern).kind ≠ (fieldsOf d).kind) :
    rows.find? (fun r => r.matchesWord d) = none :=
  List.find?_eq_none.2 fun r hr hm => h r hr (kind_of_matchesWord (hrows r hr) hm).symm

/-- A word of kind 1 to 7 takes a row of the events and internal steps. -/
theorem rowOf_of_event {d : Word} (hk : (fieldsOf d).kind ≠ 0#3) :
    rowOf d = (eventRows.find? (fun r => r.matchesWord d)).map Row.mnemonic := by
  have hhit : ∀ r ∈ hitRows, r ∈ opcodeRows ∧ (fieldsOf r.pattern).kind = 0#3 := by decide
  have hfall : ∀ r ∈ fallRows, r ∈ opcodeRows ∧ (fieldsOf r.pattern).kind = 0#3 := by decide
  simp only [rowOf, opcodeRows, List.find?_append]
  rw [find?_eq_none_of_kind (fun r hr => (hhit r hr).1) fun r hr h => hk (h.symm.trans (hhit r hr).2),
    find?_eq_none_of_kind (fun r hr => (hfall r hr).1) fun r hr h => hk (h.symm.trans (hfall r hr).2),
    Option.none_or, Option.or_none]

/-- A word of kind 0 that is no exact hit takes a row of the width mismatches and misses. -/
theorem rowOf_of_noHit {d : Word} (hk : (fieldsOf d).kind = 0#3) (hno : ∀ r ∈ hitRows, d ≠ r.pattern) :
    rowOf d = (fallRows.find? (fun r => r.matchesWord d)).map Row.mnemonic := by
  have hev : ∀ r ∈ eventRows, r ∈ opcodeRows ∧ (fieldsOf r.pattern).kind ≠ 0#3 := by decide
  have hhits : hitRows.find? (fun r => r.matchesWord d) = none :=
    List.find?_eq_none.2 fun r hr hm => hno r hr (eq_of_hit_matchesWord hr hm)
  simp only [rowOf, opcodeRows, List.find?_append]
  rw [hhits, find?_eq_none_of_kind (fun r hr => (hev r hr).1) fun r hr h => (hev r hr).2 (h.trans hk),
    Option.none_or, Option.none_or]

/-! ## What a row tests of the fields -/

theorem matchesWord_kind (m : String) (p d : Word) (n : Nat) :
    Row.matchesWord ⟨m, p, 0xE00000#24, n⟩ d = decide ((fieldsOf d).kind = (fieldsOf p).kind ∧
      (fieldsOf p).dir = 0#1 ∧ (fieldsOf p).width = 0#8 ∧ (fieldsOf p).offset = 0#12) := by
  rw [Row.matchesWord, beq_eq_decide, decide_eq_decide]
  exact kind_mask d p

theorem matchesWord_kind_offset (m : String) (p d : Word) (n : Nat) :
    Row.matchesWord ⟨m, p, 0xE00FFF#24, n⟩ d = decide ((fieldsOf d).kind = (fieldsOf p).kind ∧
      (fieldsOf p).dir = 0#1 ∧ (fieldsOf p).width = 0#8 ∧ (fieldsOf d).offset = (fieldsOf p).offset) := by
  rw [Row.matchesWord, beq_eq_decide, decide_eq_decide]
  exact kind_offset_mask d p

theorem matchesWord_kind_dir (m : String) (p d : Word) (n : Nat) :
    Row.matchesWord ⟨m, p, 0xF00000#24, n⟩ d = decide ((fieldsOf d).kind = (fieldsOf p).kind ∧
      (fieldsOf d).dir = (fieldsOf p).dir ∧ (fieldsOf p).width = 0#8 ∧ (fieldsOf p).offset = 0#12) := by
  rw [Row.matchesWord, beq_eq_decide, decide_eq_decide]
  exact kind_dir_mask d p

/-- The fields of a word given by its number. -/
theorem fieldsOf_ofNat (n : Nat) : fieldsOf (BitVec.ofNat 24 n) =
    ⟨BitVec.ofNat 3 (n % 16777216 / 2097152), BitVec.ofNat 1 (n % 16777216 / 1048576),
      BitVec.ofNat 8 (n % 16777216 / 4096), BitVec.ofNat 12 (n % 16777216)⟩ := by
  obtain ⟨hk, hd, hw, ho⟩ := fieldsOf_toNat (BitVec.ofNat 24 n)
  rw [BitVec.toNat_ofNat] at hk hd hw ho
  exact Fields.ext_toNat (by simpa using hk) (by simpa using hd) (by simpa using hw) (by simpa using ho)

/-! ## The row by kind, offset and direction -/

/-- The row of an event, by its kind. -/
theorem rowOf_of_kind {d : Word} :
    ((fieldsOf d).kind = 1#3 → rowOf d = some "SUBMIT") ∧ ((fieldsOf d).kind = 2#3 → rowOf d = some "DRAIN") ∧
      ((fieldsOf d).kind = 3#3 → rowOf d = some "PEER_READY") ∧
      ((fieldsOf d).kind = 4#3 → rowOf d = some "READ_DONE") ∧
      ((fieldsOf d).kind = 5#3 → rowOf d = some "WRITE_DONE") ∧
      ((fieldsOf d).kind = 6#3 → rowOf d = some "RANGE_QUERY") := by
  refine ⟨fun hk => ?_, fun hk => ?_, fun hk => ?_, fun hk => ?_, fun hk => ?_, fun hk => ?_⟩ <;>
    rw [rowOf_of_event (by rw [hk]; decide)] <;> simp [eventRows, matchesWord_kind, fieldsOf_ofNat, hk]

/-- The row of an internal step, by its number. -/
theorem rowOf_of_substep {d : Word} (hk : (fieldsOf d).kind = 7#3) :
    ((fieldsOf d).offset.toNat = 0 → rowOf d = some "START") ∧
      ((fieldsOf d).offset.toNat = 1 → rowOf d = some "TRANSLATE") ∧
      ((fieldsOf d).offset.toNat = 2 → rowOf d = some "TRY_DELIVER") ∧
      (3 ≤ (fieldsOf d).offset.toNat → rowOf d = none) := by
  rw [rowOf_of_event (by rw [hk]; decide)]
  simp only [eventRows, List.find?_cons, matchesWord_kind, matchesWord_kind_offset, fieldsOf_ofNat, hk,
    ← BitVec.toNat_inj]
  refine ⟨fun h => ?_, fun h => ?_, fun h => ?_, fun h => ?_⟩
  · simp [h]
  · simp [h]
  · simp [h]
  · have h0 : (fieldsOf d).offset.toNat ≠ 0 := by omega
    have h1 : (fieldsOf d).offset.toNat ≠ 1 := by omega
    have h2 : (fieldsOf d).offset.toNat ≠ 2 := by omega
    simp [h0, h1, h2]

/-- The row of a word of kind 0 that is no exact hit: a width mismatch at a register's offset, else a miss of its
direction. -/
theorem rowOf_of_access {d : Word} (hk : (fieldsOf d).kind = 0#3) (hno : ∀ r ∈ hitRows, d ≠ r.pattern) :
    ((fieldsOf d).offset.toNat = 0x00 → rowOf d = some "BADW_SRC") ∧
      ((fieldsOf d).offset.toNat = 0x04 → rowOf d = some "BADW_DST") ∧
      ((fieldsOf d).offset.toNat = 0x08 → rowOf d = some "BADW_SIZE") ∧
      ((fieldsOf d).offset.toNat = 0x0C → rowOf d = some "BADW_CMD") ∧
      ((fieldsOf d).offset.toNat = 0x10 → rowOf d = some "BADW_STATUS") ∧
      (isRegOffset (fieldsOf d).offset.toNat = false →
        rowOf d = some (if (fieldsOf d).dir = 1#1 then "WR_UNMAPPED" else "RD_UNMAPPED")) := by
  rw [rowOf_of_noHit hk hno]
  simp only [fallRows, List.find?_cons, matchesWord_kind_dir, matchesWord_kind_offset, fieldsOf_ofNat, hk,
    ← BitVec.toNat_inj]
  refine ⟨fun h => ?_, fun h => ?_, fun h => ?_, fun h => ?_, fun h => ?_, fun h => ?_⟩
  · simp [h]
  · simp [h]
  · simp [h]
  · simp [h]
  · simp [h]
  · obtain ⟨h0, h4, h8, hC, h10⟩ := isRegOffset_eq_false_iff.1 h
    have hdir : (fieldsOf d).dir.toNat = 0 ∨ (fieldsOf d).dir.toNat = 1 := by omega
    rcases hdir with hd | hd <;> simp [h0, h4, h8, hC, h10, hd]

/-! ## Exact hits -/

/-- Offset and width of the exact hits (30_encoding.md R110, priority 1). -/
def hitShapes : List (Nat × Nat) :=
  [(0x00, 4), (0x00, 8), (0x04, 4), (0x04, 8), (0x08, 4), (0x0C, 4), (0x10, 4)]

/-- A word with another offset and width is no exact hit. -/
theorem ne_hit_of_shape {d : Word} (h : ((fieldsOf d).offset.toNat, (fieldsOf d).width.toNat) ∉ hitShapes) :
    ∀ r ∈ hitRows, d ≠ r.pattern := by
  have hshape : ∀ r ∈ hitRows, ((fieldsOf r.pattern).offset.toNat, (fieldsOf r.pattern).width.toNat) ∈ hitShapes := by
    decide
  rintro r hr rfl
  exact h (hshape r hr)

/-- The exact hits take their own rows, by direction. -/
theorem rowOf_hit (dir : BitVec 1) :
    rowOf (wordOf ⟨0#3, dir, 4#8, 0x00#12⟩) = some (if dir = 1#1 then "WR_SRC_LO" else "RD_SRC_LO") ∧
      rowOf (wordOf ⟨0#3, dir, 8#8, 0x00#12⟩) = some (if dir = 1#1 then "WR_SRC" else "RD_SRC") ∧
      rowOf (wordOf ⟨0#3, dir, 4#8, 0x04#12⟩) = some (if dir = 1#1 then "WR_DST_LO" else "RD_DST_LO") ∧
      rowOf (wordOf ⟨0#3, dir, 8#8, 0x04#12⟩) = some (if dir = 1#1 then "WR_DST" else "RD_DST") ∧
      rowOf (wordOf ⟨0#3, dir, 4#8, 0x08#12⟩) = some (if dir = 1#1 then "WR_SIZE" else "RD_SIZE") ∧
      rowOf (wordOf ⟨0#3, dir, 4#8, 0x0C#12⟩) = some (if dir = 1#1 then "WR_CMD" else "RD_CMD") ∧
      rowOf (wordOf ⟨0#3, dir, 4#8, 0x10#12⟩) = some (if dir = 1#1 then "WR_STATUS" else "RD_STATUS") := by
  revert dir
  decide

/-- A word of kind 0 by its direction, offset and width. -/
theorem eq_wordOf_access {d : Word} {offset width : Nat} (hk : (fieldsOf d).kind = 0#3)
    (ho : (fieldsOf d).offset.toNat = offset) (hw : (fieldsOf d).width.toNat = width) :
    d = wordOf ⟨0#3, (fieldsOf d).dir, BitVec.ofNat 8 width, BitVec.ofNat 12 offset⟩ := by
  rw [← ho, ← hw, ← hk, BitVec.ofNat_toNat, BitVec.ofNat_toNat, BitVec.setWidth_eq, BitVec.setWidth_eq,
    wordOf_fieldsOf]

/-- An access that the decoder takes as an operation takes that operation's row. -/
theorem rowOf_of_decodeAccess {d : Word} {v : Nat} {i : Instr} (hk : (fieldsOf d).kind = 0#3)
    (h : decodeAccess (if (fieldsOf d).dir = 1#1 then .write v else .read) (fieldsOf d).offset.toNat
      (fieldsOf d).width.toNat = .ok i) : rowOf d = some (mnemonicOf i) := by
  obtain ⟨hsrcLo, hsrc, hdstLo, hdst, hsize, hcmd, hstatus⟩ := rowOf_hit (fieldsOf d).dir
  obtain ⟨-, ⟨ho, rfl⟩ | ⟨ho, rfl⟩ | ⟨ho, rfl⟩ | ⟨ho, rfl⟩ | ⟨ho, rfl⟩ | ⟨hreg, rfl⟩⟩ := decodeAccess_ok h
  · by_cases h4 : (fieldsOf d).width.toNat = 4
    · rw [eq_wordOf_access hk ho h4, hsrcLo, fieldsOf_wordOf]
      simp only [decodeSrc]
      split <;> rfl
    · by_cases h8 : (fieldsOf d).width.toNat = 8
      · rw [eq_wordOf_access hk ho h8, hsrc, fieldsOf_wordOf]
        simp only [decodeSrc]
        split <;> rfl
      · rw [decodeSrc_of_badWidth h4 h8]
        obtain ⟨hrow, -⟩ := rowOf_of_access hk (ne_hit_of_shape (by simp [hitShapes, ho, h4, h8]))
        exact hrow ho
  · by_cases h4 : (fieldsOf d).width.toNat = 4
    · rw [eq_wordOf_access hk ho h4, hdstLo, fieldsOf_wordOf]
      simp only [decodeDst]
      split <;> rfl
    · by_cases h8 : (fieldsOf d).width.toNat = 8
      · rw [eq_wordOf_access hk ho h8, hdst, fieldsOf_wordOf]
        simp only [decodeDst]
        split <;> rfl
      · rw [decodeDst_of_badWidth h4 h8]
        obtain ⟨-, hrow, -⟩ := rowOf_of_access hk (ne_hit_of_shape (by simp [hitShapes, ho, h4, h8]))
        exact hrow ho
  · by_cases h4 : (fieldsOf d).width.toNat = 4
    · rw [eq_wordOf_access hk ho h4, hsize, fieldsOf_wordOf]
      simp only [decodeSize]
      split <;> rfl
    · rw [decodeSize_of_badWidth h4]
      obtain ⟨-, -, hrow, -⟩ := rowOf_of_access hk (ne_hit_of_shape (by simp [hitShapes, ho, h4]))
      exact hrow ho
  · by_cases h4 : (fieldsOf d).width.toNat = 4
    · rw [eq_wordOf_access hk ho h4, hcmd, fieldsOf_wordOf]
      simp only [decodeCmd]
      split <;> rfl
    · rw [decodeCmd_of_badWidth h4]
      obtain ⟨-, -, -, hrow, -⟩ := rowOf_of_access hk (ne_hit_of_shape (by simp [hitShapes, ho, h4]))
      exact hrow ho
  · by_cases h4 : (fieldsOf d).width.toNat = 4
    · rw [eq_wordOf_access hk ho h4, hstatus, fieldsOf_wordOf]
      simp only [decodeStatus]
      split <;> rfl
    · rw [decodeStatus_of_badWidth h4]
      obtain ⟨-, -, -, -, hrow, -⟩ := rowOf_of_access hk (ne_hit_of_shape (by simp [hitShapes, ho, h4]))
      exact hrow ho
  · have hno := isRegOffset_eq_false_iff.1 hreg
    obtain ⟨-, -, -, -, -, hrow⟩ := rowOf_of_access hk (ne_hit_of_shape (by simp [hitShapes, hno]))
    rw [hrow hreg]
    split <;> rfl

/-- Settles O1: by the word's kind; an access and an internal step by what the decoder answers for it. -/
theorem decoderFollowsOpcodeTable : Obligations.DecoderFollowsOpcodeTable := by
  intro d o
  obtain ⟨hsubmit, hdrain, hpeerReady, hreadDone, hwriteDone, hrangeQuery⟩ := rowOf_of_kind (d := d)
  rcases decodeWord_cases d o with ⟨hk, hd⟩ | ⟨hk, hd⟩ | ⟨hk, hd⟩ | ⟨hk, hd⟩ | ⟨hk, hd⟩ | ⟨hk, hd⟩ | ⟨hk, hd⟩ |
    ⟨hk, hd⟩ <;> rw [hd]
  · cases ha : decodeAccess (if (fieldsOf d).dir = 1#1 then .write o.value else .read) (fieldsOf d).offset.toNat
      (fieldsOf d).width.toNat with
    | ok i => exact rowOf_of_decodeAccess hk ha
    | error why =>
      obtain ⟨rfl, hwin⟩ := decodeAccess_error ha
      have hlt := (fieldsOf d).offset.isLt
      have hout := mt inWindow_iff.2 (Bool.not_eq_true _ ▸ hwin)
      exact ⟨hk, by omega⟩
  · exact hsubmit hk
  · exact hdrain hk
  · exact hpeerReady hk
  · exact hreadDone hk
  · exact hwriteDone hk
  · exact hrangeQuery hk
  · obtain ⟨hstart, htranslate, htryDeliver, hnone⟩ := rowOf_of_substep hk
    rcases decodeSubstep_cases (fieldsOf d).offset.toNat o with ⟨hn, hs⟩ | ⟨hn, hs⟩ | ⟨hn, hs⟩ | ⟨hn, hs⟩ <;> rw [hs]
    · exact hstart hn
    · exact htranslate hn
    · exact htryDeliver hn
    · exact ⟨hnone hn, hk, rfl, hn⟩

end Sys2Proof
end

