-- ==== Sys2Proof/Proofs/Operations.lean ====
section
/-! PROOFS. What an operation may write, log, send and latch, whichever it is (10_state.md section 1, 40_mmio_register_access.md
section 1, 60_exceptions.md sections 3 and 6). -/

namespace Sys2Proof.Machine

/-! ## Fatal conditions -/

/-- After a fatal condition every operation is refused (60_exceptions.md R274). -/
theorem exec_of_fault {s : State} {f : Fatal} (hf : s.fault = some f) (i : Instr) :
    exec i s = .refused (.afterFatal f) := by
  cases i <;> exact whenLive_of_fault hf _

/-- After a fatal condition an act that every view refuses is refused. -/
theorem performAt_of_fault {s : State} {f : Fatal} (hf : s.fault = some f) (w : Who) {act : State → Result}
    (hact : ∀ v : State, v.fault = some f → act v = .refused (.afterFatal f)) :
    performAt w act s = .refused (.afterFatal f) := by
  unfold performAt
  cases hv : viewAt s w with
  | none => exact whenLive_of_fault hf _
  | some v =>
    obtain ⟨-, hfault, -⟩ := viewAt_shared hv
    simp only [hact v (hfault.trans hf)]

/-- After a fatal condition every stimulus is refused. -/
theorem perform_of_fault {s : State} {f : Fatal} (hf : s.fault = some f) (e : Stimulus) :
    perform e s = .refused (.afterFatal f) := by
  cases e with
  | request r =>
    simp only [perform, runRequest]
    split
    · exact exec_of_fault hf _
    · exact whenLive_of_fault hf _
  | byteAccess | advance | foreignStore | remap | queuePortQuery => exact whenLive_of_fault hf _
  | sibling k a =>
    cases a with
    | request r =>
      simp only [perform, performAct]
      split
      · exact performAt_of_fault hf _ fun v hv => exec_of_fault hv _
      · exact whenLive_of_fault hf _
    | byteAccess | remap | queuePortQuery => exact performAt_of_fault hf _ fun v hv => whenLive_of_fault hv _

/-- Settles O44: the latch is tested before every operation, every stimulus and every internal event. -/
theorem fatalIsAbsorbing : Obligations.FatalIsAbsorbing := by
  refine fun s f hf => ⟨exec_of_fault hf, fun hin => ?idle, fun hin => ?stimulus⟩
  case idle => simp [step, stepOnce, hin, idle, hf]
  case stimulus =>
    obtain ⟨e, rest, he⟩ := List.exists_cons_of_ne_nil hin
    simp only [step, stepOnce, he]
    exact perform_of_fault (s := { s with inbox := rest }) hf e

/-- START's effect raises by latching alone. -/
theorem startEffect_of_fault {s : State} {f : Fatal} (hlive : s.fault = none) (hf : (startEffect s).fault = some f) :
    startEffect s = { s with fault := some f } := by
  rcases startEffect_cases s with ⟨g, -, h⟩ | ⟨snap, segs, -, h⟩
  · rw [h] at hf ⊢
    cases hf
    rfl
  · rw [h] at hf
    cases hlive.symm.trans hf

@[simp] theorem respondIfLive_fault (s : State) (r : Reply) : (respondIfLive s r).fault = s.fault := by
  rw [respondIfLive_frame]

@[simp] theorem tryDeliver_fault (s : State) : (tryDeliver s).fault = s.fault := by
  rw [tryDeliver_frame]

/-- Settles O45: only START, READ_DONE, PEER_READY, TRANSLATE and the width mismatches raise, each by latching alone. -/
theorem fatalEntryIsPrecise : Obligations.FatalEntryIsPrecise := by
  intro i s t f h hf
  have hlive := exec_next_live h
  have absurdLive : ∀ {P : Prop}, t.fault = s.fault → P := fun hsame => by
    rw [hsame, hlive] at hf
    cases hf
  cases i
  case badwSrc | badwDst | badwSize | badwCmd | badwStatus =>
    obtain ⟨-, rfl⟩ := whenLive_next_state.1 h
    cases hf
    exact .inl rfl
  case wrCmd v =>
    rcases exec_wrCmd_next.1 h with ⟨-, ⟨-, -, rfl⟩ | ⟨-, rfl⟩ | ⟨htrigger, -, -, rfl⟩⟩
    · exact absurdLive rfl
    · exact absurdLive rfl
    · have hstart : (startEffect { s with command := v }).fault = some f := (respondIfLive_fault _ _).symm.trans hf
      rw [respondIfLive_of_fault hstart, startEffect_of_fault (s := { s with command := v }) hlive hstart]
      exact .inr ⟨v, rfl, htrigger, rfl⟩
  case start =>
    obtain ⟨-, -, -, rfl⟩ := exec_start_next.1 h
    exact .inl (startEffect_of_fault hlive hf)
  case readDone =>
    obtain ⟨-, snap, segs, -, -, -, rfl⟩ := exec_readDone_next.1 h
    rcases readDoneEffect_cases s snap with ⟨g, -, heff⟩ | ⟨dst, -, heff⟩
    · rw [heff] at hf ⊢
      cases hf
      exact .inl rfl
    · exact absurdLive (by rw [heff])
  case writeDone =>
    obtain ⟨-, snap, segs, -, -, rfl⟩ := exec_writeDone_next.1 h
    exact absurdLive rfl
  case submit p =>
    obtain ⟨-, rfl⟩ := exec_submit_next.1 h
    exact absurdLive (by rw [submitEffect_frame])
  case drain =>
    obtain ⟨-, -, rfl⟩ := exec_drain_next.1 h
    exact absurdLive (by rw [drainEffect_frame])
  case tryDeliver =>
    obtain ⟨-, -, -, rfl⟩ := exec_tryDeliver_next.1 h
    exact absurdLive (tryDeliver_fault s)
  case peerReady =>
    obtain ⟨-, rfl⟩ := exec_peerReady_next.1 h
    unfold peerReadyEffect at hf ⊢
    split at hf
    · cases (hlive.symm.trans ((tryDeliver_fault { s with retry := false }).symm.trans hf))
    · next hretry =>
      cases hf
      rw [if_neg hretry]
      exact .inl rfl
  case translate va n =>
    obtain ⟨-, rfl⟩ := exec_translate_next.1 h
    unfold translateEffect at hf ⊢
    split at hf
    · cases hf
      exact .inl rfl
    · cases hlive.symm.trans hf
  all_goals -- what is left reads, writes a register, warns or answers
    obtain ⟨-, rfl⟩ := whenLive_next_state.1 h
    exact absurdLive rfl

/-! ## The log -/

/-- Settles O46: the two accesses at an unmapped offset and the rejected trigger are the operations that warn. -/
theorem onlyTheTwoWarningsAreLogged : Obligations.OnlyTheTwoWarningsAreLogged := by
  intro i s t h
  have silent : t.log = s.log → t.log = s.log ++ [] := fun hsame => by rw [hsame, List.append_nil]
  cases i
  case rdUnmapped | wrUnmapped =>
    obtain ⟨-, rfl⟩ := whenLive_next_state.1 h
    rfl
  case wrCmd v =>
    change t.log = s.log ++ if startBit v = true ∧ s.status = 1 then [.startWhileBusy] else []
    rcases exec_wrCmd_next.1 h with ⟨-, ⟨hbit, hbusy, rfl⟩ | ⟨hbit, rfl⟩ | ⟨-, hidle, -, rfl⟩⟩
    · rw [if_pos ⟨hbit, hbusy⟩]
      rfl
    · rw [if_neg fun hc => by simp [hbit] at hc]
      exact silent rfl
    · rw [if_neg fun hc => hidle hc.2]
      exact silent (by rw [respondIfLive_frame, startEffect_frame])
  case start =>
    obtain ⟨-, -, -, rfl⟩ := exec_start_next.1 h
    exact silent (by rw [startEffect_frame])
  case readDone =>
    obtain ⟨-, snap, segs, -, -, -, rfl⟩ := exec_readDone_next.1 h
    exact silent (by rw [readDoneEffect_frame])
  case writeDone =>
    obtain ⟨-, snap, segs, -, -, rfl⟩ := exec_writeDone_next.1 h
    exact silent rfl
  case translate =>
    obtain ⟨-, rfl⟩ := exec_translate_next.1 h
    exact silent (by rw [translateEffect_frame])
  case submit | drain | tryDeliver | peerReady => exact silent (by rw [exec_queue_frame rfl h])
  all_goals
    obtain ⟨-, rfl⟩ := whenLive_next_state.1 h
    exact silent rfl

/-! ## The phase and STATUS -/

/-- What an operation does to the phase and STATUS: nothing but a write of STATUS, or one move of a transfer
(41_transfer_controller.md R170, R176, R178). -/
inductive PhaseMove (i : Instr) (s t : State) : Prop where
  | kept (phase : t.phase = s.phase) (accessed : t.accessed = s.accessed)
      (status : t.status = s.status ∨ ∃ v, i = .wrStatus v)
  | begins (snap : Snapshot) (segs : Segs) (op : i = .start ∨ ∃ v, i = .wrCmd v) (idle : s.status ≠ 1)
      (check : startCheck s = .ok (snap, segs)) (outside : startTouchesWindow s = false)
      (phase : t.phase = .readPending snap segs) (accessed : t.accessed = []) (status : t.status = 1)
  | turns (snap : Snapshot) (segs dst : Segs) (op : i = .readDone) (before : s.phase = .readPending snap segs)
      (allRead : s.accessed.length = snap.size.toNat)
      (mapped : translation s snap.dst.toNat snap.size.toNat = .ok dst)
      (outside : readDoneTouchesWindow s snap = false) (phase : t.phase = .writePending snap dst)
      (accessed : t.accessed = []) (status : t.status = s.status)
  | ends (snap : Snapshot) (segs : Segs) (op : i = .writeDone) (before : s.phase = .writePending snap segs)
      (allWritten : s.accessed.length = snap.size.toNat) (phase : t.phase = .none) (accessed : t.accessed = [])
      (status : t.status = 2)

/-- START's effect is a move of the phase, or leaves phase and STATUS. -/
theorem startEffect_phaseMove {i : Instr} {s : State} (op : i = .start ∨ ∃ v, i = .wrCmd v) (idle : s.status ≠ 1)
    (outside : startTouchesWindow s = false) : PhaseMove i s (startEffect s) := by
  rcases startEffect_cases s with ⟨f, -, h⟩ | ⟨snap, segs, hcheck, h⟩ <;> rw [h]
  · exact .kept rfl rfl (.inl rfl)
  · exact .begins snap segs op idle hcheck outside rfl rfl rfl

theorem exec_phaseMove {i : Instr} {s t : State} (h : exec i s = .next t) : PhaseMove i s t := by
  cases i
  case wrStatus v =>
    obtain ⟨-, rfl⟩ := exec_wrStatus_next.1 h
    exact .kept rfl rfl (.inr ⟨v, rfl⟩)
  case wrCmd v =>
    rcases exec_wrCmd_next.1 h with ⟨-, ⟨-, -, rfl⟩ | ⟨-, rfl⟩ | ⟨-, hidle, hout, rfl⟩⟩
    · exact .kept rfl rfl (.inl rfl)
    · exact .kept rfl rfl (.inl rfl)
    · rw [respondIfLive_frame]
      cases startEffect_phaseMove (i := .wrCmd v) (s := { s with command := v }) (.inr ⟨v, rfl⟩) hidle hout with
      | kept phase accessed status => exact .kept phase accessed status
      | begins snap segs op _ check outside phase accessed status =>
        exact .begins snap segs op hidle check outside phase accessed status
      | turns _ _ _ op => cases op
      | ends _ _ op => cases op
  case start =>
    obtain ⟨-, hidle, hout, rfl⟩ := exec_start_next.1 h
    exact startEffect_phaseMove (.inl rfl) hidle hout
  case readDone =>
    obtain ⟨-, snap, segs, hphase, hread, hout, rfl⟩ := exec_readDone_next.1 h
    rcases readDoneEffect_cases s snap with ⟨f, -, heff⟩ | ⟨dst, hdst, heff⟩ <;> rw [heff]
    · exact .kept rfl rfl (.inl rfl)
    · exact .turns snap segs dst rfl hphase hread hdst hout rfl rfl rfl
  case writeDone =>
    obtain ⟨-, snap, segs, hphase, hwritten, rfl⟩ := exec_writeDone_next.1 h
    exact .ends snap segs rfl hphase hwritten rfl rfl rfl
  case translate =>
    obtain ⟨-, rfl⟩ := exec_translate_next.1 h
    rw [translateEffect_frame]
    exact .kept rfl rfl (.inl rfl)
  case submit | drain | tryDeliver | peerReady =>
    rw [exec_queue_frame rfl h]
    exact .kept rfl rfl (.inl rfl)
  all_goals
    obtain ⟨-, rfl⟩ := whenLive_next_state.1 h
    exact .kept rfl rfl (.inl rfl)

/-! ## The registers -/

/-- SRC_ADDR, DST_ADDR, SIZE and COMMAND have no writers but their own writes. -/
theorem exec_operand_registers {i : Instr} {s t : State} (h : exec i s = .next t) :
    (t.srcAddr = s.srcAddr ∨ (∃ v, i = .wrSrcLo v) ∨ ∃ v, i = .wrSrc v) ∧
      (t.dstAddr = s.dstAddr ∨ (∃ v, i = .wrDstLo v) ∨ ∃ v, i = .wrDst v) ∧
      (t.size = s.size ∨ ∃ v, i = .wrSize v) ∧ (t.command = s.command ∨ ∃ v, i = .wrCmd v) := by
  cases i
  case wrSrcLo v =>
    obtain ⟨-, rfl⟩ := exec_wrSrcLo_next.1 h
    exact ⟨.inr (.inl ⟨v, rfl⟩), .inl rfl, .inl rfl, .inl rfl⟩
  case wrSrc v =>
    obtain ⟨-, rfl⟩ := exec_wrSrc_next.1 h
    exact ⟨.inr (.inr ⟨v, rfl⟩), .inl rfl, .inl rfl, .inl rfl⟩
  case wrDstLo v =>
    obtain ⟨-, rfl⟩ := exec_wrDstLo_next.1 h
    exact ⟨.inl rfl, .inr (.inl ⟨v, rfl⟩), .inl rfl, .inl rfl⟩
  case wrDst v =>
    obtain ⟨-, rfl⟩ := exec_wrDst_next.1 h
    exact ⟨.inl rfl, .inr (.inr ⟨v, rfl⟩), .inl rfl, .inl rfl⟩
  case wrSize v =>
    obtain ⟨-, rfl⟩ := exec_wrSize_next.1 h
    exact ⟨.inl rfl, .inl rfl, .inr ⟨v, rfl⟩, .inl rfl⟩
  case wrCmd v =>
    rcases exec_wrCmd_next.1 h with ⟨-, ⟨-, -, rfl⟩ | ⟨-, rfl⟩ | ⟨-, -, -, rfl⟩⟩
    · exact ⟨.inl rfl, .inl rfl, .inl rfl, .inr ⟨v, rfl⟩⟩
    · exact ⟨.inl rfl, .inl rfl, .inl rfl, .inr ⟨v, rfl⟩⟩
    · rw [respondIfLive_frame, startEffect_frame]
      exact ⟨.inl rfl, .inl rfl, .inl rfl, .inr ⟨v, rfl⟩⟩
  case start =>
    obtain ⟨-, -, -, rfl⟩ := exec_start_next.1 h
    rw [startEffect_frame]
    exact ⟨.inl rfl, .inl rfl, .inl rfl, .inl rfl⟩
  case readDone =>
    obtain ⟨-, snap, segs, -, -, -, rfl⟩ := exec_readDone_next.1 h
    rw [readDoneEffect_frame]
    exact ⟨.inl rfl, .inl rfl, .inl rfl, .inl rfl⟩
  case writeDone =>
    obtain ⟨-, snap, segs, -, -, rfl⟩ := exec_writeDone_next.1 h
    exact ⟨.inl rfl, .inl rfl, .inl rfl, .inl rfl⟩
  case translate =>
    obtain ⟨-, rfl⟩ := exec_translate_next.1 h
    rw [translateEffect_frame]
    exact ⟨.inl rfl, .inl rfl, .inl rfl, .inl rfl⟩
  case submit | drain | tryDeliver | peerReady =>
    rw [exec_queue_frame rfl h]
    exact ⟨.inl rfl, .inl rfl, .inl rfl, .inl rfl⟩
  all_goals
    obtain ⟨-, rfl⟩ := whenLive_next_state.1 h
    exact ⟨.inl rfl, .inl rfl, .inl rfl, .inl rfl⟩

/-- STATUS has four writers (10_state.md R25). -/
theorem PhaseMove.status_eq {i : Instr} {s t : State} (h : PhaseMove i s t) (hstatus : ∀ v, i ≠ .wrStatus v)
    (hcmd : ∀ v, i ≠ .wrCmd v) (hstart : i ≠ .start) (hdone : i ≠ .writeDone) : t.status = s.status := by
  cases h with
  | kept _ _ status => exact status.resolve_right fun ⟨v, hv⟩ => hstatus v hv
  | begins _ _ op => exact absurd op (not_or.2 ⟨hstart, fun ⟨v, hv⟩ => hcmd v hv⟩)
  | turns _ _ _ _ _ _ _ _ _ _ status => exact status
  | ends _ _ op => exact absurd op hdone

/-- The phase has four writers (10_state.md R26). -/
theorem PhaseMove.phase_eq {i : Instr} {s t : State} (h : PhaseMove i s t) (hcmd : ∀ v, i ≠ .wrCmd v)
    (hstart : i ≠ .start) (hread : i ≠ .readDone) (hwrite : i ≠ .writeDone) :
    t.phase = s.phase ∧ t.accessed = s.accessed := by
  cases h with
  | kept phase accessed => exact ⟨phase, accessed⟩
  | begins _ _ op => exact absurd op (not_or.2 ⟨hstart, fun ⟨v, hv⟩ => hcmd v hv⟩)
  | turns _ _ _ op => exact absurd op hread
  | ends _ _ op => exact absurd op hwrite

/-- Settles O47: the operand registers have their own writes, STATUS and the phase those that move a transfer. -/
theorem registersHaveOnlyTheirWriters : Obligations.RegistersHaveOnlyTheirWriters := by
  intro i s t h
  obtain ⟨hsrc, hdst, hsize, hcommand⟩ := exec_operand_registers h
  have hmove := exec_phaseMove h
  exact ⟨fun hlo hall => hsrc.resolve_right (not_or.2 ⟨fun ⟨v, hv⟩ => hlo v hv, fun ⟨v, hv⟩ => hall v hv⟩),
    fun hlo hall => hdst.resolve_right (not_or.2 ⟨fun ⟨v, hv⟩ => hlo v hv, fun ⟨v, hv⟩ => hall v hv⟩),
    fun hne => hsize.resolve_right fun ⟨v, hv⟩ => hne v hv,
    fun hne => hcommand.resolve_right fun ⟨v, hv⟩ => hne v hv, hmove.status_eq, hmove.phase_eq⟩

/-- Settles O48: no field of these is among those that an operation's frame names. -/
theorem operationsLeaveMemoryAlone : Obligations.OperationsLeaveMemoryAlone := by
  intro i s t h
  obtain ⟨hmem, hstg, hnow, hplat, hpt, hinbox, hengines, hqueues⟩ := exec_frame h
  exact ⟨fun a => by rw [hmem], hmem, fun k => by rw [hstg], hstg, hnow, hplat, hpt, hinbox, hengines, hqueues⟩

end Sys2Proof.Machine
end

