-- ==== Sys2Proof/Proofs/Outputs.lean ====
section
/-! PROOFS. What the operations send: the one response of an access (40_mmio_register_access.md R130, R131), and that only
the queue's operations speak of packets. -/

namespace Sys2Proof.Machine

@[simp] theorem startEffect_outputs (s : State) : (startEffect s).outputs = s.outputs := by
  rw [startEffect_frame]

@[simp] theorem startEffect_now (s : State) : (startEffect s).now = s.now := by
  rw [startEffect_frame]

/-- An operation that is an access answers it once, or raises and answers nothing. -/
theorem exec_access_outputs {i : Instr} {s t : State} (hmmio : (accessOf i).isSome = true)
    (h : exec i s = .next t) :
    (t.fault = none ∧ ∃ r, t.outputs = s.outputs ++ [.response (s.now + Config.pioLatency) r]) ∨
      (∃ f, t.fault = some f ∧ t.outputs = s.outputs) := by
  have hlive := exec_next_live h
  cases i
  case wrCmd v =>
    rcases exec_wrCmd_next.1 h with ⟨-, ⟨-, -, rfl⟩ | ⟨-, rfl⟩ | ⟨-, -, -, rfl⟩⟩
    · exact .inl ⟨hlive, _, rfl⟩
    · exact .inl ⟨hlive, _, rfl⟩
    · cases hf : (startEffect { s with command := v }).fault with
      | none =>
        rw [respondIfLive_of_live hf]
        exact .inl ⟨hf, .done, by simp⟩
      | some f =>
        rw [respondIfLive_of_fault hf]
        exact .inr ⟨f, hf, by simp⟩
  case badwSrc | badwDst | badwSize | badwCmd | badwStatus =>
    obtain ⟨-, rfl⟩ := whenLive_next_state.1 h
    exact .inr ⟨_, rfl, rfl⟩
  case start | readDone | writeDone | submit | drain | tryDeliver | peerReady | translate | rangeQuery => cases hmmio
  all_goals
    obtain ⟨-, rfl⟩ := whenLive_next_state.1 h
    exact .inl ⟨hlive, _, rfl⟩

/-- A trigger whose checks pass and whose source touches the window is refused (20_memory.md R85 (a)). -/
theorem exec_wrCmd_of_touchesWindow {s : State} {v : U32} (hlive : s.fault = none) (hbit : startBit v = true)
    (hidle : s.status ≠ 1) (hwin : startTouchesWindow { s with command := v } = true) :
    exec (.wrCmd v) s = .refused .touchesWindow := by
  have hbusy : busy s = false := decide_eq_false hidle
  simp [exec, execWrCmd, whenLive_of_live hlive, hbit, hbusy, startThen, refusesZeroSize, Config.zeroSizePolicy, hwin]

/-- In a live state an access completes, but for a trigger whose source touches the window. -/
theorem exec_access_completes {i : Instr} {s : State} (hlive : s.fault = none) (hmmio : (accessOf i).isSome = true) :
    (∃ t, exec i s = .next t) ∨ exec i s = .refused .touchesWindow ∧ ∃ v, i = .wrCmd v := by
  cases i
  case wrCmd v =>
    by_cases hbit : startBit v = true
    · by_cases hbusy : s.status = 1
      · exact .inl ⟨_, exec_wrCmd_next.2 ⟨hlive, .inl ⟨hbit, hbusy, rfl⟩⟩⟩
      · cases hwin : startTouchesWindow { s with command := v } with
        | false => exact .inl ⟨_, exec_wrCmd_next.2 ⟨hlive, .inr (.inr ⟨hbit, hbusy, hwin, rfl⟩)⟩⟩
        | true => exact .inr ⟨exec_wrCmd_of_touchesWindow hlive hbit hbusy hwin, v, rfl⟩
    · exact .inl ⟨_, exec_wrCmd_next.2 ⟨hlive, .inr (.inl ⟨by simpa using hbit, rfl⟩)⟩⟩
  case start | readDone | writeDone | submit | drain | tryDeliver | peerReady | translate | rangeQuery => cases hmmio
  all_goals exact .inl ⟨_, whenLive_of_live hlive _⟩

/-- Settles O22: an access completes but for the one refusal, and what completes answers once or raises. -/
theorem everyAccessRespondsOnce : Obligations.EveryAccessRespondsOnce := by
  intro i s hlive hmmio
  rcases exec_access_completes hlive hmmio with ⟨t, h⟩ | hrefused
  · rcases exec_access_outputs hmmio h with ⟨hf, r, hout⟩ | ⟨f, hf, hout⟩
    · exact .inl ⟨t, r, h, hf, hout⟩
    · exact .inr (.inl ⟨t, f, h, hf, hout⟩)
  · exact .inr (.inr hrefused)

/-! ## Packets -/

@[simp] theorem submittedPkts_append (l l' : List Output) :
    submittedPkts (l ++ l') = submittedPkts l ++ submittedPkts l' :=
  List.filterMap_append

@[simp] theorem deliveredPkts_append (l l' : List Output) :
    deliveredPkts (l ++ l') = deliveredPkts l ++ deliveredPkts l' :=
  List.filterMap_append

/-- From one state to another nothing has been sent that speaks of a packet. -/
def SendsNoPacket (s t : State) : Prop :=
  ∃ l, t.outputs = s.outputs ++ l ∧ submittedPkts l = [] ∧ deliveredPkts l = []

theorem SendsNoPacket.of_eq {s t : State} (h : t.outputs = s.outputs) : SendsNoPacket s t :=
  ⟨[], by rw [h, List.append_nil], rfl, rfl⟩

/-- The engine's operations speak of no packet. -/
theorem exec_engine_sendsNoPacket {i : Instr} {s t : State} (hi : isQueueOp i = false) (h : exec i s = .next t) :
    SendsNoPacket s t := by
  by_cases hmmio : (accessOf i).isSome = true
  · rcases exec_access_outputs hmmio h with ⟨-, r, hout⟩ | ⟨f, -, hout⟩
    · exact ⟨_, hout, rfl, rfl⟩
    · exact .of_eq hout
  · cases i
    case start =>
      obtain ⟨-, -, -, rfl⟩ := exec_start_next.1 h
      exact .of_eq (startEffect_outputs s)
    case readDone =>
      obtain ⟨-, snap, segs, -, -, -, rfl⟩ := exec_readDone_next.1 h
      exact .of_eq (by rw [readDoneEffect_frame])
    case writeDone =>
      obtain ⟨-, snap, segs, -, -, rfl⟩ := exec_writeDone_next.1 h
      exact .of_eq rfl
    case translate va n =>
      obtain ⟨-, rfl⟩ := exec_translate_next.1 h
      unfold translateEffect
      split
      · exact .of_eq rfl
      · exact ⟨_, rfl, rfl, rfl⟩
    case rangeQuery =>
      obtain ⟨-, rfl⟩ := exec_rangeQuery_next.1 h
      exact ⟨_, rfl, rfl, rfl⟩
    case submit | drain | tryDeliver | peerReady => cases hi
    all_goals exact absurd rfl hmmio

/-- SUBMIT reports the backend's call and its own answer (42_response_queue.md R201). -/
@[simp] theorem submitEffect_outputs (s : State) (p : Packet) : (submitEffect s p).outputs =
    s.outputs ++ [.serviced p (serviceAnswer s p).latency (serviceAnswer s p).packet, .accepted p] := by
  cases hp : p.needsResponse <;> simp [submitEffect, hp, enqueue, serviced]

/-- A delivery attempt only adds to what has been sent. -/
theorem tryDeliver_outputs_prefix (s : State) : s.outputs <+: (tryDeliver s).outputs := by
  rcases tryDeliver_cases s with ⟨-, h⟩ | ⟨e, rest, -, -, h⟩ | ⟨e, rest, -, -, h⟩ <;> rw [h]
  · exact ⟨[.delivered e.pkt s.now], by simp [deliverHead]⟩
  · simp

/-- No operation takes back what has been sent. -/
theorem exec_outputs_prefix {i : Instr} {s t : State} (h : exec i s = .next t) : s.outputs <+: t.outputs := by
  cases hi : isQueueOp i with
  | false =>
    obtain ⟨l, hl, -⟩ := exec_engine_sendsNoPacket hi h
    exact ⟨l, hl.symm⟩
  | true =>
    cases i <;> first | (cases hi; done) | skip
    case submit p =>
      obtain ⟨-, rfl⟩ := exec_submit_next.1 h
      exact ⟨_, (submitEffect_outputs s p).symm⟩
    case drain =>
      obtain ⟨-, -, rfl⟩ := exec_drain_next.1 h
      unfold drainEffect
      split
      · exact List.prefix_rfl
      · exact tryDeliver_outputs_prefix { s with drainAt := none }
    case tryDeliver =>
      obtain ⟨-, -, -, rfl⟩ := exec_tryDeliver_next.1 h
      exact tryDeliver_outputs_prefix s
    case peerReady =>
      obtain ⟨-, rfl⟩ := exec_peerReady_next.1 h
      unfold peerReadyEffect
      split
      · exact tryDeliver_outputs_prefix { s with retry := false }
      · exact List.prefix_rfl

end Sys2Proof.Machine
end

