-- ==== Sys2Proof/Proofs/Reset.lean ====
section
/-! PROOFS. What construction leaves, seen by every engine and queue (10_state.md R42, 70_reset_and_hazards.md R300,
R301). -/

namespace Sys2Proof.Machine

/-- An engine or queue right after construction: every register 0, nothing outstanding, queued, scheduled or sent. -/
structure AtReset (v : State) : Prop where
  status : v.status = 0
  phase : v.phase = .none
  accessed : v.accessed = []
  stg : stgWf v.stg = true
  queue : v.queue = []
  retry : v.retry = false
  drainAt : v.drainAt = none
  outputs : v.outputs = []

theorem viewAt_reset {w : Who} {v : State} (h : viewAt State.reset w = some v) : AtReset v := by
  cases w with
  | first =>
    cases h
    exact ⟨rfl, rfl, rfl, rfl, rfl, rfl, rfl, rfl⟩
  | engine k =>
    obtain ⟨e, he, rfl⟩ := viewAt_engine.1 h
    obtain ⟨p, -, rfl⟩ := List.mem_map.1 (List.mem_of_getElem? he)
    exact ⟨rfl, rfl, rfl, stgOf_wf p.staging, rfl, rfl, rfl, rfl⟩
  | queue k =>
    obtain ⟨q, hq, rfl⟩ := viewAt_queue.1 h
    obtain ⟨p, -, rfl⟩ := List.mem_map.1 (List.mem_of_getElem? hq)
    exact ⟨rfl, rfl, rfl, rfl, rfl, rfl, rfl, rfl⟩

theorem AtReset.engineInv {v : State} (h : AtReset v) : EngineInv v := by
  refine ⟨h.stg, ?_⟩
  rw [h.phase]
  exact h.accessed

theorem AtReset.queueInv {v : State} (h : AtReset v) : QueueInv v := by
  constructor <;> simp [h.queue, h.retry, h.drainAt]

theorem AtReset.fifoInv {v : State} (h : AtReset v) : FifoInv v := by
  simp [FifoInv, h.queue, h.outputs, submittedPkts, deliveredPkts]

theorem AtReset.statusAgrees {v : State} (h : AtReset v) : StatusAgrees v := by
  simp [StatusAgrees, h.status, h.phase]

/-- Settles O51: the values are those `State.reset` writes out; memory is written byte by byte, and every engine and queue
is at its own reset. -/
theorem resetMeetsInvariants : Obligations.ResetMeetsInvariants := by
  refine ⟨rfl, rfl, rfl, rfl, rfl, rfl, rfl, rfl, rfl, rfl, rfl, rfl, rfl, memoryOf_wf Config.memory, rfl, rfl,
    fun w v hv => ?_⟩
  have hreset := viewAt_reset hv
  exact ⟨hreset.engineInv, hreset.queueInv, hreset.fifoInv, hreset.statusAgrees⟩

end Sys2Proof.Machine
end

