-- ==== Sys2Proof/Proofs/QueueSteps.lean ====
section
/-! PROOFS. What one step does to a queue, and that it keeps the order of the packets and Q1, Q3, Q4
(42_response_queue.md section 5, 10_state.md R39). -/

namespace Sys2Proof.Machine

/-! ## The queue's operations -/

/-- An operation offers the head, from the state in which its caller attempts the delivery (42_response_queue.md R202,
R203, R207). -/
inductive Attempt (i : Instr) (s : State) : State → Prop where
  | drain (op : i = .drain) (retry : s.retry = false) (due : s.drainAt = some s.now) :
      Attempt i s { s with drainAt := none }
  | alone (op : i = .tryDeliver) (retry : s.retry = false) (drainAt : s.drainAt = none) : Attempt i s s
  | peerReady (op : i = .peerReady) (retry : s.retry = true) : Attempt i s { s with retry := false }

/-- What an operation of the queue is: SUBMIT, a delivery attempt, a drain held up by `retry`, or a spurious
PEER_READY. -/
inductive QueueMove (i : Instr) (s t : State) : Prop where
  | submits (p : Packet) (op : i = .submit p) (effect : t = submitEffect s p)
  | attempts (a : State) (by_ : Attempt i s a) (effect : t = tryDeliver a)
  | skips (op : i = .drain) (retry : s.retry = true) (due : s.drainAt = some s.now) (effect : t = { s with drainAt := none })
  | raises (op : i = .peerReady) (retry : s.retry = false) (effect : t = raise s .spuriousPeerReady)

theorem exec_queueMove {i : Instr} {s t : State} (hi : isQueueOp i = true) (h : exec i s = .next t) :
    QueueMove i s t := by
  cases i <;> first | (cases hi; done) | skip
  case submit p =>
    obtain ⟨-, rfl⟩ := exec_submit_next.1 h
    exact .submits p rfl rfl
  case drain =>
    obtain ⟨-, hdue, rfl⟩ := exec_drain_next.1 h
    unfold drainEffect
    split
    · next hretry => exact .skips rfl hretry hdue rfl
    · next hretry => exact .attempts _ (.drain rfl (by simpa using hretry) hdue) rfl
  case tryDeliver =>
    obtain ⟨-, hretry, hdrain, rfl⟩ := exec_tryDeliver_next.1 h
    exact .attempts s (.alone rfl hretry hdrain) rfl
  case peerReady =>
    obtain ⟨-, rfl⟩ := exec_peerReady_next.1 h
    unfold peerReadyEffect
    split
    · next hretry => exact .attempts _ (.peerReady rfl hretry) rfl
    · next hretry => exact .raises rfl (by simpa using hretry) rfl

/-- The caller has changed `retry` and its event slot alone. -/
theorem Attempt.same {i : Instr} {s a : State} (h : Attempt i s a) :
    a.queue = s.queue ∧ a.outputs = s.outputs ∧ a.now = s.now ∧ a.retry = false := by
  cases h with
  | drain _ retry => exact ⟨rfl, rfl, rfl, retry⟩
  | alone _ retry => exact ⟨rfl, rfl, rfl, retry⟩
  | peerReady => exact ⟨rfl, rfl, rfl, rfl⟩

/-- In a state that meets the queue's invariant no drain is scheduled where an attempt is made, and the head is ready. -/
theorem Attempt.ready {i : Instr} {s a : State} (hinv : QueueInv s) (h : Attempt i s a) :
    a.drainAt = none ∧ ∀ e, s.queue.head? = some e → e.readyTime ≤ s.now := by
  cases h with
  | drain _ _ due => exact ⟨rfl, (hinv.drain_due _ due).2⟩
  | alone _ retry drainAt =>
    have hempty : s.queue = [] := by
      by_contra hne
      simpa [drainAt] using hinv.drain_iff.2 ⟨hne, retry⟩
    exact ⟨drainAt, fun e he => by simp [hempty] at he⟩
  | peerReady _ retry =>
    have hnone : s.drainAt = none := by
      by_contra hne
      have hclear := (hinv.drain_iff.1 (Option.isSome_iff_ne_none.2 hne)).2
      simp [hclear] at retry
    exact ⟨hnone, hinv.retry_ready retry⟩

/-! ## One step, as a queue sees it -/

/-- Nothing has happened to the queue but that time may have passed, up to its scheduled drain at most. -/
structure QueueKept (v u : State) : Prop where
  queue : u.queue = v.queue
  retry : u.retry = v.retry
  drainAt : u.drainAt = v.drainAt
  outputs : SendsNoPacket v u
  now : u.now = v.now ∨ mayReach v u.now = true

/-- A step performs an operation of the queue, or leaves the queue. -/
theorem ViewActs.queue_cases {s v u : State} {w : Who} (h : ViewActs s w v u) :
    (∃ i, isQueueOp i = true ∧ Comes s w i ∧ exec i v = .next u) ∨ QueueKept v u := by
  rcases h with (⟨i, hcomes, h⟩ | ⟨i, h⟩ | ⟨-, pt, rfl⟩ | rfl) | (⟨τ, hτ, rfl⟩ | ⟨pa, b, rfl⟩) |
    ⟨engines, queues, fault, log, mem, draws, -, rfl⟩
  · cases hi : isQueueOp i with
    | true => exact .inl ⟨i, hi, hcomes, h⟩
    | false =>
      have hframe := exec_engine_frame hi h
      exact .inr ⟨by rw [hframe], by rw [hframe], by rw [hframe], exec_engine_sendsNoPacket hi h,
        .inl (by rw [hframe])⟩
  · have hframe := byteAccess_frame h
    exact .inr ⟨by rw [hframe], by rw [hframe], by rw [hframe], .of_eq (by rw [hframe]), .inl (by rw [hframe])⟩
  · exact .inr ⟨rfl, rfl, rfl, .of_eq rfl, .inl rfl⟩
  · exact .inr ⟨rfl, rfl, rfl, ⟨_, rfl, rfl, rfl⟩, .inl rfl⟩
  · exact .inr ⟨rfl, rfl, rfl, .of_eq rfl, .inr hτ⟩
  · exact .inr ⟨rfl, rfl, rfl, .of_eq rfl, .inl rfl⟩
  · exact .inr ⟨rfl, rfl, rfl, .of_eq rfl, .inl rfl⟩

/-! ## Strict FIFO -/

@[simp] theorem packets_of_submit (p left : Packet) (latency : Time) :
    submittedPkts [.serviced p latency left, .accepted p] = (if p.needsResponse then [left] else []) ∧
      deliveredPkts [.serviced p latency left, .accepted p] = [] := by
  cases hp : p.needsResponse <;> simp [submittedPkts, deliveredPkts, hp]

@[simp] theorem packets_of_delivery (p : Packet) (t : Time) :
    submittedPkts [.delivered p t] = [] ∧ deliveredPkts [.delivered p t] = [p] :=
  ⟨rfl, rfl⟩

/-- A queue that is left stays in order. -/
theorem FifoInv.of_kept {v u : State} (hkept : QueueKept v u) (h : FifoInv v) : FifoInv u := by
  obtain ⟨l, hout, hsub, hdel⟩ := hkept.outputs
  simpa [FifoInv, hout, hsub, hdel, hkept.queue] using h

/-- SUBMIT appends the same packet to what was submitted and to the queue, or none to either. -/
theorem FifoInv.submit {s : State} (h : FifoInv s) (p : Packet) : FifoInv (submitEffect s p) := by
  rw [FifoInv] at h ⊢
  rw [submitEffect_outputs]
  cases hp : p.needsResponse <;> simp [submitEffect, hp, enqueue, serviced, h]

/-- A delivered packet leaves the head for the end of what was delivered. -/
theorem FifoInv.tryDeliver {s : State} (h : FifoInv s) : FifoInv (tryDeliver s) := by
  rcases tryDeliver_cases s with ⟨-, heff⟩ | ⟨e, rest, hq, -, heff⟩ | ⟨e, rest, hq, -, heff⟩ <;> rw [heff]
  · exact h
  · rw [FifoInv, hq] at h
    simp [FifoInv, deliverHead, h]
  · simpa [FifoInv] using h

theorem FifoInv.queueMove {i : Instr} {s t : State} (hmove : QueueMove i s t) (h : FifoInv s) : FifoInv t := by
  cases hmove with
  | submits p _ effect => exact effect ▸ h.submit p
  | attempts a by_ effect =>
    obtain ⟨hqueue, houtputs, -⟩ := by_.same
    have ha : FifoInv a := by rwa [FifoInv, hqueue, houtputs]
    exact effect ▸ ha.tryDeliver
  | skips _ _ _ effect => exact effect ▸ h
  | raises _ _ effect => exact effect ▸ h

/-- Settles O55: at reset nothing is queued or sent; a step leaves the queue or performs one of its operations. -/
theorem stepKeepsDeliveryOrder : Obligations.StepKeepsDeliveryOrder := by
  refine ⟨fun w v hv => ?reset, fun s t w v v' h hv hv' hinv => ?step⟩
  case reset => exact (viewAt_reset hv).fifoInv
  case step =>
    obtain ⟨v0, u, hu, -, ⟨rest, k, rfl⟩, hacts⟩ := step_view h hv
    rw [hv'] at hu
    cases hu
    rcases hacts.queue_cases with ⟨i, hi, -, hexec⟩ | hkept
    · exact FifoInv.queueMove (exec_queueMove hi hexec) hinv
    · exact FifoInv.of_kept hkept hinv

/-! ## Q1, Q3, Q4 -/

theorem QueueInv.congr {v u : State} (h : QueueInv v) (hqueue : u.queue = v.queue) (hretry : u.retry = v.retry)
    (hdrain : u.drainAt = v.drainAt) (hnow : u.now = v.now) : QueueInv u := by
  obtain ⟨h1, h2, h3, h4⟩ := h
  constructor <;> rw [hqueue] <;> simp only [hretry, hdrain, hnow] <;> assumption

/-- A queue that is left keeps its invariant: time passes no scheduled drain. -/
theorem QueueInv.of_kept {v u : State} (hkept : QueueKept v u) (h : QueueInv v) : QueueInv u := by
  rcases hkept.now with hnow | hnow
  · exact h.congr hkept.queue hkept.retry hkept.drainAt hnow
  · have hbefore : QueueInv { u with now := v.now } := h.congr hkept.queue hkept.retry hkept.drainAt rfl
    simp only [mayReach, Bool.and_eq_true, decide_eq_true_eq] at hnow
    obtain ⟨⟨hle, hpast⟩, -⟩ := hnow
    refine ⟨hbefore.retry_nonempty, hbefore.drain_iff, fun d hd => ⟨?_, ?_⟩, ?_⟩
    · rw [hkept.drainAt] at hd
      simpa [hd, notPast] using hpast
    · exact (hbefore.drain_due d hd).2
    · exact fun hretry e he => (hbefore.retry_ready hretry e he).trans hle

/-- What SUBMIT does to the queue (42_response_queue.md R201). -/
theorem submitEffect_queue (s : State) (p : Packet) :
    (submitEffect s p).retry = s.retry ∧ (submitEffect s p).now = s.now ∧
      ((submitEffect s p).queue = s.queue ∧ (submitEffect s p).drainAt = s.drainAt ∨
        ∃ e : Entry, s.now ≤ e.readyTime ∧ (submitEffect s p).queue = s.queue ++ [e] ∧
          (submitEffect s p).drainAt = if s.queue = [] ∧ s.retry = false then some e.readyTime else s.drainAt) := by
  refine ⟨by rw [submitEffect_frame], by rw [submitEffect_frame], ?_⟩
  cases hp : p.needsResponse with
  | false => exact .inl (by simp [submitEffect, hp, serviced])
  | true =>
    refine .inr ⟨⟨(serviceAnswer s p).packet, s.now + (serviceAnswer s p).latency⟩, by simp, ?_⟩
    simp [submitEffect, hp, enqueue, serviced]

/-- An entry behind others leaves the head and what is scheduled for it. -/
theorem QueueInv.append {s t : State} {e : Entry} (h : QueueInv s) (hne : s.queue ≠ [])
    (hqueue : t.queue = s.queue ++ [e]) (hretry : t.retry = s.retry) (hdrain : t.drainAt = s.drainAt)
    (hnow : t.now = s.now) : QueueInv t := by
  have hhead : t.queue.head? = s.queue.head? := by rw [hqueue, List.head?_append_of_ne_nil _ hne]
  have hne' : t.queue ≠ [] := by simp [hqueue]
  refine ⟨fun _ => hne', ?_, ?_, ?_⟩
  · rw [hdrain, hretry, h.drain_iff]
    simp [hne, hne']
  · rw [hdrain, hhead, hnow]
    exact h.drain_due
  · rw [hretry, hhead, hnow]
    exact h.retry_ready

/-- SUBMIT schedules the drain of a first entry, and leaves what is scheduled for the head. -/
theorem QueueInv.submit {s : State} (h : QueueInv s) (p : Packet) : QueueInv (submitEffect s p) := by
  obtain ⟨hretry, hnow, ⟨hqueue, hdrain⟩ | ⟨e, he, hqueue, hdrain⟩⟩ := submitEffect_queue s p
  · exact h.congr hqueue hretry hdrain hnow
  · by_cases hne : s.queue = []
    · have hclear : s.retry = false := by
        by_contra hr
        exact h.retry_nonempty (by simpa using hr) hne
      rw [if_pos ⟨hne, hclear⟩] at hdrain
      constructor <;> simp [hqueue, hretry, hdrain, hnow, hne, hclear, he]
    · rw [if_neg fun hc => hne hc.1] at hdrain
      exact h.append hne hqueue hretry hdrain hnow

/-- An attempt on a ready head with no drain scheduled: delivered, and the next entry's drain scheduled; or refused. -/
theorem QueueInv.tryDeliver {s : State} (hretry : s.retry = false) (hdrain : s.drainAt = none)
    (hready : ∀ e, s.queue.head? = some e → e.readyTime ≤ s.now) : QueueInv (tryDeliver s) := by
  rcases tryDeliver_cases s with ⟨hq, heff⟩ | ⟨e, rest, hq, hpeer, -⟩ | ⟨e, rest, hq, -, heff⟩
  · rw [heff]
    constructor <;> simp [hq, hretry, hdrain]
  · rw [tryDeliver_of_accepted hq hpeer hdrain]
    constructor <;> cases rest <;> simp
  · rw [heff]
    constructor <;> simp_all

theorem QueueInv.queueMove {i : Instr} {s t : State} (hmove : QueueMove i s t) (h : QueueInv s) : QueueInv t := by
  cases hmove with
  | submits p _ effect => exact effect ▸ h.submit p
  | attempts a by_ effect =>
    obtain ⟨hdrain, hready⟩ := by_.ready h
    obtain ⟨hqueue, -, hnow, hretry⟩ := by_.same
    exact effect ▸ QueueInv.tryDeliver hretry hdrain (by rwa [hqueue, hnow])
  | skips _ retry due _ =>
    have hclear := (h.drain_iff.1 (by rw [due]; rfl)).2
    simp [retry] at hclear
  | raises _ _ effect =>
    rw [effect]
    exact h.congr rfl rfl rfl rfl

/-- Settles O54: a step leaves the queue, which time changes up to its scheduled drain at most, or performs one of its
operations. -/
theorem stepKeepsQueueInvariant : Obligations.StepKeepsQueueInvariant := by
  intro s t w v v' h hv hv' hinv
  obtain ⟨v0, u, hu, -, ⟨rest, k, rfl⟩, hacts⟩ := step_view h hv
  cases hu.symm.trans hv'
  have hinv0 : QueueInv { v with inbox := rest, draws := k } := hinv.congr rfl rfl rfl rfl
  rcases hacts.queue_cases with ⟨i, hi, -, hexec⟩ | hkept
  · exact hinv0.queueMove (exec_queueMove hi hexec)
  · exact hinv0.of_kept hkept

/-! ## Deliveries -/

theorem mem_deliveredPkts {l : List Output} {p : Packet} {τ : Time} (h : Output.delivered p τ ∈ l) :
    p ∈ deliveredPkts l :=
  List.mem_filterMap.2 ⟨_, h, rfl⟩

/-- What an attempt delivers is the head, now. -/
theorem tryDeliver_delivers {s : State} {l : List Output} (hl : (tryDeliver s).outputs = s.outputs ++ l) {p : Packet}
    {τ : Time} (hp : .delivered p τ ∈ l) :
    τ = s.now ∧ ∃ e tail, s.queue = e :: tail ∧ (tryDeliver s).queue = tail ∧ e.pkt = p := by
  rcases tryDeliver_cases s with ⟨-, heff⟩ | ⟨e, rest, hq, -, heff⟩ | ⟨e, rest, -, -, heff⟩ <;> rw [heff] at hl ⊢
  · simp_all
  · have : l = [.delivered e.pkt s.now] := by simpa [deliverHead, eq_comm] using hl
    subst this
    simp only [List.mem_singleton, Output.delivered.injEq] at hp
    exact ⟨hp.2, e, rest, hq, rfl, hp.1.symm⟩
  · simp_all

/-- An operation of the queue delivers its head, now, and only when it is ready. -/
theorem QueueMove.delivers {i : Instr} {s t : State} (hmove : QueueMove i s t) (hinv : QueueInv s) {l : List Output}
    (hl : t.outputs = s.outputs ++ l) {p : Packet} {τ : Time} (hp : .delivered p τ ∈ l) :
    τ = s.now ∧ ∃ e tail, s.queue = e :: tail ∧ t.queue = tail ∧ e.pkt = p ∧ e.readyTime ≤ τ := by
  cases hmove with
  | submits p' _ effect =>
    rw [effect, submitEffect_outputs, List.append_cancel_left_eq] at hl
    simp [← hl] at hp
  | attempts a by_ effect =>
    obtain ⟨hqueue, houtputs, hnow, -⟩ := by_.same
    obtain ⟨-, hready⟩ := by_.ready hinv
    rw [effect, ← houtputs] at hl
    obtain ⟨rfl, e, tail, hq, htail, hpkt⟩ := tryDeliver_delivers hl hp
    rw [hqueue] at hq
    rw [hnow, effect]
    exact ⟨rfl, e, tail, hq, htail, hpkt, hready e (by simp [hq])⟩
  | skips _ _ _ effect | raises _ _ effect => simp_all

/-- Settles O38: only an operation of the queue delivers, and it offers a ready head. -/
theorem deliveryIsNotEarly : Obligations.DeliveryIsNotEarly := by
  intro s t w v v' h hv hv' hinv p τ hp
  obtain ⟨v0, u, hu, -, ⟨rest, k, rfl⟩, hacts⟩ := step_view h hv
  cases hu.symm.trans hv'
  have hinv0 : QueueInv { v with inbox := rest, draws := k } := hinv.congr rfl rfl rfl rfl
  obtain ⟨hnow, -⟩ := viewAt_shared hv
  rcases hacts.queue_cases with ⟨i, hi, -, hexec⟩ | hkept
  · obtain ⟨l, hl⟩ := exec_outputs_prefix hexec
    rw [← hl, List.drop_left] at hp
    rw [← hnow]
    exact (exec_queueMove hi hexec).delivers hinv0 hl.symm hp
  · obtain ⟨l, hl, -, hdel⟩ := hkept.outputs
    rw [hl, List.drop_left] at hp
    simpa [hdel] using mem_deliveredPkts hp

end Sys2Proof.Machine
end

