-- ==== Sys2Proof/Proofs/EngineSteps.lean ====
section
/-! PROOFS. What one step does to an engine and to memory, and that it keeps memory's form, the bounds of a transfer in
flight, the agreement of STATUS with the phase and the order of the phases (10_state.md R39, 41_transfer_controller.md
section 4). -/

namespace Sys2Proof.Machine

/-! ## Memory -/

/-- A step changes memory by one write at most. -/
theorem ViewActs.mem {s v u : State} {w : Who} (h : ViewActs s w v u) :
    u.mem = v.mem ∨ ∃ pa b, u.mem = memWrite v.mem pa b := by
  rcases h with hact | (⟨τ, -, rfl⟩ | ⟨pa, b, rfl⟩) | ⟨engines, queues, fault, log, mem, draws, hmem, rfl⟩
  · obtain ⟨-, -, -, hmem, -⟩ := hact.shared
    exact hmem
  · exact .inl rfl
  · exact .inr ⟨pa, b, rfl⟩
  · exact hmem

/-- Settles O52: a step writes one byte of memory at most, and a write keeps the form. -/
theorem stepKeepsMemoryCanonical : Obligations.StepKeepsMemoryCanonical := by
  intro s t hinv h
  obtain ⟨v0, u, hu, -, ⟨rest, k, rfl⟩, hacts⟩ := step_view h (viewAt_first s)
  cases hu
  rcases hacts.mem with hmem | ⟨pa, b, hmem⟩
  · exact (congrArg Memory.wf hmem).trans hinv
  · exact (congrArg Memory.wf hmem).trans (memWrite_wf hinv pa b)

/-! ## One step, as an engine sees it -/

/-- Nothing has happened to the engine's transfer. -/
structure EngineKept (v u : State) : Prop where
  status : u.status = v.status
  phase : u.phase = v.phase
  accessed : u.accessed = v.accessed
  stg : u.stg = v.stg
  plat : u.plat = v.plat

/-- A step performs an operation, accesses a byte, or leaves the transfer. -/
theorem ViewActs.engine_cases {s v u : State} {w : Who} (h : ViewActs s w v u) :
    (∃ i, Comes s w i ∧ exec i v = .next u) ∨ (∃ i, byteAccess i v = .next u) ∨ EngineKept v u := by
  rcases h with (⟨i, hcomes, h⟩ | ⟨i, h⟩ | ⟨-, pt, rfl⟩ | rfl) | (⟨τ, -, rfl⟩ | ⟨pa, b, rfl⟩) |
    ⟨engines, queues, fault, log, mem, draws, -, rfl⟩
  · exact .inl ⟨i, hcomes, h⟩
  · exact .inr (.inl ⟨i, h⟩)
  all_goals exact .inr (.inr ⟨rfl, rfl, rfl, rfl, rfl⟩)

/-! ## The engine's invariant -/

theorem TransferOk.congr {v u : State} {snap : Snapshot} {segs : Segs} (h : TransferOk v snap segs)
    (haccessed : u.accessed = v.accessed) (hplat : u.plat = v.plat) : TransferOk u snap segs := by
  obtain ⟨hsize, hsrc, hdst, hcovers, houtside, hrising, hwithin⟩ := h
  exact ⟨hsize, hsrc, hdst, hcovers, hplat ▸ houtside, haccessed ▸ hrising, haccessed ▸ hwithin⟩

theorem EngineInv.congr {v u : State} (h : EngineInv v) (hphase : u.phase = v.phase)
    (haccessed : u.accessed = v.accessed) (hstg : u.stg = v.stg) (hplat : u.plat = v.plat) : EngineInv u := by
  obtain ⟨hwf, htransfer⟩ := h
  refine ⟨hstg ▸ hwf, ?_⟩
  rw [hphase]
  cases hp : v.phase with
  | none =>
    rw [hp] at htransfer
    exact haccessed.trans htransfer
  | readPending snap segs | writePending snap segs =>
    rw [hp] at htransfer
    exact htransfer.congr haccessed hplat

/-- A phase is issued with no byte accessed. -/
theorem TransferOk.issued {s : State} {snap : Snapshot} {segs : Segs} {va : Nat}
    (hsize : snap.size.toNat ≤ Config.stagingCapacity) (hsrc : snap.src.toNat + snap.size.toNat ≤ 2 ^ 64)
    (hdst : snap.dst.toNat + snap.size.toNat ≤ 2 ^ 64) (htrans : translation s va snap.size.toNat = .ok segs)
    (houtside : segsTouchWindow s.plat segs = false) : TransferOk { s with accessed := [] } snap segs := by
  obtain ⟨-, -, hcovers, -⟩ := translation_cases.1 segs htrans
  exact ⟨hsize, hsrc, hdst, hcovers, houtside, .nil, by simp⟩

/-- One more byte of the transfer has been accessed. -/
theorem TransferOk.access {v u : State} {snap : Snapshot} {segs : Segs} (h : TransferOk v snap segs) {i : Nat}
    (hi : i < snap.size.toNat) (haccessed : u.accessed = insertIndex i v.accessed) (hplat : u.plat = v.plat) :
    TransferOk u snap segs := by
  refine ⟨h.size_le, h.src_le, h.dst_le, h.covers, hplat ▸ h.outside, ?_, ?_⟩ <;> rw [haccessed]
  · exact insertIndex_rising h.rising
  · intro j hj
    rcases mem_insertIndex.1 hj with rfl | hj
    · exact hi
    · exact h.within j hj

theorem EngineInv.transfer {s : State} {snap : Snapshot} {segs : Segs} (h : EngineInv s)
    (hphase : s.phase = .readPending snap segs ∨ s.phase = .writePending snap segs) : TransferOk s snap segs := by
  have htransfer := h.2
  rcases hphase with hphase | hphase <;> rw [hphase] at htransfer <;> exact htransfer

theorem EngineInv.of_transfer {s : State} {snap : Snapshot} {segs : Segs} (hstg : stgWf s.stg = true)
    (hphase : s.phase = .readPending snap segs ∨ s.phase = .writePending snap segs) (h : TransferOk s snap segs) :
    EngineInv s := by
  refine ⟨hstg, ?_⟩
  rcases hphase with hphase | hphase <;> rw [hphase] <;> exact h

/-- An operation keeps the engine's invariant: the checks of START and READ_DONE establish it of each phase. -/
theorem EngineInv.exec {i : Instr} {s t : State} (hinv : EngineInv s) (h : exec i s = .next t) : EngineInv t := by
  obtain ⟨-, hstg, -, hplat, -⟩ := exec_frame h
  have hwf : stgWf t.stg = true := hstg ▸ hinv.1
  cases exec_phaseMove h with
  | kept phase accessed => exact hinv.congr phase accessed hstg hplat
  | begins snap segs _ _ check outside phase accessed =>
    obtain ⟨-, rfl, hsize, hsrc, hdst, htrans⟩ := startCheck_ok check
    have hissued := TransferOk.issued (snap := ⟨s.srcAddr, s.dstAddr, s.size⟩) hsize hsrc hdst htrans
      (startTouchesWindow_ok check outside)
    exact .of_transfer hwf (.inl phase) (hissued.congr accessed hplat)
  | turns snap segs dst _ before _ mapped outside phase accessed =>
    have hok := hinv.transfer (.inl before)
    have hissued := TransferOk.issued hok.size_le hok.src_le hok.dst_le mapped (readDoneTouchesWindow_ok mapped outside)
    exact .of_transfer hwf (.inr phase) (hissued.congr accessed hplat)
  | ends _ _ _ _ _ phase accessed =>
    refine ⟨hwf, ?_⟩
    rw [phase]
    exact accessed

/-- A byte access keeps it: the index is below the size, so below the capacity (E4). -/
theorem EngineInv.byteAccess {i : Nat} {s t : State} (hinv : EngineInv s) (h : byteAccess i s = .next t) :
    EngineInv t := by
  rcases byteAccess_next h with ⟨-, ⟨snap, segs, pa, hphase, hi, -, -, -, rfl⟩ | ⟨snap, segs, pa, hphase, hi, -, -, -, rfl⟩⟩
  · have hok := hinv.transfer (.inl hphase)
    exact .of_transfer (stgWrite_wf hinv.1 (hi.trans_le hok.size_le) _) (.inl hphase) (hok.access hi rfl rfl)
  · exact .of_transfer hinv.1 (.inr hphase) ((hinv.transfer (.inr hphase)).access hi rfl rfl)

/-- One step keeps the engine's invariant at its view. -/
theorem EngineInv.step {s t v u : State} {w : Who} (h : step s = .next t) (hv : viewAt s w = some v)
    (hu : viewAt t w = some u) (hinv : EngineInv v) : EngineInv u := by
  obtain ⟨v0, u', hu', -, ⟨rest, k, rfl⟩, hacts⟩ := step_view h hv
  cases hu'.symm.trans hu
  have hinv0 : EngineInv { v with inbox := rest, draws := k } := hinv.congr rfl rfl rfl rfl
  rcases hacts.engine_cases with ⟨i, -, hexec⟩ | ⟨i, haccess⟩ | hkept
  · exact hinv0.exec hexec
  · exact hinv0.byteAccess haccess
  · exact hinv0.congr hkept.phase hkept.accessed hkept.stg hkept.plat

/-- Settles O53: an operation establishes the invariant of the phase it issues, a byte access keeps it, and no other act
touches it. -/
theorem stepKeepsEngineInvariant : Obligations.StepKeepsEngineInvariant :=
  fun _ _ _ _ _ h hv hv' hinv => hinv.step h hv hv'

/-! ## STATUS and the phase -/

/-- No operation but a write of STATUS parts it from the phase. -/
theorem StatusAgrees.phaseMove {i : Instr} {s t : State} (hmove : PhaseMove i s t) (hno : ∀ v, i ≠ .wrStatus v)
    (h : StatusAgrees s) : StatusAgrees t := by
  cases hmove with
  | kept phase _ status =>
    have hstatus := status.resolve_right fun ⟨v, hv⟩ => hno v hv
    rwa [StatusAgrees, hstatus, phase]
  | begins _ _ _ _ _ _ phase _ status => simp [StatusAgrees, phase, status]
  | turns _ _ _ _ before _ _ _ phase _ status =>
    have hbusy : s.status = 1 := h.2 (by simp [before])
    exact ⟨fun _ => by simp [phase], fun _ => status.trans hbusy⟩
  | ends _ _ _ _ _ phase _ status => simp [StatusAgrees, phase, status]

/-- Settles O56: an operation that a step performs is asked for or is an event of the block, which writes no STATUS. -/
theorem statusIsBusyExactlyInPhase : Obligations.StatusIsBusyExactlyInPhase := by
  intro s t w v v' h hv hv' hagrees hno
  obtain ⟨v0, u, hu, -, ⟨rest, k, rfl⟩, hacts⟩ := step_view h hv
  cases hu.symm.trans hv'
  rcases hacts.engine_cases with ⟨i, hcomes, hexec⟩ | ⟨i, haccess⟩ | hkept
  · refine StatusAgrees.phaseMove (exec_phaseMove hexec) ?_ hagrees
    rintro x rfl
    rcases hcomes with hasked | hevent | hevent | ⟨hevent, -⟩
    · exact hno x hasked
    all_goals cases hevent
  · rw [byteAccess_frame haccess]
    exact hagrees
  · rw [StatusAgrees, hkept.status, hkept.phase]
    exact hagrees

/-- Settles O57: the moves of the phase are those of START, READ_DONE and WRITE_DONE. -/
theorem phaseAdvancesOnlyInOrder : Obligations.PhaseAdvancesOnlyInOrder := by
  intro s t w v v' h hv hv'
  obtain ⟨v0, u, hu, -, ⟨rest, k, rfl⟩, hacts⟩ := step_view h hv
  cases hu.symm.trans hv'
  rcases hacts.engine_cases with ⟨i, -, hexec⟩ | ⟨i, haccess⟩ | hkept
  · cases exec_phaseMove hexec with
    | kept phase => exact .inl phase
    | begins snap segs _ _ check _ phase accessed status =>
      exact .inr (.inl ⟨(startCheck_ok check).1, snap, segs, phase, accessed, status⟩)
    | turns snap segs dst _ before allRead _ _ phase accessed =>
      exact .inr (.inr (.inl ⟨snap, segs, dst, before, allRead, phase, accessed⟩))
    | ends snap segs _ before allWritten phase _ status =>
      exact .inr (.inr (.inr ⟨snap, segs, before, allWritten, phase, status⟩))
  · exact .inl (by rw [byteAccess_frame haccess])
  · exact .inl hkept.phase

end Sys2Proof.Machine
end

