-- ==== Sys2Proof/Proofs/Independence.lean ====
section
/-! PROOFS. What engines and queues share, that a step is an act of one of them at most, and that time and records only
grow (10_state.md R33, R35, R40; 60_exceptions.md section 8). -/

namespace Sys2Proof.Machine

/-! ## Time and records -/

/-- Time does not go back, and passes no drain scheduled at the view. -/
theorem ViewActs.now {s v u : State} {w : Who} (h : ViewActs s w v u) :
    v.now ≤ u.now ∧ ∀ d, v.drainAt = some d → v.now ≤ d → u.now ≤ d := by
  have still : u.now = v.now → v.now ≤ u.now ∧ ∀ d, v.drainAt = some d → v.now ≤ d → u.now ≤ d :=
    fun hnow => ⟨hnow.ge, fun d _ hd => hnow.trans_le hd⟩
  rcases h with hact | (⟨τ, hτ, rfl⟩ | ⟨pa, b, rfl⟩) | ⟨engines, queues, fault, log, mem, draws, -, rfl⟩
  · exact still hact.shared.1
  · simp only [mayReach, Bool.and_eq_true, decide_eq_true_eq] at hτ
    obtain ⟨⟨hle, hpast⟩, -⟩ := hτ
    exact ⟨hle, fun d hd _ => by simpa [hd, notPast] using hpast⟩
  · exact still rfl
  · exact still rfl

/-- Nothing sent is taken back. -/
theorem ViewActs.outputs {s v u : State} {w : Who} (h : ViewActs s w v u) : v.outputs <+: u.outputs := by
  rcases h.queue_cases with ⟨i, -, -, hexec⟩ | hkept
  · exact exec_outputs_prefix hexec
  · obtain ⟨l, hl, -⟩ := hkept.outputs
    exact ⟨l, hl.symm⟩

/-- Nothing logged is taken back, and no parameter changes. -/
theorem ViewActs.log_plat {s v u : State} {w : Who} (h : ViewActs s w v u) : v.log <+: u.log ∧ u.plat = v.plat := by
  rcases h with hact | (⟨τ, hτ, rfl⟩ | ⟨pa, b, rfl⟩) | ⟨engines, queues, fault, log, mem, draws, -, rfl⟩
  · obtain ⟨-, hplat, ⟨l, hl⟩, -⟩ := hact.shared
    exact ⟨⟨l, hl.symm⟩, hplat⟩
  · exact ⟨List.prefix_rfl, rfl⟩
  · exact ⟨List.prefix_rfl, rfl⟩
  · exact ⟨⟨log, rfl⟩, rfl⟩

/-- Settles O50: each at every view, and time and the log are the same at all of them. -/
theorem timeAndRecordsOnlyGrow : Obligations.TimeAndRecordsOnlyGrow := by
  intro s t w v v' h hv hv'
  obtain ⟨v0, u, hu, -, ⟨rest, k, rfl⟩, hacts⟩ := step_view h hv
  cases hu.symm.trans hv'
  obtain ⟨hnow, -, hlog, -⟩ := viewAt_shared hv
  obtain ⟨hnow', -, hlog', -⟩ := viewAt_shared hv'
  rw [← hnow, ← hnow', ← hlog, ← hlog']
  exact ⟨hacts.now.1, hacts.now.2, hacts.outputs, hacts.log_plat⟩

/-! ## Engines and queues leave each other alone -/

/-- What acts of others and of the environment leave of a view, after the stimulus is taken and the schedule drawn. -/
theorem SharedAct.sharedChange {v u : State} {rest : List Stimulus} {k : Nat}
    (h : SharedAct { v with inbox := rest, draws := k } u) : SharedChange v u := by
  obtain ⟨engines, queues, fault, log, mem, draws, -, rfl⟩ := h
  exact ⟨rest, engines, queues, v.now, fault, log, mem, draws, rfl⟩

theorem EnvAct.sharedChange {v u : State} {rest : List Stimulus} {k : Nat}
    (h : EnvAct { v with inbox := rest, draws := k } u) : SharedChange v u := by
  rcases h with ⟨τ, -, rfl⟩ | ⟨pa, b, rfl⟩
  · exact ⟨rest, v.otherEngines, v.otherQueues, τ, v.fault, [], v.mem, k, by simp⟩
  · exact ⟨rest, v.otherEngines, v.otherQueues, v.now, v.fault, [], memWrite v.mem pa b, k, by simp⟩

/-- An act of one, or of the environment, changes of every other view what is shared alone. -/
theorem sharedChange_of_acts {s t v v' : State} {rest : List Stimulus} {k : Nat} {w w' : Who} (hne : w' ≠ w)
    (hact : (∃ op p v u, viewAt { s with inbox := rest, draws := k } w = some v ∧ LocalAct op p v u ∧
      t = putAt { s with inbox := rest, draws := k } w u) ∨ EnvAct { s with inbox := rest, draws := k } t)
    (hv : viewAt s w' = some v) (hv' : viewAt t w' = some v') : SharedChange v v' := by
  obtain ⟨rest', hv0⟩ := viewAt_congr (rest := rest) (k := k) hv
  rcases hact with ⟨op, p, v1, u, hv1, hact, rfl⟩ | henv
  · obtain ⟨u', hu', hshared⟩ := viewAt_putAt_other hne hv1 hact hv0
    cases hu'.symm.trans hv'
    exact hshared.sharedChange
  · obtain ⟨u', hu', henv⟩ := henv.view hv0
    cases hu'.symm.trans hv'
    exact henv.sharedChange

/-- An internal event is an act of an engine or queue, or time passing. -/
theorem performInternal_next {e : Internal} {s t : State} (h : performInternal e s = .next t) :
    (∃ w v u, viewAt s w = some v ∧ LocalAct (fun _ => True) True v u ∧ t = putAt s w u) ∨ EnvAct s t := by
  cases e with
  | of w l =>
    obtain ⟨v, u, hv, hu, rfl⟩ := performAt_next.1 h
    refine .inl ⟨w, v, u, hv, ?_, rfl⟩
    rcases performLocal_next hu with ⟨i, -, hexec⟩ | haccess
    · exact .inl ⟨i, trivial, hexec⟩
    · exact .inr (.inl haccess)
  | tick =>
    obtain ⟨-, h⟩ := whenLive_next.1 h
    split at h
    · next hreach => exact .inr (.inl ⟨_, hreach, by simpa using h.symm⟩)
    · cases h

/-- A step is an act of one engine or queue at most, of the one its stimulus is for. -/
theorem step_one_actor {s t : State} (h : step s = .next t) :
    ∃ w, (∀ k a rest, s.inbox = .sibling k a :: rest → w = .engine k ∨ w = .queue k) ∧
      ∀ w' v v', w' ≠ w → viewAt s w' = some v → viewAt t w' = some v' → SharedChange v v' := by
  rcases step_cases s with ⟨e, rest, hin, hs⟩ | ⟨-, f, -, hs⟩ | ⟨hin, -, e, he, k, -, hs⟩ <;> rw [hs] at h
  · rcases perform_next h with ⟨w, v, u, hfor, hv, -, hact, rfl⟩ | ⟨-, henv, hfor⟩
    · refine ⟨w, fun k a rest' hsib => ?_, fun w' v1 v1' hne hv1 hv1' =>
        sharedChange_of_acts (rest := rest) (k := s.draws) hne (.inl ⟨_, _, v, u, hv, hact, rfl⟩) hv1 hv1'⟩
      rw [hin] at hsib
      cases hsib
      exact hfor
    · refine ⟨.first, fun k a rest' hsib => ?_, fun w' v1 v1' hne hv1 hv1' =>
        sharedChange_of_acts (rest := rest) (k := s.draws) hne (.inr henv) hv1 hv1'⟩
      rw [hin] at hsib
      cases hsib
      exact hfor
  · cases h
  · have nothing : ∀ w : Who, ∀ k a rest, s.inbox = .sibling k a :: rest → w = .engine k ∨ w = .queue k := by
      simp [hin]
    have hs0 : ({ s with draws := k } : State) = { s with inbox := [], draws := k } := by rw [← hin]
    rw [hs0] at h
    rcases performInternal_next h with ⟨w, v, u, hv, hact, rfl⟩ | henv
    · exact ⟨w, nothing w, fun w' v1 v1' hne hv1 hv1' =>
        sharedChange_of_acts hne (.inl ⟨_, _, v, u, hv, hact, rfl⟩) hv1 hv1'⟩
    · exact ⟨.first, nothing .first, fun w' v1 v1' hne hv1 hv1' =>
        sharedChange_of_acts hne (.inr henv) hv1 hv1'⟩

/-- Settles O49: the operations by their frames, the views by definition, a step by the one who acts in it. -/
theorem engineAndQueueAreIndependent : Obligations.EngineAndQueueAreIndependent := by
  refine ⟨fun i s t h => ⟨fun hqueue => ?queue, fun hengine => ?engine⟩, fun s v w hv => ?views,
    fun s t h => step_one_actor h⟩
  case queue =>
    have hi : isQueueOp i = true := by
      rcases hqueue with ⟨p, rfl⟩ | rfl | rfl | rfl <;> rfl
    rw [exec_queue_frame hi h]
    exact ⟨rfl, rfl, rfl, rfl, rfl, rfl, rfl, rfl, rfl⟩
  case engine =>
    obtain ⟨hsubmit, hdrain, htry, hpeer⟩ := hengine
    have hi : isQueueOp i = false := by
      cases i <;> simp_all [isQueueOp]
    rw [exec_engine_frame hi h]
    exact ⟨rfl, rfl, rfl, rfl, rfl, rfl, rfl⟩
  case views =>
    obtain ⟨hnow, hfault, hlog, hmem, -⟩ := viewAt_shared hv
    exact ⟨hnow, hfault, hlog, hmem⟩

end Sys2Proof.Machine
end

