-- ==== Sys2Proof/Proofs/Registers.lean ====
section
/-! PROOFS. The register accesses that carry one word: reads of SIZE, COMMAND and STATUS, writes of STATUS and COMMAND, and
that a read returns what was written (40_mmio_register_access.md sections 4 to 6, 20_memory.md R77). -/

namespace Sys2Proof.Machine

/-- Settles O11: each read answers its register and leaves every other field as it was. -/
theorem wordReadsRespond : Obligations.WordReadsRespond :=
  ⟨fun _ => ⟨rfl, rfl, rfl⟩, fun _ hlive =>
    ⟨exec_rdSize_next.2 ⟨hlive, rfl⟩, exec_rdCmd_next.2 ⟨hlive, rfl⟩, exec_rdStatus_next.2 ⟨hlive, rfl⟩⟩⟩

/-- A low-word write leaves the value in bits 31:0 (10_state.md R21, R22). -/
@[simp] theorem lowWord_withLowWord (r : U64) (v : U32) : lowWord (withLowWord r v) = v := by
  unfold lowWord withLowWord
  exact BitVec.extractLsb'_append_eq_right

/-- Settles O13: the register is the old high word before the value. -/
theorem lowWordWriteKeepsHighWord : Obligations.LowWordWriteKeepsHighWord :=
  fun r v => ⟨lowWord_withLowWord r v, highWord_withLowWord r v⟩

/-- Settles O15: the store is unconditional and names no field but STATUS. -/
theorem statusWriteStoresAnyValue : Obligations.StatusWriteStoresAnyValue :=
  ⟨fun _ => rfl, fun _ _ hlive => exec_wrStatus_next.2 ⟨hlive, rfl⟩⟩

/-- WR_CMD with bit 0 clear stores and answers. -/
theorem exec_wrCmd_of_noTrigger {s : State} {v : U32} (hlive : s.fault = none) (hbit : v.getLsbD 0 = false) :
    exec (.wrCmd v) s = .next (respond { s with command := v } .done) :=
  exec_wrCmd_next.2 ⟨hlive, .inr (.inl ⟨hbit, rfl⟩)⟩

/-- Settles O16: of WR_CMD's three outcomes this is the one that reads neither STATUS nor the phase. -/
theorem commandWriteWithoutTriggerStores : Obligations.CommandWriteWithoutTriggerStores :=
  ⟨fun _ => rfl, fun _ _ hlive hbit => exec_wrCmd_of_noTrigger hlive hbit⟩

/-- Settles O23: the write leaves the value in the register and no fatal condition, so the read answers it. -/
theorem readReturnsWrittenValue : Obligations.ReadReturnsWrittenValue := by
  intro s v w hlive
  refine ⟨⟨_, exec_wrSrc_next.2 ⟨hlive, rfl⟩, exec_rdSrc_next.2 ⟨hlive, rfl⟩⟩,
    ⟨_, exec_wrSrcLo_next.2 ⟨hlive, rfl⟩, exec_rdSrcLo_next.2 ⟨hlive, ?_⟩⟩,
    ⟨_, exec_wrDst_next.2 ⟨hlive, rfl⟩, exec_rdDst_next.2 ⟨hlive, rfl⟩⟩,
    ⟨_, exec_wrDstLo_next.2 ⟨hlive, rfl⟩, exec_rdDstLo_next.2 ⟨hlive, ?_⟩⟩,
    ⟨_, exec_wrSize_next.2 ⟨hlive, rfl⟩, exec_rdSize_next.2 ⟨hlive, rfl⟩⟩,
    ⟨_, exec_wrStatus_next.2 ⟨hlive, rfl⟩, exec_rdStatus_next.2 ⟨hlive, rfl⟩⟩,
    fun hbit => ⟨_, exec_wrCmd_of_noTrigger hlive hbit, exec_rdCmd_next.2 ⟨hlive, rfl⟩⟩⟩
  · rw [respond_srcAddr, lowWord_withLowWord]
  · rw [respond_dstAddr, lowWord_withLowWord]

end Sys2Proof.Machine
end

