-- ==== Sys2Proof/Proofs/Steps.lean ====
section
/-! PROOFS. What makes one step: a request that waits, of the first engine and queue or of further ones, or an internal event
(00_scope.md section 5, 30_encoding.md section 1). -/

namespace Sys2Proof.Machine

/-! ## Requests -/

theorem performAt_of_next {w : Who} {act : State → Result} {s v u : State} (hv : viewAt s w = some v)
    (hact : act v = .next u) : performAt w act s = .next (putAt s w u) :=
  performAt_next.2 ⟨v, u, hv, hact, rfl⟩

theorem performAt_of_refused {w : Who} {act : State → Result} {s v : State} {why : Refusal}
    (hv : viewAt s w = some v) (hact : act v = .refused why) : performAt w act s = .refused why := by
  simp [performAt, hv, hact]

theorem performAt_of_noSuch {w : Who} (act : State → Result) {s : State} (hv : viewAt s w = none)
    (hlive : s.fault = none) : performAt w act s = .refused (.noSuch w) := by
  simp [performAt, hv, whenLive_of_live hlive]

/-- The further engines and queues do not see the stimuli that wait. -/
theorem viewAt_performerOf_inbox (s : State) (rest : List Stimulus) (k : Nat) (i : Instr) :
    viewAt { s with inbox := rest } (performerOf k i) = viewAt s (performerOf k i) := by
  unfold performerOf
  split <;> rfl

/-- A request of index `k` is performed by the one whose operation it is. -/
theorem step_of_siblingRequest {s : State} {k : Nat} {r : Request} {i : Instr} {rest : List Stimulus}
    (hin : s.inbox = .sibling k (.request r) :: rest) (hd : decodeRequest (baseOf s k) r = .ok i) :
    step s = performAt (performerOf k i) (exec i) { s with inbox := rest } := by
  have hbase : baseOf { s with inbox := rest } k = baseOf s k := rfl
  simp only [step, stepOnce, hin, perform, performAct, hbase, hd]

/-- Settles O7: a request is decoded and its operation performed, at the machine or at the view of its performer. -/
theorem stepPerformsDecodedOperation : Obligations.StepPerformsDecodedOperation := by
  refine fun s r rest i => ⟨fun hin hd => step_of_request hin hd, fun k hin hd => ?_⟩
  rw [step_of_siblingRequest hin hd, ← viewAt_performerOf_inbox s rest]
  exact ⟨fun v u hv hact => performAt_of_next hv hact, fun v why hv hact => performAt_of_refused hv hact,
    fun hv hlive => performAt_of_noSuch (s := { s with inbox := rest }) _ hv hlive⟩

/-- A request that the decoder rejects is refused by the reason's name. -/
theorem step_of_rejected {s : State} {r : Request} {why : Reject} {rest : List Stimulus} (hlive : s.fault = none)
    (hin : s.inbox = .request r :: rest) (hd : decodeRequest s.plat.base r = .error why) :
    step s = .refused (rejected why) := by
  have hlive' : ({ s with inbox := rest } : State).fault = none := hlive
  simp [step, stepOnce, hin, perform, runRequest, hd, whenLive_of_live hlive']

/-- Settles O8: the refusal is the rejection's own. -/
theorem stepRefusesUndecodable : Obligations.StepRefusesUndecodable :=
  fun _ _ _ hin hlive => ⟨fun hd => step_of_rejected hlive hin hd, fun _ hd => step_of_rejected hlive hin hd⟩

/-! ## With nothing asked -/

/-- No engine has an event while no phase is outstanding. -/
theorem eventsOfAll_engine_eq_nil {s : State} (hphase : s.phase = .none)
    (hothers : ∀ e ∈ s.otherEngines, e.phase = .none) : eventsOfAll engineEvents s = [] := by
  refine List.eq_nil_iff_forall_not_mem.2 fun e he => ?_
  obtain ⟨w, v, hv, l, hl, -⟩ := mem_eventsOfAll.1 he
  refine (of_mem_engineEvents hl).1 ?_
  cases w with
  | first =>
    cases hv
    exact hphase
  | engine k =>
    obtain ⟨e, he, rfl⟩ := viewAt_engine.1 hv
    exact hothers e (List.mem_of_getElem? he)
  | queue k =>
    obtain ⟨q, -, rfl⟩ := viewAt_queue.1 hv
    rfl

/-- A drain is due at the first queue, or at a further one. -/
theorem mem_eventsOfAll_dueDrain {s : State} {e : Internal} (he : e ∈ eventsOfAll dueDrain s) :
    e = .of .first .drain ∧ s.drainAt = some s.now ∨ ∃ q ∈ s.otherQueues, q.drainAt = some s.now := by
  obtain ⟨w, v, hv, l, hl, rfl⟩ := mem_eventsOfAll.1 he
  obtain ⟨rfl, hdue⟩ := mem_dueDrain.1 hl
  cases w with
  | first =>
    cases hv
    exact .inl ⟨rfl, hdue⟩
  | engine k =>
    obtain ⟨e, -, rfl⟩ := viewAt_engine.1 hv
    cases hdue
  | queue k =>
    obtain ⟨q, hq, rfl⟩ := viewAt_queue.1 hv
    exact .inr ⟨q, List.mem_of_getElem? hq, hdue⟩

/-- The first queue's drain is the one due if no further queue's is. -/
theorem eventsOfAll_dueDrain_eq_singleton {s : State} (hdue : s.drainAt = some s.now)
    (hothers : ∀ q ∈ s.otherQueues, q.drainAt ≠ some s.now) : eventsOfAll dueDrain s = [.of .first .drain] := by
  have hfirst : dueDrain s = [.drain] := if_pos hdue
  have hengine : ∀ j, (viewAt s (.engine j)).elim [] dueDrain = [] := by
    intro j
    cases hv : viewAt s (.engine j) with
    | none => rfl
    | some v =>
      obtain ⟨e, -, rfl⟩ := viewAt_engine.1 hv
      rfl
  have hqueue : ∀ j, (viewAt s (.queue j)).elim [] dueDrain = [] := by
    intro j
    cases hv : viewAt s (.queue j) with
    | none => rfl
    | some v =>
      obtain ⟨q, hq, rfl⟩ := viewAt_queue.1 hv
      exact if_neg (hothers q (List.mem_of_getElem? hq))
  simp [eventsOfAll, everyone, hfirst, hengine, hqueue, List.flatMap_map]

/-- With the inbox empty the one enabled event is the step. -/
theorem step_of_single_event {s : State} {e : Internal} (hlive : s.fault = none) (hin : s.inbox = [])
    (he : internalEvents s = [e]) : step s = performInternal e s := by
  simp [step, stepOnce, hin, idle, hlive, he]

/-- Settles O9: with no phase outstanding the engines have no event, so the scheduler's is the one there is. -/
theorem idleStepRunsEnabledEvent : Obligations.IdleStepRunsEnabledEvent := by
  refine fun s hlive hin => ⟨fun hphase hphases hdrain hdrains => ?tick, fun hphase hphases hdrain hdrains => ?drain,
    ?event⟩
  case tick =>
    have hnone : eventsOfAll dueDrain s = [] := by
      refine List.eq_nil_iff_forall_not_mem.2 fun e he => ?_
      rcases mem_eventsOfAll_dueDrain he with ⟨-, hdue⟩ | ⟨q, hq, hdue⟩
      · exact (hdrain _ hdue).false
      · exact (hdrains q hq _ hdue).false
    have hevents : internalEvents s = [.tick] := by
      simp [internalEvents, eventsOfAll_engine_eq_nil hphase hphases, schedulerEvents, hnone]
    have notPast_of_later : ∀ d : Option Time, (∀ t, d = some t → s.now < t) → notPast d (s.now + 1) = true := by
      intro d hd
      cases d with
      | none => rfl
      | some t => simpa [notPast] using hd t rfl
    have hreach : mayReach s (s.now + 1) = true := by
      simp only [mayReach, Bool.and_eq_true, decide_eq_true_eq, List.all_eq_true]
      exact ⟨⟨Nat.le_succ _, notPast_of_later _ hdrain⟩, fun q hq => notPast_of_later _ (hdrains q hq)⟩
    rw [step_of_single_event hlive hin hevents]
    simp [performInternal, advanceTime, whenLive_of_live hlive, hreach]
  case drain =>
    have hevents : internalEvents s = [.of .first .drain] := by
      simp [internalEvents, eventsOfAll_engine_eq_nil hphase hphases, schedulerEvents,
        eventsOfAll_dueDrain_eq_singleton hdrain hdrains]
    rw [step_of_single_event hlive hin hevents]
    exact performAt_first _ s
  case event =>
    rcases step_cases s with ⟨e, rest, hcons, -⟩ | ⟨-, f, hf, -⟩ | ⟨-, -, e, he, k, hk, hs⟩
    · simp [hin] at hcons
    · cases hlive.symm.trans hf
    · rcases hk with rfl | rfl
      · exact ⟨e, he, .inl hs⟩
      · exact ⟨e, he, .inr hs⟩

end Sys2Proof.Machine
end

