-- ==== Sys2Proof/Proofs/Transfers.lean ====
section
/-! PROOFS. How a transfer begins, turns and fails to begin, and the single-byte accesses of a phase
(41_transfer_controller.md sections 1 to 3, 60_exceptions.md section 5, 20_memory.md section 7). -/

namespace Sys2Proof.Machine

/-! ## START's checks -/

theorem startEffect_of_ok {s : State} {snap : Snapshot} {segs : Segs} (h : startCheck s = .ok (snap, segs)) :
    startEffect s = { s with status := 1, phase := .readPending snap segs, accessed := [] } := by
  simp [startEffect, h]

theorem startEffect_of_error {s : State} {f : Fatal} (h : startCheck s = .error f) : startEffect s = raise s f := by
  simp [startEffect, h]

/-- A trigger in bounds with its source mapped outside the window passes START's checks, with segments that map the
source as the page table does. -/
theorem startCheck_of_mappedOutside {s : State} (hphase : s.phase = .none) (hbounds : TriggerInBounds s)
    (hmode : s.plat.mode = .processEmulation) (hmapped : MappedOutside s s.srcAddr s.size) :
    ∃ segs, SegmentsFor s s.srcAddr s.size.toNat segs ∧
      startCheck s = .ok (⟨s.srcAddr, s.dstAddr, s.size⟩, segs) ∧ startTouchesWindow s = false := by
  obtain ⟨segs, htrans, hsegs, houtside⟩ := translation_of_mappedOutside hmode hmapped
  have hcheck : startCheck s = .ok (⟨s.srcAddr, s.dstAddr, s.size⟩, segs) := by
    rw [startCheck_of_inBounds hphase hbounds, htrans]
  exact ⟨segs, hsegs, hcheck, startTouchesWindow_of_ok hcheck hbounds.size_le htrans houtside⟩

/-- Settles O24: the checks pass, and the effect of START is to issue the read phase. -/
theorem startIssuesReadPhase : Obligations.StartIssuesReadPhase := by
  refine ⟨fun _ => rfl, fun s hlive hidle hphase hbounds hmode hmapped => ?_⟩
  obtain ⟨segs, hsegs, hcheck, houtside⟩ := startCheck_of_mappedOutside hphase hbounds hmode hmapped
  exact ⟨segs, hsegs, exec_start_next.2 ⟨hlive, hidle, houtside, (startEffect_of_ok hcheck).symm⟩⟩

/-- A trigger whose checks pass stores COMMAND, issues the read phase and answers. -/
theorem exec_wrCmd_of_mappedOutside {s : State} {v : U32} (hlive : s.fault = none) (hbit : v.getLsbD 0 = true)
    (hidle : s.status ≠ 1) (hphase : s.phase = .none) (hbounds : TriggerInBounds s)
    (hmode : s.plat.mode = .processEmulation) (hmapped : MappedOutside s s.srcAddr s.size) :
    ∃ segs, SegmentsFor s s.srcAddr s.size.toNat segs ∧
      exec (.wrCmd v) s = .next { s with
        command := v, status := 1, phase := .readPending ⟨s.srcAddr, s.dstAddr, s.size⟩ segs, accessed := []
        outputs := s.outputs ++ [.response (s.now + Config.pioLatency) .done] } := by
  have hbounds' : TriggerInBounds { s with command := v } := ⟨hbounds.size_le, hbounds.src_le, hbounds.dst_le⟩
  obtain ⟨segs, hsegs, hcheck, houtside⟩ :=
    startCheck_of_mappedOutside (s := { s with command := v }) hphase hbounds' hmode hmapped
  refine ⟨segs, hsegs, exec_wrCmd_next.2 ⟨hlive, .inr (.inr ⟨hbit, hidle, houtside, ?_⟩)⟩⟩
  have hstarted : (startEffect { s with command := v }).fault = none := by
    rw [startEffect_of_ok hcheck]
    exact hlive
  rw [respondIfLive_of_live hstarted, startEffect_of_ok hcheck]
  rfl

/-- Settles O18: START is called after COMMAND is stored, and its checks read nothing of COMMAND. -/
theorem triggerBeginsTransfer : Obligations.TriggerBeginsTransfer :=
  fun _ _ hlive hbit hidle hphase hbounds hmode hmapped =>
    exec_wrCmd_of_mappedOutside hlive hbit hidle hphase hbounds hmode hmapped

theorem usableSize_of_le {n : U32} (h : n.toNat ≤ 1048576) : usableSize Config.oversizePolicy n = some n :=
  if_pos h

theorem usableSize_of_gt {n : U32} (h : 1048576 < n.toNat) : usableSize Config.oversizePolicy n = none :=
  if_neg (Nat.not_le.2 h)

/-- START's checks fail with the condition the spec's order names. -/
theorem startCheck_of_startFatal {s : State} {f : Fatal} (h : StartFatal s f) : startCheck s = .error f := by
  cases h with
  | overlapping hphase => simp [startCheck, hphase]
  | overrun hphase hsize => simp [startCheck, hphase, usableSize_of_gt hsize]
  | wrap hphase hsize hwrap =>
    have hwraps : (wraps s.srcAddr s.size || wraps s.dstAddr s.size) = true := by simpa [wraps] using hwrap
    simp [startCheck, hphase, usableSize_of_le hsize, hwraps, takeSnapshot]
  | unsupported hphase hbounds hmode =>
    simp [startCheck_of_inBounds hphase hbounds, translation, hmode]
  | unmapped hphase hbounds hmode v hlowest =>
    rw [startCheck_of_inBounds hphase hbounds, translation_of_lowest hmode hlowest]

theorem exec_start_of_startFatal {s : State} {f : Fatal} (hlive : s.fault = none) (hidle : s.status ≠ 1)
    (h : StartFatal s f) : exec .start s = .next (raise s f) := by
  have hcheck := startCheck_of_startFatal h
  exact exec_start_next.2 ⟨hlive, hidle, startTouchesWindow_of_error hcheck, (startEffect_of_error hcheck).symm⟩

theorem exec_wrCmd_of_startFatal {s : State} {f : Fatal} {v : U32} (hlive : s.fault = none) (hidle : s.status ≠ 1)
    (hbit : v.getLsbD 0 = true) (h : StartFatal s f) :
    exec (.wrCmd v) s = .next (raise { s with command := v } f) := by
  have hcheck : startCheck { s with command := v } = .error f := (startCheck_of_startFatal h : startCheck s = _)
  refine exec_wrCmd_next.2 ⟨hlive, .inr (.inr ⟨hbit, hidle, startTouchesWindow_of_error hcheck, ?_⟩)⟩
  rw [startEffect_of_error hcheck, respondIfLive_of_fault (raise_fault _ _)]

/-- Settles O25: the checks fail with that condition, before the window is looked at. -/
theorem startFatalConditionsInOrder : Obligations.StartFatalConditionsInOrder :=
  fun _ _ hlive hidle h => ⟨exec_start_of_startFatal hlive hidle h,
    fun _ hbit => exec_wrCmd_of_startFatal hlive hidle hbit h⟩

/-! ## READ_DONE -/

/-- The destination mapped outside the window: READ_DONE issues the write phase. -/
theorem exec_readDone_of_mappedOutside {s : State} {snap : Snapshot} {segs : Segs} (hlive : s.fault = none)
    (hphase : s.phase = .readPending snap segs) (hread : s.accessed.length = snap.size.toNat)
    (hmode : s.plat.mode = .processEmulation) (hmapped : MappedOutside s snap.dst snap.size) :
    ∃ dst, SegmentsFor s snap.dst snap.size.toNat dst ∧
      exec .readDone s = .next { s with phase := .writePending snap dst, accessed := [] } := by
  obtain ⟨dst, htrans, hdst, houtside⟩ := translation_of_mappedOutside hmode hmapped
  obtain ⟨-, hwalk, -⟩ := translation_cases.1 dst htrans
  have hwindow : readDoneTouchesWindow s snap = false := by
    simp [readDoneTouchesWindow, rangeTouchesWindow, hwalk, houtside]
  exact ⟨dst, hdst, exec_readDone_next.2 ⟨hlive, snap, segs, hphase, hread, hwindow, by simp [readDoneEffect, htrans]⟩⟩

/-- An unmapped byte of the destination is fatal. -/
theorem exec_readDone_of_lowestUnmapped {s : State} {snap : Snapshot} {segs : Segs} {v : Nat} (hlive : s.fault = none)
    (hphase : s.phase = .readPending snap segs) (hread : s.accessed.length = snap.size.toNat)
    (hmode : s.plat.mode = .processEmulation) (hlowest : LowestUnmapped s snap.dst snap.size.toNat v) :
    exec .readDone s = .next (raise s (.translationFault v)) := by
  have htrans := translation_of_lowest hmode hlowest
  have hwindow : readDoneTouchesWindow s snap = false := by
    simp [readDoneTouchesWindow, destinationAccepted, htrans]
  exact exec_readDone_next.2 ⟨hlive, snap, segs, hphase, hread, hwindow, by simp [readDoneEffect, htrans]⟩

/-- Settles O26: by whether every byte of the destination is mapped. -/
theorem readDoneIssuesWritePhase : Obligations.ReadDoneIssuesWritePhase :=
  ⟨fun _ => rfl, fun _ _ _ hlive hphase hread hmode =>
    ⟨exec_readDone_of_mappedOutside hlive hphase hread hmode,
      fun _ hlowest => exec_readDone_of_lowestUnmapped hlive hphase hread hmode hlowest⟩⟩

/-! ## Events that are not enabled -/

/-- Settles O28: each event tests the state that enables it before anything else. -/
theorem eventsNotEnabledAreRefused : Obligations.EventsNotEnabledAreRefused := by
  refine fun s hlive => ⟨fun hread => ?readDone, fun hwritten => ?writeDone, fun hdue => ?drain, fun hbusy => ?start,
    fun hcalled => ?tryDeliver⟩
  case readDone =>
    simp only [exec, execReadDone, whenLive_of_live hlive]
    cases hphase : s.phase with
    | readPending snap segs => simp [hread snap segs hphase]
    | none | writePending => rfl
  case writeDone =>
    simp only [exec, execWriteDone, whenLive_of_live hlive]
    cases hphase : s.phase with
    | writePending snap segs => simp [hwritten snap segs hphase]
    | none | readPending => rfl
  case drain => simp [exec, execDrain, whenLive_of_live hlive, hdue]
  case start => simp [exec, execStart, whenLive_of_live hlive, busy, hbusy]
  case tryDeliver =>
    have hnot : (s.retry || s.drainAt.isSome) = true := by
      simpa [Option.isSome_iff_ne_none] using hcalled
    simp [exec, execTryDeliver, whenLive_of_live hlive, hnot]

/-! ## The byte accesses -/

/-- Byte `i` of a phase, not accessed before, moves where there is memory and is stuck where there is none. -/
theorem accessWith_of_segPa {s : State} {n i pa : Nat} {segs : Segs} (move : State → Nat → Nat → State) (hi : i < n)
    (hpa : segPa segs i = some pa) (hnew : i ∉ s.accessed) : accessWith s n segs i move =
      if hasMemory s.plat pa = true then .next (move s i pa) else .fault (.noMemory pa) := by
  simp [accessWith, accessDue, hi, hnew, hpa]

theorem accessWith_of_accessed {s : State} {i : Nat} (n : Nat) (segs : Segs) (move : State → Nat → Nat → State)
    (hdone : i ∈ s.accessed) : accessWith s n segs i move = .refused .accessNotEnabled := by
  simp [accessWith, accessDue, hdone]

theorem byteAccess_of_readPending {s : State} {snap : Snapshot} {segs : Segs} (hlive : s.fault = none)
    (hphase : s.phase = .readPending snap segs) (i : Nat) :
    byteAccess i s = accessWith s snap.size.toNat segs i readByte := by
  simp [byteAccess, whenLive_of_live hlive, hphase]

theorem byteAccess_of_writePending {s : State} {snap : Snapshot} {segs : Segs} (hlive : s.fault = none)
    (hphase : s.phase = .writePending snap segs) (i : Nat) :
    byteAccess i s = accessWith s snap.size.toNat segs i writeByte := by
  simp [byteAccess, whenLive_of_live hlive, hphase]

/-- Settles O29: by the phase, whether the byte has been accessed, and whether it has memory. -/
theorem byteAccessMovesOneByte : Obligations.ByteAccessMovesOneByte := by
  refine fun s snap segs i pa hlive hi hpa => ⟨fun hphase hnew hmem => ?read, fun hphase hnew hmem => ?write,
    fun hphase hnew hmem => ?stuck, fun hphase hdone => ?twice⟩
  case read =>
    rw [byteAccess_of_readPending hlive hphase, accessWith_of_segPa _ hi hpa hnew, if_pos hmem]
    rfl
  case write =>
    rw [byteAccess_of_writePending hlive hphase, accessWith_of_segPa _ hi hpa hnew, if_pos hmem]
    rfl
  case stuck =>
    rcases hphase with hphase | hphase
    · rw [byteAccess_of_readPending hlive hphase, accessWith_of_segPa _ hi hpa hnew, if_neg (by simp [hmem])]
    · rw [byteAccess_of_writePending hlive hphase, accessWith_of_segPa _ hi hpa hnew, if_neg (by simp [hmem])]
  case twice =>
    rcases hphase with hphase | hphase
    · rw [byteAccess_of_readPending hlive hphase, accessWith_of_accessed _ _ _ hdone]
    · rw [byteAccess_of_writePending hlive hphase, accessWith_of_accessed _ _ _ hdone]

end Sys2Proof.Machine
end

