-- ==== Sys2Proof/Proofs/Translator.lean ====
section
/-! PROOFS. The Address Translator: the form of the page table and of TRANSLATE's answer, its fatal conditions, the mode in
which it is not implemented, and the range queries (43_address_translator.md). -/

namespace Sys2Proof.Machine

/-! ## The page table -/

/-- The mapped addresses are whole pages, as the page size divides 2^64. -/
theorem lt_of_same_page {p : Platform} {v v' : Nat} (hv : v < 2 ^ 64) (hpage : v / pageSize p = v' / pageSize p) :
    v' < 2 ^ 64 := by
  obtain ⟨k, hk⟩ := pageSize_dvd p
  have hpos := pageSize_pos p
  rw [hk, Nat.mul_comm, ← Nat.div_lt_iff_lt_mul hpos] at hv ⊢
  rwa [← hpage]

/-- Settles O42: the map reads the page's entry, and adds the offset in the page. -/
theorem pageTableIsPagewiseContiguous : Obligations.PageTableIsPagewiseContiguous := by
  intro p pt v v' q h hpage
  unfold ptMap at h
  split at h
  · next hv =>
    refine ⟨hv, ?_⟩
    cases hpa : pageLookup pt (v / pageSize p) with
    | none => simp [hpa] at h
    | some pa =>
      have hq : pa + v % pageSize p = q := by simpa [hpa] using h
      rw [hpage] at hpa
      rw [ptMap, if_pos (lt_of_same_page hv hpage), hpa]
      simp [← hq]
  · cases h

/-! ## TRANSLATE's answer -/

/-- A segment of the `n` bytes at `va` is not empty, crosses no page boundary, and, unless it is the last, ends at one. -/
def CutAtPages (pageSize va : Nat) (segs : Segs) : Prop :=
  ∀ before pa len after, segs = before ++ (pa, len) :: after →
    0 < len ∧ (va + (before.map Prod.snd).sum) % pageSize + len ≤ pageSize ∧
      (after ≠ [] → (va + (before.map Prod.snd).sum) % pageSize + len = pageSize)

theorem CutAtPages.nil (pageSize va : Nat) : CutAtPages pageSize va [] := by
  intro before pa len after h
  simp at h

/-- A first segment up to the page's end, or to the end of the range, in front of segments that are cut at pages. -/
theorem CutAtPages.cons {pageSize va pa len : Nat} {rest : Segs} (hlen : 0 < len)
    (hpage : va % pageSize + len ≤ pageSize) (hend : rest ≠ [] → va % pageSize + len = pageSize)
    (hrest : CutAtPages pageSize (va + len) rest) : CutAtPages pageSize va ((pa, len) :: rest) := by
  intro before pa' len' after h
  cases before with
  | nil =>
    obtain ⟨⟨rfl, rfl⟩, rfl⟩ : (pa = pa' ∧ len = len') ∧ rest = after := by simpa using h
    exact ⟨hlen, by simpa using hpage, by simpa using hend⟩
  | cons g before =>
    obtain ⟨rfl, hsplit⟩ : (pa, len) = g ∧ rest = before ++ (pa', len') :: after := by simpa using h
    simpa [Nat.add_assoc] using hrest before pa' len' after hsplit

theorem walk_zero (ps : Nat) (pt : PageTable) (fuel va : Nat) : walk ps pt fuel va 0 = .ok [] := by
  cases fuel <;> rfl

/-- A walk cuts its range at every page boundary and nowhere else. -/
theorem walk_cutAtPages {ps : Nat} {pt : PageTable} (hps : 0 < ps) :
    ∀ {fuel va n : Nat} {segs : Segs}, walk ps pt fuel va n = .ok segs → CutAtPages ps va segs := by
  intro fuel
  induction fuel with
  | zero =>
    intro va n segs h
    cases h
    exact .nil ps va
  | succ fuel ih =>
    intro va n segs h
    simp only [walk] at h
    split at h
    · cases h
      exact .nil ps va
    · next hn =>
      split at h
      · cases h
      · next pa _ =>
        split at h
        · cases h
        · next rest hrest =>
          cases h
          have hmod := Nat.mod_lt va hps
          refine .cons (by omega) (by omega) (fun hne => ?_) (ih hrest)
          have hmore : n - min n (ps - va % ps) ≠ 0 := by
            intro hzero
            rw [hzero, walk_zero] at hrest
            cases hrest
            exact hne rfl
          omega

/-- Settles O39: the walk succeeds, and its segments map, cover and are cut as the canonical list is. -/
theorem translateAnswersPageMap : Obligations.TranslateAnswersPageMap := by
  refine ⟨fun _ => rfl, fun s va n hlive hmode hmapped => ?_⟩
  obtain ⟨segs, htrans⟩ := translation_of_mapped hmode hmapped
  obtain ⟨-, hwalk, hsum, hmap⟩ := translation_cases.1 segs htrans
  have heffect : translateEffect s va.toNat n = emit s (.segments segs) := by simp [translateEffect, htrans]
  exact ⟨segs, exec_translate_next.2 ⟨hlive, heffect.symm⟩, ⟨hsum, hmap⟩, walk_cutAtPages (pageSize_pos _) hwalk⟩

theorem exec_translate_of_error {s : State} {va : U64} {n : Nat} {f : Fatal} (hlive : s.fault = none)
    (htrans : translation s va.toNat n = .error f) : exec (.translate va n) s = .next (raise s f) :=
  exec_translate_next.2 ⟨hlive, by simp [translateEffect, htrans]⟩

/-- Settles O40: a translation fails at the lowest unmapped address. -/
theorem translateFaultsAtLowestUnmapped : Obligations.TranslateFaultsAtLowestUnmapped :=
  fun _ _ _ _ hlive hmode hlowest => exec_translate_of_error hlive (translation_of_lowest hmode hlowest)

/-! ## `MODE = Other` -/

theorem translation_of_otherMode {s : State} (hmode : s.plat.mode = .other) (va n : Nat) :
    translation s va n = .error .translationUnsupported := by
  simp [translation, hmode]

/-- In Other mode the phase stays none: a transfer begins with a translation. -/
theorem PhaseMove.phase_none_of_otherMode {i : Instr} {s t : State} (hmove : PhaseMove i s t)
    (hmode : s.plat.mode = .other) (hphase : s.phase = .none) : t.phase = .none := by
  cases hmove with
  | kept phase => exact phase.trans hphase
  | begins _ _ _ _ check =>
    obtain ⟨-, -, -, -, -, htrans⟩ := startCheck_ok check
    rw [translation_of_otherMode hmode] at htrans
    cases htrans
  | turns _ _ _ _ before => cases hphase.symm.trans before
  | ends _ _ _ _ _ phase => exact phase

/-- A register access without an accepted trigger, and SUBMIT, go on in any mode. -/
def GoesOn (s : State) (i : Instr) : Prop :=
  (∃ v : U32, i = .wrSrcLo v ∨ i = .wrDstLo v ∨ i = .wrSize v ∨ i = .wrStatus v ∨
      (i = .wrCmd v ∧ (v.getLsbD 0 = false ∨ s.status = 1))) ∨ (∃ v : U64, i = .wrSrc v ∨ i = .wrDst v) ∨
    i = .rdSrcLo ∨ i = .rdSrc ∨ i = .rdDstLo ∨ i = .rdDst ∨ i = .rdSize ∨ i = .rdCmd ∨ i = .rdStatus ∨
    (∃ p, i = .submit p)

theorem exec_wrCmd_of_busy {s : State} {v : U32} (hlive : s.fault = none) (hbit : v.getLsbD 0 = true)
    (hbusy : s.status = 1) : exec (.wrCmd v) s = .next (respond (warn s .startWhileBusy) .done) :=
  exec_wrCmd_next.2 ⟨hlive, .inl ⟨hbit, hbusy, rfl⟩⟩

theorem exec_of_goesOn {s : State} {i : Instr} (hlive : s.fault = none) (h : GoesOn s i) :
    ∃ t, exec i s = .next t ∧ t.fault = none := by
  cases i
  case wrCmd v =>
    have hcmd : v.getLsbD 0 = false ∨ s.status = 1 := by simpa [GoesOn] using h
    cases hbit : v.getLsbD 0 with
    | false => exact ⟨_, exec_wrCmd_of_noTrigger hlive hbit, hlive⟩
    | true => exact ⟨_, exec_wrCmd_of_busy hlive hbit (hcmd.resolve_left (by simp [hbit])), hlive⟩
  case submit p => exact ⟨_, exec_submit_next.2 ⟨hlive, rfl⟩, by rw [submitEffect_frame]; exact hlive⟩
  case rdSrcLo | rdSrc | rdDstLo | rdDst | rdSize | rdCmd | rdStatus => exact ⟨_, whenLive_of_live hlive _, hlive⟩
  case wrSrcLo | wrSrc | wrDstLo | wrDst | wrSize | wrStatus => exact ⟨_, whenLive_of_live hlive _, hlive⟩
  all_goals simp [GoesOn] at h

/-- Settles O41: every translation fails in this mode, and what goes on makes none. -/
theorem otherModeNeverTransfers : Obligations.OtherModeNeverTransfers := by
  refine fun s hlive hmode => ⟨fun va n => ?translate, fun i t h hphase => ?phase,
    fun hphase hidle hbounds v hbit => ?trigger, fun i h => ?others⟩
  case translate => exact exec_translate_of_error hlive (translation_of_otherMode hmode _ _)
  case phase => exact (exec_phaseMove h).phase_none_of_otherMode hmode hphase
  case trigger => exact exec_wrCmd_of_startFatal hlive hidle hbit (.unsupported hphase hbounds hmode)
  case others => exact exec_of_goesOn hlive h

/-! ## Range queries -/

/-- Settles O43: the engine by its operation, a queue's port by its own stimulus, performed at the queue's view. -/
theorem rangeQueryReportsWindow : Obligations.RangeQueryReportsWindow := by
  refine ⟨fun _ => rfl, fun s hlive => ⟨exec_rangeQuery_next.2 ⟨hlive, rfl⟩, fun rest hin => ?port,
    fun k q rest hin hq => ?further⟩⟩
  case port =>
    have hlive' : ({ s with inbox := rest } : State).fault = none := hlive
    simp only [step, stepOnce, hin, perform, queuePortQuery, whenLive_of_live hlive']
    rfl
  case further =>
    have hview : viewAt { s with inbox := rest } (.queue k) = some (queueView s q) := viewAt_queue.2 ⟨q, hq, rfl⟩
    have hport : queuePortQuery (queueView s q) = .next (emit (queueView s q) (.ranges q.ranges)) :=
      whenLive_of_live (s := queueView s q) hlive _
    simp only [step, stepOnce, hin, perform, performAct, performAt_of_next hview hport]
    rfl

end Sys2Proof.Machine
end

