-- ==== Sys2Proof/Proofs/QueueOps.lean ====
section
/-! PROOFS. SUBMIT, and the calls of the queue that attempt no delivery (42_response_queue.md sections 1 to 4). -/

namespace Sys2Proof.Machine

/-- Settles O33: SUBMIT's effect in its three cases, once the backend has answered. -/
theorem submitAppendsAndSchedules : Obligations.SubmitAppendsAndSchedules := by
  refine ⟨fun _ => rfl, fun s p latency left storage hlive hanswer => ⟨?storage, fun hp => ?none, fun hp hq hr => ?first,
    fun hp hbehind => ?behind⟩⟩
  case storage => rw [afterService_storage, hanswer]
  all_goals refine exec_submit_next.2 ⟨hlive, ?_⟩
  case none => simp [submitEffect, hp, serviced, emit, hanswer]
  case first => simp [submitEffect, hp, enqueue, serviced, emit, hanswer, hq, hr]
  case behind =>
    have hno : (s.queue.isEmpty && !s.retry) = false := by
      rcases hbehind with hq | hr
      · simp [hq]
      · simp [hr]
    simp [submitEffect, hp, enqueue, serviced, emit, hanswer, hno]

theorem tryDeliver_of_empty {s : State} (hq : s.queue = []) : tryDeliver s = s := by
  simp [tryDeliver, hq]

/-- Settles O36: with nothing queued an attempt is no change, and with `retry` set DRAIN makes none. -/
theorem drainWithoutAttempt : Obligations.DrainWithoutAttempt := by
  refine ⟨fun _ => ⟨rfl, rfl⟩, fun s hlive => ⟨fun hq hr hd => ?tryDeliver, fun hdue hnone => ?drain,
    fun hq hr => ?peerReady⟩⟩
  case tryDeliver => exact exec_tryDeliver_next.2 ⟨hlive, hr, hd, (tryDeliver_of_empty hq).symm⟩
  case drain =>
    refine exec_drain_next.2 ⟨hlive, hdue, ?_⟩
    unfold drainEffect
    split
    · rfl
    · next hr => exact (tryDeliver_of_empty (s := { s with drainAt := none }) (hnone.resolve_right hr)).symm
  case peerReady =>
    rw [exec_peerReady_eq_tryDeliver hlive hr]
    exact congrArg _ (tryDeliver_of_empty (s := { s with retry := false }) hq)

end Sys2Proof.Machine
end

