-- ==== Sys2Proof/Proofs/Phases.lean ====
section
/-! PROOFS. The phases of a transfer as runs of single-byte accesses in any order, and the whole copy
(20_memory.md R66, R78, R79; 41_transfer_controller.md R175 to R178). -/

namespace Sys2Proof.Machine

/-! ## An order of accesses -/

/-- The accesses of these bytes can be made one after another: each is a byte of the transfer with memory behind it, not
accessed before and not twice here. -/
structure AccessOrder (s : State) (n : Nat) (segs : Segs) (order : List Nat) : Prop where
  nodup : order.Nodup
  within : ∀ i ∈ order, i < n
  fresh : ∀ i ∈ order, i ∉ s.accessed
  backed : ∀ i ∈ order, ∃ pa, segPa segs i = some pa ∧ hasMemory s.plat pa = true

/-- A permutation of the bytes of a phase in which none has been accessed. -/
theorem AccessOrder.of_perm {s : State} {n : Nat} {segs : Segs} {order : List Nat} (hperm : order.Perm (List.range n))
    (haccessed : s.accessed = []) (hbacked : ∀ i < n, ∃ pa, segPa segs i = some pa ∧ hasMemory s.plat pa = true) :
    AccessOrder s n segs order where
  nodup := hperm.nodup_iff.2 List.nodup_range
  within _ hi := List.mem_range.1 (hperm.mem_iff.1 hi)
  fresh := by simp [haccessed]
  backed i hi := hbacked i (List.mem_range.1 (hperm.mem_iff.1 hi))

/-- After the first access the others can still be made. -/
theorem AccessOrder.tail {s t : State} {n i : Nat} {segs : Segs} {order : List Nat}
    (h : AccessOrder s n segs (i :: order)) (haccessed : t.accessed = insertIndex i s.accessed)
    (hplat : t.plat = s.plat) : AccessOrder t n segs order := by
  obtain ⟨hnew, hnodup⟩ := List.nodup_cons.1 h.nodup
  refine ⟨hnodup, fun j hj => h.within j (.tail _ hj), fun j hj => ?_, fun j hj => ?_⟩
  · rw [haccessed, mem_insertIndex, not_or]
    exact ⟨fun hji => hnew (hji ▸ hj), h.fresh j (.tail _ hj)⟩
  · rw [hplat]
    exact h.backed j (.tail _ hj)

/-- The first access of an order is made, at a physical address; that its stimulus is taken is no matter. -/
theorem AccessOrder.head {s : State} {n i : Nat} {segs : Segs} {order : List Nat}
    (h : AccessOrder s n segs (i :: order)) (move : State → Nat → Nat → State) (rest : List Stimulus) :
    ∃ pa, segPa segs i = some pa ∧
      accessWith { s with inbox := rest } n segs i move = .next (move { s with inbox := rest } i pa) := by
  obtain ⟨pa, hpa, hmem⟩ := h.backed i (.head _)
  exact ⟨pa, hpa, accessWith_next.2 ⟨h.within i (.head _), h.fresh i (.head _), pa, hpa, hmem, rfl⟩⟩

/-! ## The read phase -/

/-- The next access of a read phase. -/
theorem step_read {s : State} {snap : Snapshot} {segs : Segs} {i : Nat} {order : List Nat} {rest : List Stimulus}
    (hlive : s.fault = none) (hphase : s.phase = .readPending snap segs) (hin : s.inbox = .byteAccess i :: rest)
    (horder : AccessOrder s snap.size.toNat segs (i :: order)) :
    ∃ pa, segPa segs i = some pa ∧ step s = .next (readByte { s with inbox := rest } i pa) := by
  obtain ⟨pa, hpa, haccess⟩ := horder.head readByte rest
  exact ⟨pa, hpa, by
    rw [step_of_byteAccess hin, byteAccess_of_readPending (s := { s with inbox := rest }) hlive hphase, haccess]⟩

/-- The accesses of a read phase fill the staging bytes of their indices, and no others. -/
theorem run_reads {snap : Snapshot} {segs : Segs} {rest : List Stimulus} {order : List Nat} {s : State}
    (hlive : s.fault = none) (hphase : s.phase = .readPending snap segs)
    (hin : s.inbox = order.map Stimulus.byteAccess ++ rest) (horder : AccessOrder s snap.size.toNat segs order) :
    ∃ t : State, core.run order.length s = .next t ∧
      t = { s with inbox := rest, stg := t.stg, accessed := t.accessed } ∧
      t.accessed.length = s.accessed.length + order.length ∧
      (∀ i ∈ order, ∀ pa, segPa segs i = some pa → stgRead t.stg i = memRead s.mem pa) ∧
      ∀ i ∉ order, stgRead t.stg i = stgRead s.stg i := by
  induction order generalizing s with
  | nil =>
    have hin : s.inbox = rest := hin
    exact ⟨s, rfl, by rw [← hin], rfl, by simp, fun _ _ => rfl⟩
  | cons i order ih =>
    obtain ⟨pa, hpa, hstep⟩ := step_read hlive hphase hin horder
    obtain ⟨t, hrun, hframe, hlength, hfilled, hothers⟩ :=
      ih (s := readByte { s with inbox := order.map Stimulus.byteAccess ++ rest } i pa) hlive hphase rfl
        (horder.tail rfl rfl)
    obtain ⟨hnew, -⟩ := List.nodup_cons.1 horder.nodup
    refine ⟨t, (run_succ hstep).trans hrun, hframe, ?_, fun j hj pa' hpa' => ?_, fun j hj => ?_⟩
    · rw [hlength, readByte_accessed, length_insertIndex (horder.fresh i (.head _))]
      simp
      omega
    · rcases List.mem_cons.1 hj with rfl | hj
      · cases hpa.symm.trans hpa'
        rw [hothers j hnew, readByte_stg, stgRead_stgWrite, if_pos rfl]
      · exact hfilled j hj pa' hpa'
    · obtain ⟨hji, hj⟩ := not_or.1 (mt List.mem_cons.2 hj)
      rw [hothers j hj, readByte_stg, stgRead_stgWrite, if_neg hji]

/-- Settles O30: a permutation of the phase's bytes is an order of accesses that has each of them. -/
theorem readPhaseFillsStagingInAnyOrder : Obligations.ReadPhaseFillsStagingInAnyOrder := by
  intro s snap segs order rest hlive hphase haccessed hin hperm hbacked
  obtain ⟨t, hrun, hframe, hlength, hfilled, hothers⟩ :=
    run_reads hlive hphase hin (.of_perm hperm haccessed hbacked)
  refine ⟨t, hrun, hframe, ?_, fun i hi => hfilled i (hperm.mem_iff.2 (List.mem_range.2 hi)), fun i hi => hothers i ?_⟩
  · rw [hlength, haccessed, hperm.length_eq]
    simp
  · rw [hperm.mem_iff, List.mem_range]
    omega

/-! ## The write phase -/

/-- The next access of a write phase. -/
theorem step_write {s : State} {snap : Snapshot} {segs : Segs} {i : Nat} {order : List Nat} {rest : List Stimulus}
    (hlive : s.fault = none) (hphase : s.phase = .writePending snap segs) (hin : s.inbox = .byteAccess i :: rest)
    (horder : AccessOrder s snap.size.toNat segs (i :: order)) :
    ∃ pa, segPa segs i = some pa ∧ step s = .next (writeByte { s with inbox := rest } i pa) := by
  obtain ⟨pa, hpa, haccess⟩ := horder.head writeByte rest
  exact ⟨pa, hpa, by
    rw [step_of_byteAccess hin, byteAccess_of_writePending (s := { s with inbox := rest }) hlive hphase, haccess]⟩

/-- The accesses of a write phase store the staging bytes of their indices, and write nowhere else. -/
theorem run_writes {snap : Snapshot} {segs : Segs} {rest : List Stimulus} {order : List Nat} {s : State}
    (hlive : s.fault = none) (hmem : MemoryInv s) (hphase : s.phase = .writePending snap segs)
    (hin : s.inbox = order.map Stimulus.byteAccess ++ rest) (horder : AccessOrder s snap.size.toNat segs order) :
    ∃ t : State, core.run order.length s = .next t ∧
      t = { s with inbox := rest, mem := t.mem, accessed := t.accessed } ∧
      t.accessed.length = s.accessed.length + order.length ∧
      (∀ i ∈ order, ∀ pa, segPa segs i = some pa → (∀ j ∈ order, segPa segs j = some pa → j = i) →
        memRead t.mem pa = stgRead s.stg i) ∧
      ∀ a, (∀ i ∈ order, segPa segs i ≠ some a) → memRead t.mem a = memRead s.mem a := by
  induction order generalizing s with
  | nil =>
    have hin : s.inbox = rest := hin
    exact ⟨s, rfl, by rw [← hin], rfl, by simp, fun _ _ => rfl⟩
  | cons i order ih =>
    obtain ⟨pa, hpa, hstep⟩ := step_write hlive hphase hin horder
    obtain ⟨t, hrun, hframe, hlength, hstored, hothers⟩ :=
      ih (s := writeByte { s with inbox := order.map Stimulus.byteAccess ++ rest } i pa) hlive
        (memWrite_wf hmem pa _) hphase rfl (horder.tail rfl rfl)
    obtain ⟨hnew, -⟩ := List.nodup_cons.1 horder.nodup
    refine ⟨t, (run_succ hstep).trans hrun, hframe, ?_, fun j hj pa' hpa' halone => ?_, fun a ha => ?_⟩
    · rw [hlength, writeByte_accessed, length_insertIndex (horder.fresh i (.head _))]
      simp
      omega
    · rcases List.mem_cons.1 hj with rfl | hj
      · cases hpa.symm.trans hpa'
        rw [hothers pa fun k hk hk' => hnew (halone k (.tail _ hk) hk' ▸ hk), writeByte_mem,
          memRead_memWrite _ hmem, if_pos rfl]
      · exact hstored j hj pa' hpa' fun k hk => halone k (.tail _ hk)
    · have hne : a ≠ pa := fun hap => ha i (.head _) (hap ▸ hpa)
      rw [hothers a fun k hk => ha k (.tail _ hk), writeByte_mem, memRead_memWrite _ hmem, if_neg hne]

/-- Settles O31: likewise, and an address that no other byte shares is written once. -/
theorem writePhaseStoresInAnyOrder : Obligations.WritePhaseStoresInAnyOrder := by
  intro s snap segs order rest hlive hmem hphase haccessed hin hperm hbacked
  obtain ⟨t, hrun, hframe, hlength, hstored, hothers⟩ :=
    run_writes hlive hmem hphase hin (.of_perm hperm haccessed hbacked)
  have hmember : ∀ i, i ∈ order ↔ i < snap.size.toNat := fun i => by rw [hperm.mem_iff, List.mem_range]
  refine ⟨t, hrun, hframe, ?_, fun i hi pa hpa halone => ?_, fun a ha => ?_⟩
  · rw [hlength, haccessed, hperm.length_eq]
    simp
  · exact hstored i ((hmember i).2 hi) pa hpa fun j hj => halone j ((hmember j).1 hj)
  · exact hothers a fun i hi => ha i ((hmember i).1 hi)

/-! ## The whole copy -/

theorem not_inMmioWindow_of_hasMemory {p : Platform} {a : Nat} (h : hasMemory p a = true) :
    inMmioWindow p a = false := by
  simp only [hasMemory, Bool.and_eq_true, Bool.not_eq_true'] at h
  exact h.2

theorem MappedToMemory.outside {s : State} {va : U64} {n : U32} (h : MappedToMemory s va n) : MappedOutside s va n :=
  fun i hi => let ⟨pa, hpa, hmem⟩ := h i hi; ⟨pa, hpa, not_inMmioWindow_of_hasMemory hmem⟩

/-- The step that performs READ_DONE, by its word, once every byte has been read. -/
theorem step_readDone {s : State} {snap : Snapshot} {segs : Segs} {o : Operand} {rest : List Stimulus}
    (hlive : s.fault = none) (hphase : s.phase = .readPending snap segs) (hread : s.accessed.length = snap.size.toNat)
    (hmode : s.plat.mode = .processEmulation) (hmapped : MappedOutside s snap.dst snap.size)
    (hin : s.inbox = .request (.word 0x800000#24 o) :: rest) :
    ∃ dst, SegmentsFor s snap.dst snap.size.toNat dst ∧
      step s = .next { s with inbox := rest, phase := .writePending snap dst, accessed := [] } := by
  obtain ⟨dst, hdst, hexec⟩ :=
    exec_readDone_of_mappedOutside (s := { s with inbox := rest }) hlive hphase hread hmode hmapped
  exact ⟨dst, hdst, (step_of_request hin rfl).trans hexec⟩

/-- The step that performs WRITE_DONE, by its word, once every byte has been written. -/
theorem step_writeDone {s : State} {snap : Snapshot} {segs : Segs} {o : Operand} {rest : List Stimulus}
    (hlive : s.fault = none) (hphase : s.phase = .writePending snap segs)
    (hwritten : s.accessed.length = snap.size.toNat) (hin : s.inbox = .request (.word 0xA00000#24 o) :: rest) :
    step s = .next { s with inbox := rest, status := 2, phase := .none, accessed := [] } :=
  (step_of_request hin rfl).trans (exec_writeDone_next.2 ⟨hlive, snap, segs, hphase, hwritten, rfl⟩)

/-- Settles O32: the read phase, READ_DONE, the write phase and WRITE_DONE, one after another; between the phases the
staging buffer holds the source. -/
theorem transferCopiesSourceToDestination : Obligations.TransferCopiesSourceToDestination := by
  intro s snap segs reads writes o o' rest hlive hmem hmode hphase haccessed hin hreads hwrites hsource hdest hdistinct
  have hlength : ∀ {order : List Nat}, order.Perm (List.range snap.size.toNat) → order.length = snap.size.toNat :=
    fun hperm => hperm.length_eq.trans List.length_range
  have hmember : ∀ {i}, i < snap.size.toNat → i ∈ reads ∧ i ∈ writes := fun hi =>
    ⟨hreads.mem_iff.2 (List.mem_range.2 hi), hwrites.mem_iff.2 (List.mem_range.2 hi)⟩
  obtain ⟨t1, hrun1, hframe1, hcount1, hfilled, -⟩ := run_reads hlive hphase hin (.of_perm hreads haccessed hsource)
  obtain ⟨stg, accessed1, rfl⟩ : ∃ stg accessed1, t1 = { s with
      inbox := .request (.word 0x800000#24 o) :: (writes.map Stimulus.byteAccess ++
        .request (.word 0xA00000#24 o') :: rest)
      stg := stg, accessed := accessed1 } := ⟨_, _, hframe1⟩
  have hread : accessed1.length = snap.size.toNat := by
    rw [hcount1, haccessed, hlength hreads]
    simp
  obtain ⟨dst, ⟨-, hdst⟩, hstep1⟩ := step_readDone (s := { s with
    inbox := .request (.word 0x800000#24 o) :: (writes.map Stimulus.byteAccess ++
      .request (.word 0xA00000#24 o') :: rest)
    stg := stg, accessed := accessed1 }) hlive hphase hread hmode hdest.outside rfl
  have hbacked : ∀ i < snap.size.toNat, ∃ pa, segPa dst i = some pa ∧ hasMemory s.plat pa = true := fun i hi =>
    let ⟨pa, hpa, hram⟩ := hdest i hi; ⟨pa, (hdst i hi).trans hpa, hram⟩
  obtain ⟨t2, hrun2, hframe2, hcount2, hstored, hothers⟩ := run_writes (s := { s with
    inbox := writes.map Stimulus.byteAccess ++ .request (.word 0xA00000#24 o') :: rest
    stg := stg, phase := .writePending snap dst, accessed := [] }) hlive hmem rfl rfl (.of_perm hwrites rfl hbacked)
  obtain ⟨mem, accessed2, rfl⟩ : ∃ mem accessed2, t2 = { s with
      inbox := .request (.word 0xA00000#24 o') :: rest
      stg := stg, phase := .writePending snap dst, mem := mem, accessed := accessed2 } := ⟨_, _, hframe2⟩
  have hwritten : accessed2.length = snap.size.toNat := by
    rw [hcount2, hlength hwrites]
    simp
  have hstep2 := step_writeDone (s := { s with
    inbox := .request (.word 0xA00000#24 o') :: rest
    stg := stg, phase := .writePending snap dst, mem := mem, accessed := accessed2 }) hlive rfl hwritten rfl
  have hrun := (run_add (b := 1 + (writes.length + 1)) hrun1).trans
    ((congrArg (core.run · _) (Nat.add_comm 1 _)).trans
      ((run_succ hstep1).trans ((run_add (b := 1) hrun2).trans (run_succ (k := 0) hstep2))))
  rw [← Nat.add_assoc] at hrun
  refine ⟨_, hrun, rfl, fun i hi src d hsrc hd => ?copied, fun a ha => ?elsewhere⟩
  case copied =>
    obtain ⟨hri, hwi⟩ := hmember hi
    refine (hstored i hwi d ((hdst i hi).trans hd) fun j hj hjd => ?_).trans (hfilled i hri src hsrc)
    have hj : j < snap.size.toNat := List.mem_range.1 (hwrites.mem_iff.1 hj)
    exact hdistinct j hj i hi (((hdst j hj).symm.trans hjd).trans hd.symm)
  case elsewhere =>
    exact hothers a fun i hi => by
      have hi := List.mem_range.1 (hwrites.mem_iff.1 hi)
      rw [hdst i hi]
      exact ha i hi

end Sys2Proof.Machine
end

