-- ==== Sys2Proof/Proofs/PseudoOps.lean ====
section
/-! PROOFS. The pseudo-operations of 30_encoding.md R117 perform what their sequences say. -/

namespace Sys2Proof.Machine

/-! ## DMA_COPY's order -/

/-- While some of the setup is left, that is what DMA_COPY allows. -/
theorem nextOfDmaCopy_of_left {src dst : U64} {n : U32} {h : History}
    (hleft : (dmaCopySetup src dst n).filter (fun i => !performed h i) ≠ []) :
    nextOfDmaCopy src dst n h = (dmaCopySetup src dst n).filter (fun i => !performed h i) := by
  obtain ⟨i, rest, hcons⟩ := List.exists_cons_of_ne_nil hleft
  simp [nextOfDmaCopy, hcons]

theorem performed_iff {h : History} {i : Instr} : performed h i = true ↔ ∃ r, (i, r) ∈ h := by
  simp [performed]

/-- The setup may be performed in any order. -/
theorem setup_allowed {src dst : U64} {n : U32} {h : History} {i : Instr} (hi : i ∈ dmaCopySetup src dst n)
    (hnot : performed h i = false) : i ∈ nextOps (.dmaCopy src dst n) h := by
  have hmem : i ∈ (dmaCopySetup src dst n).filter (fun i => !performed h i) := by simp [hi, hnot]
  rw [nextOps, nextOfDmaCopy_of_left (List.ne_nil_of_mem hmem)]
  exact hmem

/-- The trigger comes after the whole setup. -/
theorem setup_performed_of_trigger {src dst : U64} {n : U32} {h : History}
    (hcmd : .wrCmd 1 ∈ nextOps (.dmaCopy src dst n) h) : ∀ i ∈ dmaCopySetup src dst n, ∃ r, (i, r) ∈ h := by
  by_cases hleft : (dmaCopySetup src dst n).filter (fun i => !performed h i) = []
  · intro i hi
    have hdone := List.filter_eq_nil_iff.1 hleft i hi
    exact performed_iff.1 (by simpa using hdone)
  · rw [nextOps, nextOfDmaCopy_of_left hleft] at hcmd
    simpa [dmaCopySetup] using (List.mem_filter.1 hcmd).1

/-! ## Performing one operation -/

/-- A pseudo-operation asks for an operation by its word, which decodes to it. -/
theorem perform_asStimulus {i : Instr} (hwf : i.wf = true) (hfits : i.fitsWord = true) (s : State) :
    perform (asStimulus i) s = exec i s := by
  have hd : decodeRequest s.plat.base (.word (encodeWord i) (encodeOperand i)) = .ok i :=
    decodeOfEncodeWord i hwf hfits
  simp [perform, asStimulus, runRequest, hd]

/-- The requester performs an allowed operation, which completes with its one response. -/
theorem Performs.exec {p : PseudoOp} {h : History} {s t u : State} {i : Instr} {stamp : Time} {reply : Reply}
    (allowed : i ∈ nextOps p h) (hwf : i.wf = true) (hfits : i.fitsWord = true) (done : exec i s = .next t)
    (answer : t.outputs = s.outputs ++ [.response stamp reply]) (rest : Performs p ((i, reply) :: h) t u) :
    Performs p h s u :=
  .own allowed ((perform_asStimulus hwf hfits s).trans done) answer rest

/-! ## The sequences -/

/-- DMA_COPY in the order R117 writes it. -/
theorem performs_dmaCopy {s : State} {src dst : U64} {n : U32} (hlive : s.fault = none) (hidle : s.status ≠ 1)
    (hphase : s.phase = .none) (hbounds : TriggerInBounds { s with srcAddr := src, dstAddr := dst, size := n })
    (hmode : s.plat.mode = .processEmulation) (hmapped : MappedOutside s src n) :
    ∃ segs, SegmentsFor s src n.toNat segs ∧
      Performs (.dmaCopy src dst n) [] s { s with
        srcAddr := src, dstAddr := dst, size := n, command := 1, status := 1
        phase := .readPending ⟨src, dst, n⟩ segs, accessed := []
        outputs := s.outputs ++ List.replicate 4 (.response (s.now + Config.pioLatency) .done) } := by
  have hresponses : ∀ r : Output, s.outputs ++ List.replicate 4 r = s.outputs ++ [r] ++ [r] ++ [r] ++ [r] := by
    simp [List.replicate]
  rw [hresponses]
  obtain ⟨segs, hsegs, htrigger⟩ := exec_wrCmd_of_mappedOutside (v := 1) (s := respond { respond { respond { s with
      srcAddr := src } .done with dstAddr := dst } .done with size := n } .done)
    hlive (by decide) hidle hphase ⟨hbounds.size_le, hbounds.src_le, hbounds.dst_le⟩ hmode hmapped
  refine ⟨segs, hsegs, .exec (i := .wrSrc src) ?_ rfl rfl (exec_wrSrc_next.2 ⟨hlive, rfl⟩) rfl
    (.exec (i := .wrDst dst) ?_ rfl rfl (exec_wrDst_next.2 ⟨hlive, rfl⟩) rfl
      (.exec (i := .wrSize n) ?_ rfl rfl (exec_wrSize_next.2 ⟨hlive, rfl⟩) rfl
        (.exec (i := .wrCmd 1) ?_ rfl rfl htrigger rfl (.finished ?_))))⟩
  · exact setup_allowed (by simp [dmaCopySetup]) rfl
  · exact setup_allowed (by simp [dmaCopySetup]) (by simp [performed])
  · exact setup_allowed (by simp [dmaCopySetup]) (by simp [performed])
  all_goals simp [nextOps, nextOfDmaCopy, dmaCopySetup, performed]

/-- POLL_COMPLETE that reads 2 at once. -/
theorem performs_pollComplete {s : State} (hlive : s.fault = none) (hdone : s.status = 2) :
    Performs .pollComplete [] s { s with
      outputs := s.outputs ++ [.response (s.now + Config.pioLatency) (.word 2)] } := by
  have hread : exec .rdStatus s = .next (respond s (.word 2)) := exec_rdStatus_next.2 ⟨hlive, by rw [hdone]⟩
  exact .exec (i := .rdStatus) (.head _) rfl rfl hread rfl (.finished rfl)

/-- ACK. -/
theorem performs_ack {s : State} (hlive : s.fault = none) :
    Performs .ack [] s { s with
      status := 0, outputs := s.outputs ++ [.response (s.now + Config.pioLatency) .done] } :=
  .exec (i := .wrStatus 0) (.head _) rfl rfl (exec_wrStatus_next.2 ⟨hlive, rfl⟩) rfl (.finished rfl)

/-- The high-word write writes back the low word it has read. -/
theorem performs_writeSrcHigh {s : State} (hlive : s.fault = none) (high : U32) :
    Performs (.writeSrcHigh high) [] s { s with
      srcAddr := (high ++ s.srcAddr.extractLsb' 0 32 : BitVec (32 + 32))
      outputs := s.outputs ++ [.response (s.now + Config.pioLatency) (.dword s.srcAddr),
        .response (s.now + Config.pioLatency) .done] } := by
  have hresponses : ∀ r r' : Output, s.outputs ++ [r, r'] = s.outputs ++ [r] ++ [r'] := by simp
  rw [hresponses]
  exact .exec (i := .rdSrc) (.head _) rfl rfl (exec_rdSrc_next.2 ⟨hlive, rfl⟩) rfl
    (.exec (i := .wrSrc (high ++ lowWord s.srcAddr : BitVec (32 + 32))) (.head _) rfl rfl
      (exec_wrSrc_next.2 ⟨hlive, rfl⟩) rfl (.finished rfl))

/-! ## The end of polling -/

/-- STATUS has been read as 2 since `s`. -/
def ReadComplete (s t : State) : Prop := ∃ stamp, .response stamp (.word 2) ∈ t.outputs.drop s.outputs.length

theorem ReadComplete.of_prefix {s t u : State} (hst : s.outputs <+: t.outputs) (h : ReadComplete t u) :
    ReadComplete s u := by
  obtain ⟨stamp, hmem⟩ := h
  exact ⟨stamp, List.drop_subset_drop_left _ hst.length_le hmem⟩

theorem outputs_prefix_of_step {s t : State} (h : step s = .next t) : s.outputs <+: t.outputs := by
  obtain ⟨-, -, hgrow, -⟩ := timeAndRecordsOnlyGrow s t .first s t h rfl rfl
  exact hgrow

theorem Supplied.outputs_prefix {s t : State} (h : Supplied s t) : s.outputs <+: t.outputs := by
  obtain ⟨stimuli, answers, services, queues, -, rfl⟩ := h
  exact List.prefix_rfl

/-- POLL_COMPLETE is over after an answer of 2 alone. -/
theorem reply_of_poll_over {h : History} {i : Instr} {reply : Reply}
    (hover : nextOps .pollComplete ((i, reply) :: h) = []) : reply = .word 2 := by
  cases reply with
  | word v =>
    have hv : v = 2 := by simpa [nextOps, nextOfPoll] using hover
    rw [hv]
  | done | dword | zero => cases hover

/-- However POLL_COMPLETE ends, the outputs have grown, and a poll that was not over has read 2 since. -/
theorem Performs.poll_ends {h : History} {s t : State} (hp : Performs .pollComplete h s t) :
    s.outputs <+: t.outputs ∧ (nextOps .pollComplete h ≠ [] → ReadComplete s t) := by
  induction hp with
  | finished none_left => exact ⟨List.prefix_rfl, fun hne => absurd none_left hne⟩
  | @own h s t u i stamp reply allowed done answer rest ih =>
    obtain ⟨hgrow, hends⟩ := ih
    have hanswer : s.outputs <+: t.outputs := ⟨_, answer.symm⟩
    refine ⟨hanswer.trans hgrow, fun _ => ?_⟩
    by_cases hover : nextOps .pollComplete ((i, reply) :: h) = []
    · obtain ⟨later, hlater⟩ := hgrow
      rw [answer, reply_of_poll_over hover] at hlater
      exact ⟨stamp, by simp [← hlater]⟩
    · exact (hends hover).of_prefix hanswer
  | other one rest ih =>
    have hgrow := outputs_prefix_of_step one
    exact ⟨hgrow.trans ih.1, fun hne => (ih.2 hne).of_prefix hgrow⟩
  | arrival supplied rest ih =>
    have hgrow := supplied.outputs_prefix
    exact ⟨hgrow.trans ih.1, fun hne => (ih.2 hne).of_prefix hgrow⟩

/-- Settles O60: the sequences are performed with nothing between their operations; whatever comes between, a poll ends
with its read of 2. -/
theorem pseudoOperationsPerform : Obligations.PseudoOperationsPerform := by
  refine ⟨fun src dst n h => ⟨fun i hi hnot => setup_allowed hi hnot, setup_performed_of_trigger⟩, fun s hlive => ?_⟩
  exact ⟨fun src dst n hidle hphase hbounds hmode hmapped =>
      performs_dmaCopy hlive hidle hphase hbounds hmode hmapped,
    performs_pollComplete hlive, fun t hp => hp.poll_ends.2 (List.cons_ne_nil _ _), performs_ack hlive,
    performs_writeSrcHigh hlive⟩

end Sys2Proof.Machine
end

