-- ==== Sys2Proof/Proofs/Fairness.lean ====
section
/-! PROOFS. In every run fair to the transfer engines a phase is left (41_transfer_controller.md R182, 92_eei_decisions.md
D20). -/

namespace Sys2Proof.Machine

/-! ## The views of one engine or queue along a run -/

/-- The views of `w` along a run of the machine. -/
structure RunViews (run : Nat → State) (w : Who) (views : Nat → State) : Prop where
  isRun : IsRun run
  view : ∀ j, viewAt (run j) w = some (views j)

theorem RunViews.exists_of_view {run : Nat → State} {w : Who} (hrun : IsRun run) {k : Nat} {v : State}
    (hv : viewAt (run k) w = some v) : ∃ views, RunViews run w views ∧ views k = v := by
  obtain ⟨views, hviews⟩ := run_views hrun hv
  exact ⟨views, ⟨hrun, hviews⟩, Option.some.inj ((hviews k).symm.trans hv)⟩

theorem RunViews.live {run : Nat → State} {w : Who} {views : Nat → State} (h : RunViews run w views) (j : Nat) :
    (views j).fault = none := by
  obtain ⟨t, hstep, -⟩ := h.isRun j
  obtain ⟨-, hfault, -⟩ := viewAt_shared (h.view j)
  exact hfault.trans (step_next_live hstep)

/-- From the view after a step to the next one of the run only stimuli and answers have arrived. -/
def Arrived (u v : State) : Prop :=
  ∃ rest answers services queues, v = { u with
    inbox := rest, peerScript := answers, backendScript := services, otherQueues := queues }

/-- One step of a run at the view of `w`, and what arrives after it. -/
theorem RunViews.next {run : Nat → State} {w : Who} {views : Nat → State} (h : RunViews run w views) (j : Nat) :
    ∃ t u, step (run j) = .next t ∧ viewAt t w = some u ∧ u.fault = none ∧ Arrived u (views (j + 1)) := by
  obtain ⟨t, u, rest, answers, services, queues, hstep, hu, hnext⟩ := run_view_next h.isRun (h.view j)
  have harrived := Option.some.inj ((h.view (j + 1)).symm.trans hnext)
  have hlive := h.live (j + 1)
  rw [harrived] at hlive
  exact ⟨t, u, hstep, hu, hlive, rest, answers, services, queues, harrived⟩

/-- What holds of a view at the start, is kept by every step and is not changed by an arrival holds all along. -/
theorem RunViews.invariant {run : Nat → State} {w : Who} {views : Nat → State} (h : RunViews run w views)
    {Inv : State → Prop} (h0 : Inv (views 0))
    (hstep : ∀ {s t v u : State}, step s = .next t → viewAt s w = some v → viewAt t w = some u → Inv v → Inv u)
    (harrived : ∀ {u v : State}, Arrived u v → Inv u → Inv v) : ∀ j, Inv (views j) := by
  intro j
  induction j with
  | zero => exact h0
  | succ j ih =>
    obtain ⟨t, u, hst, hu, -, hnext⟩ := h.next j
    exact harrived hnext (hstep hst (h.view j) hu ih)

theorem EngineInv.arrived {u v : State} (h : Arrived u v) (hinv : EngineInv u) : EngineInv v := by
  obtain ⟨rest, answers, services, queues, rfl⟩ := h
  exact hinv.congr rfl rfl rfl rfl

/-! ## Progress of a phase -/

/-- While the phase stays, no access is forgotten. -/
theorem accessed_length_mono {s v u : State} {w : Who} (h : ViewActs s w v u) (hphase : u.phase = v.phase) :
    v.accessed.length ≤ u.accessed.length := by
  rcases h.engine_cases with ⟨i, -, hexec⟩ | ⟨i, haccess⟩ | hkept
  · cases exec_phaseMove hexec with
    | kept _ accessed => rw [accessed]
    | begins snap segs _ _ check _ phase =>
      obtain ⟨hnone, -⟩ := startCheck_ok check
      simp [hphase, hnone] at phase
    | turns snap segs dst _ before _ _ _ phase => simp [hphase, before] at phase
    | ends snap segs _ before _ phase => simp [hphase, before] at phase
  · rcases byteAccess_next haccess with ⟨-, ⟨_, _, _, -, -, hnew, -, -, rfl⟩ | ⟨_, _, _, -, -, hnew, -, -, rfl⟩⟩
    · rw [readByte_accessed, length_insertIndex hnew]
      omega
    · rw [writeByte_accessed, length_insertIndex hnew]
      omega
  · rw [hkept.accessed]

theorem RunViews.accessed_mono {run : Nat → State} {w : Who} {views : Nat → State} (h : RunViews run w views) {j : Nat}
    (hphase : (views (j + 1)).phase = (views j).phase) :
    (views j).accessed.length ≤ (views (j + 1)).accessed.length := by
  obtain ⟨t, u, hstep, hu, -, rest, answers, services, queues, hnext⟩ := h.next j
  obtain ⟨v0, u', hu', -, ⟨rest', k, rfl⟩, hacts⟩ := step_view hstep (h.view j)
  cases hu'.symm.trans hu
  rw [hnext] at hphase ⊢
  have hmono := accessed_length_mono hacts hphase
  exact hmono

/-- A step of the engine that leaves the phase accesses one more byte. -/
theorem RunViews.accessed_succ {run : Nat → State} {w : Who} {views : Nat → State} (h : RunViews run w views) {j : Nat}
    (hsteps : EngineSteps (run j) w) (hphase : (views (j + 1)).phase = (views j).phase) :
    (views (j + 1)).accessed.length = (views j).accessed.length + 1 := by
  obtain ⟨t, u, hstep, hu, hlive, rest, answers, services, queues, hnext⟩ := h.next j
  obtain ⟨v, hv, l, hl, hfires⟩ := hsteps
  cases hv.symm.trans (h.view j)
  obtain ⟨v0, u', ⟨rest', k, rfl⟩, hperf, hu'⟩ := stepFires_view hfires hstep hv (.inl hl)
  cases hu'.symm.trans hu
  rw [hnext] at hphase ⊢
  exact (engineEvent_progress (of_mem_engineEvents hl).2 hperf hlive).resolve_left (absurd hphase)

/-- The bytes accessed are at most the transfer's. -/
theorem EngineInv.accessed_length_le {s : State} {snap : Snapshot} {segs : Segs} (hinv : EngineInv s)
    (hphase : s.phase = .readPending snap segs ∨ s.phase = .writePending snap segs) :
    s.accessed.length ≤ snap.size.toNat := by
  have hok := hinv.transfer hphase
  exact Machine.accessed_length_le hok.rising hok.within

/-- In a fair run an outstanding phase that nothing obstructs is left. -/
theorem RunViews.phase_left {run : Nat → State} {w : Who} {views : Nat → State} (h : RunViews run w views)
    (hfair : WeaklyFair run) (hinv : ∀ j, EngineInv (views j)) (hfree : ∀ j, PhaseUnobstructed (views j)) {k : Nat}
    {snap : Snapshot} {segs : Segs} {phase : Phase} (hshape : phase = .readPending snap segs ∨ phase = .writePending snap segs)
    (hk : (views k).phase = phase) : ∃ j, k ≤ j ∧ (views j).phase = phase ∧ (views (j + 1)).phase ≠ phase := by
  by_contra hnever
  push Not at hnever
  have hstays : ∀ j, k ≤ j → (views j).phase = phase := by
    intro j hj
    induction j, hj using Nat.le_induction with
    | base => exact hk
    | succ j hj ih => exact hnever j hj ih
  have hsame : ∀ j, k ≤ j → (views (j + 1)).phase = (views j).phase := fun j hj =>
    (hstays (j + 1) (Nat.le_succ_of_le hj)).trans (hstays j hj).symm
  have hmono : ∀ i j, k ≤ i → i ≤ j → (views i).accessed.length ≤ (views j).accessed.length := by
    intro i j hi hij
    induction j, hij using Nat.le_induction with
    | base => exact le_rfl
    | succ j hij ih => exact ih.trans (h.accessed_mono (hsame j (hi.trans hij)))
  have henabled : ∀ j, k ≤ j → EngineEnabled (run j) w := by
    intro j hj
    have houtstanding : (views j).phase ≠ .none := by
      rw [hstays j hj]
      rcases hshape with rfl | rfl <;> simp
    exact ⟨views j, h.view j, exists_engineEvent (h.live j) (hinv j) (hfree j) houtstanding⟩
  have hunbounded : ∀ m, ∃ j, k ≤ j ∧ m ≤ (views j).accessed.length := by
    intro m
    induction m with
    | zero => exact ⟨k, le_rfl, Nat.zero_le _⟩
    | succ m ih =>
      obtain ⟨i, hi, hm⟩ := ih
      obtain ⟨j, hij, hsteps⟩ := hfair w i fun j hj => henabled j (hi.trans hj)
      have hj := hi.trans hij
      refine ⟨j + 1, Nat.le_succ_of_le hj, ?_⟩
      rw [h.accessed_succ hsteps (hsame j hj)]
      exact Nat.succ_le_succ (hm.trans (hmono i j hi hij))
  obtain ⟨j, hj, hmore⟩ := hunbounded (snap.size.toNat + 1)
  have hle := (hinv j).accessed_length_le (hstays j hj ▸ hshape)
  omega

/-- How a phase is left, in a run. -/
theorem RunViews.phase_next {run : Nat → State} {w : Who} {views : Nat → State} (h : RunViews run w views) {j : Nat}
    {snap : Snapshot} {segs : Segs} :
    ((views j).phase = .readPending snap segs → (views (j + 1)).phase ≠ .readPending snap segs →
      ∃ dst, (views (j + 1)).phase = .writePending snap dst) ∧
    ((views j).phase = .writePending snap segs → (views (j + 1)).phase ≠ .writePending snap segs →
      (views (j + 1)).phase = .none ∧ (views (j + 1)).status = 2) := by
  obtain ⟨t, u, hstep, hu, -, rest, answers, services, queues, hnext⟩ := h.next j
  rw [hnext]
  rcases phaseAdvancesOnlyInOrder _ _ _ _ _ hstep (h.view j) hu with hsame | ⟨hnone, -⟩ |
    ⟨snap', segs', dst, hread, -, hwrite, -⟩ | ⟨snap', segs', hwrite, -, hnone, hstatus⟩
  · exact ⟨fun hp hne => absurd (hsame.trans hp) hne, fun hp hne => absurd (hsame.trans hp) hne⟩
  · exact ⟨fun hp => absurd (hp.symm.trans hnone) nofun, fun hp => absurd (hp.symm.trans hnone) nofun⟩
  · refine ⟨fun hp _ => ?_, fun hp => absurd (hp.symm.trans hread) nofun⟩
    cases hp.symm.trans hread
    exact ⟨dst, hwrite⟩
  · exact ⟨fun hp => absurd (hp.symm.trans hwrite) nofun, fun _ _ => ⟨hnone, hstatus⟩⟩

/-- Settles O58: an outstanding phase is left in a fair run, and there is one way to leave each. -/
theorem fairTransferCompletes : Obligations.FairTransferCompletes := by
  intro run w hrun hfair hinv0 hfree k v snap segs hv
  obtain ⟨views, h, rfl⟩ := RunViews.exists_of_view hrun hv
  have hinv : ∀ j, EngineInv (views j) :=
    h.invariant (hinv0 _ (h.view 0)) (fun hs hv hu hi => hi.step hs hv hu) EngineInv.arrived
  have hfree' : ∀ j, PhaseUnobstructed (views j) := fun j => hfree j _ (h.view j)
  refine ⟨fun hread => ?_, fun hwrite => ?_⟩
  · obtain ⟨j, hkj, hj, hleft⟩ := h.phase_left hfair hinv hfree' (.inl rfl) hread
    obtain ⟨dst, hdst⟩ := h.phase_next.1 hj hleft
    exact ⟨j, _, _, dst, hkj, h.view j, h.view (j + 1), hj, hdst⟩
  · obtain ⟨j, hkj, hj, hleft⟩ := h.phase_left hfair hinv hfree' (.inr rfl) hwrite
    obtain ⟨hnone, hstatus⟩ := h.phase_next.2 hj hleft
    exact ⟨j, _, _, hkj, h.view j, h.view (j + 1), hj, hnone, hstatus⟩

end Sys2Proof.Machine
end

