-- ==== Sys2Proof/Proofs/Delivery.lean ====
section
/-! PROOFS. Over runs: a scheduled drain fires at its time and offers the head, and a refused head waits for PEER_READY
(42_response_queue.md sections 3 to 6; the premises are those of 70_reset_and_hazards.md R330). -/

namespace Sys2Proof.Machine

/-! ## A head that waits, and a head that is offered -/

/-- `e` is at the head, and the packets delivered are `sent`. -/
def HeadWaits (e : Entry) (sent : List Packet) (v : State) : Prop :=
  (∃ rest, v.queue = e :: rest) ∧ deliveredPkts v.outputs = sent

/-- `e` has been delivered next, or refused. -/
def Offered (e : Entry) (sent : List Packet) (v : State) : Prop :=
  deliveredPkts v.outputs = sent ++ [e.pkt] ∨
    v.retry = true ∧ (∃ rest, v.queue = e :: rest) ∧ deliveredPkts v.outputs = sent

theorem HeadWaits.of_kept {e : Entry} {sent : List Packet} {v u : State} (h : HeadWaits e sent v)
    (hkept : QueueKept v u) : HeadWaits e sent u := by
  obtain ⟨hhead, hsent⟩ := h
  obtain ⟨l, hout, -, hdel⟩ := hkept.outputs
  exact ⟨by rwa [hkept.queue], by rw [hout, deliveredPkts_append, hdel, List.append_nil, hsent]⟩

/-- SUBMIT leaves a waiting head, `retry`, and, behind others, what is scheduled. -/
theorem HeadWaits.submit {e : Entry} {sent : List Packet} {v : State} (h : HeadWaits e sent v) (p : Packet) :
    HeadWaits e sent (submitEffect v p) ∧ (submitEffect v p).retry = v.retry ∧
      (submitEffect v p).drainAt = v.drainAt := by
  obtain ⟨⟨rest, hhead⟩, hsent⟩ := h
  have hdelivered : deliveredPkts (submitEffect v p).outputs = sent := by simp [hsent]
  obtain ⟨hretry, -, ⟨hqueue, hdrain⟩ | ⟨e', -, hqueue, hdrain⟩⟩ := submitEffect_queue v p
  · exact ⟨⟨⟨rest, hqueue.trans hhead⟩, hdelivered⟩, hretry, hdrain⟩
  · rw [if_neg (by simp [hhead])] at hdrain
    exact ⟨⟨⟨rest ++ [e'], by simp [hqueue, hhead]⟩, hdelivered⟩, hretry, hdrain⟩

/-- An attempt offers the head. -/
theorem HeadWaits.tryDeliver {e : Entry} {sent : List Packet} {v : State} (h : HeadWaits e sent v) :
    Offered e sent (tryDeliver v) := by
  obtain ⟨⟨rest, hhead⟩, hsent⟩ := h
  rcases tryDeliver_cases v with ⟨hq, -⟩ | ⟨e', rest', hq, -, heff⟩ | ⟨e', rest', hq, -, heff⟩
  · cases hhead.symm.trans hq
  · cases hhead.symm.trans hq
    exact .inl (by simp [heff, deliverHead, hsent])
  · cases hhead.symm.trans hq
    exact .inr ⟨by rw [heff], ⟨rest, by simp [heff, hhead]⟩, by simp [heff, hsent]⟩

theorem Attempt.headWaits {i : Instr} {s a : State} {e : Entry} {sent : List Packet} (h : Attempt i s a)
    (hwaits : HeadWaits e sent s) : HeadWaits e sent a := by
  obtain ⟨hqueue, houtputs, -⟩ := h.same
  rwa [HeadWaits, hqueue, houtputs]

/-! ## Until a drain fires -/

/-- A drain is scheduled for `d`, with `e` at the head. -/
def DrainWaits (d : Time) (e : Entry) (sent : List Packet) (v : State) : Prop :=
  v.drainAt = some d ∧ HeadWaits e sent v

/-- What a step does to a queue, at its view after the stimulus is taken or the schedule drawn. -/
theorem step_queue_cases {s t v u : State} {w : Who} (hstep : step s = .next t) (hv : viewAt s w = some v)
    (hu : viewAt t w = some u) :
    ∃ rest k, (∃ i, Comes s w i ∧ QueueMove i { v with inbox := rest, draws := k } u) ∨
      QueueKept { v with inbox := rest, draws := k } u := by
  obtain ⟨v0, u', hu', -, ⟨rest, k, rfl⟩, hacts⟩ := step_view hstep hv
  cases hu'.symm.trans hu
  rcases hacts.queue_cases with ⟨i, hi, hcomes, hexec⟩ | hkept
  · exact ⟨rest, k, .inl ⟨i, hcomes, exec_queueMove hi hexec⟩⟩
  · exact ⟨rest, k, .inr hkept⟩

/-- A drain that a step performs is the drain event. -/
theorem Comes.drain {s : State} {w : Who} (h : Comes s w .drain) : StepFires s w .drain := by
  rcases h with hasked | hother | hother | ⟨-, hfires⟩
  · exact stepFires_of_asked hasked
  · cases hother
  · cases hother
  · exact hfires

/-- A PEER_READY that a step performs is the peer's. -/
theorem Comes.peerReady {s : State} {w : Who} (h : Comes s w .peerReady) : PeerSignals s w := by
  rcases h with hasked | hother | hother | ⟨hother, -⟩
  · exact hasked
  all_goals cases hother

/-- A scheduled drain stays, and its head, through every step that is not the drain and raises no fatal condition. -/
theorem DrainWaits.kept {s t v u : State} {w : Who} {d : Time} {e : Entry} {sent : List Packet}
    (h : DrainWaits d e sent v) (hinv : QueueInv v) (hstep : step s = .next t) (hv : viewAt s w = some v)
    (hu : viewAt t w = some u) (hlive : u.fault = none) (hnot : ¬ DrainFires s w) : DrainWaits d e sent u := by
  obtain ⟨hd, hwaits⟩ := h
  have hclear : v.retry = false := (hinv.drain_iff.1 (by rw [hd]; rfl)).2
  obtain ⟨hnow, -⟩ := viewAt_shared hv
  obtain ⟨rest, k, ⟨i, hcomes, hmove⟩ | hkept⟩ := step_queue_cases hstep hv hu
  · cases hmove with
    | submits p _ effect =>
      obtain ⟨hwaits', -, hdrain⟩ := HeadWaits.submit (v := { v with inbox := rest, draws := k }) hwaits p
      rw [effect]
      exact ⟨hdrain.trans hd, hwaits'⟩
    | attempts a by_ effect =>
      cases by_ with
      | drain op _ due =>
        subst op
        exact absurd ⟨v, hv, due.trans (congrArg some hnow), hcomes.drain⟩ hnot
      | alone _ _ drainAt => cases hd.symm.trans drainAt
      | peerReady _ retry => cases hclear.symm.trans retry
    | skips _ retry => cases hclear.symm.trans retry
    | raises _ _ effect =>
      rw [effect] at hlive
      cases hlive
  · exact ⟨hkept.drainAt.trans hd, HeadWaits.of_kept (v := { v with inbox := rest, draws := k }) hwaits hkept⟩

/-- The drain event fires at its time and offers the head. -/
theorem DrainWaits.fires {s t v u : State} {w : Who} {d : Time} {e : Entry} {sent : List Packet}
    (h : DrainWaits d e sent v) (hinv : QueueInv v) (hstep : step s = .next t) (hv : viewAt s w = some v)
    (hu : viewAt t w = some u) (hfires : DrainFires s w) : s.now = d ∧ Offered e sent u := by
  obtain ⟨hd, hwaits⟩ := h
  have hclear : v.retry = false := (hinv.drain_iff.1 (by rw [hd]; rfl)).2
  obtain ⟨hnow, -⟩ := viewAt_shared hv
  obtain ⟨v', hv', hdue, hevent⟩ := hfires
  cases hv'.symm.trans hv
  refine ⟨Option.some.inj (hdue.symm.trans hd), ?_⟩
  have hdue' : v.drainAt = some v.now := by rw [hdue, hnow]
  obtain ⟨v0, u', ⟨rest, k, rfl⟩, hexec, hu'⟩ := stepFires_view hevent hstep hv (.inr (mem_dueDrain.2 ⟨rfl, hdue'⟩))
  cases hu'.symm.trans hu
  cases exec_queueMove (i := .drain) rfl hexec with
  | submits _ op => cases op
  | attempts a by_ effect =>
    rw [effect]
    exact (by_.headWaits hwaits).tryDeliver
  | skips _ retry => cases hclear.symm.trans retry
  | raises op => cases op

/-! ## Until a peer signals -/

/-- `retry` is set, with `e` at the head. -/
def RetryWaits (e : Entry) (sent : List Packet) (v : State) : Prop :=
  v.retry = true ∧ HeadWaits e sent v

/-- A refused head stays, and `retry`, through every step that is not the peer's PEER_READY. -/
theorem RetryWaits.kept {s t v u : State} {w : Who} {e : Entry} {sent : List Packet} (h : RetryWaits e sent v)
    (hstep : step s = .next t) (hv : viewAt s w = some v) (hu : viewAt t w = some u) (hnot : ¬ PeerSignals s w) :
    RetryWaits e sent u := by
  obtain ⟨hr, hwaits⟩ := h
  obtain ⟨rest, k, ⟨i, hcomes, hmove⟩ | hkept⟩ := step_queue_cases hstep hv hu
  · cases hmove with
    | submits p _ effect =>
      obtain ⟨hwaits', hretry, -⟩ := HeadWaits.submit (v := { v with inbox := rest, draws := k }) hwaits p
      rw [effect]
      exact ⟨hretry.trans hr, hwaits'⟩
    | attempts a by_ effect =>
      cases by_ with
      | drain _ retry | alone _ retry => cases hr.symm.trans retry
      | peerReady op =>
        subst op
        exact absurd hcomes.peerReady hnot
    | skips _ _ _ effect =>
      rw [effect]
      exact ⟨hr, hwaits⟩
    | raises _ retry => cases hr.symm.trans retry
  · exact ⟨hkept.retry.trans hr, HeadWaits.of_kept (v := { v with inbox := rest, draws := k }) hwaits hkept⟩

/-- The peer's PEER_READY offers the head again. -/
theorem RetryWaits.signals {s t v u : State} {w : Who} {e : Entry} {sent : List Packet} (h : RetryWaits e sent v)
    (hstep : step s = .next t) (hv : viewAt s w = some v) (hu : viewAt t w = some u) (hsignal : PeerSignals s w) :
    Offered e sent u := by
  obtain ⟨hr, hwaits⟩ := h
  obtain ⟨rest, u', hexec, hu'⟩ := asked_step hsignal hstep hv
  cases hu'.symm.trans hu
  cases exec_queueMove (i := .peerReady) rfl hexec with
  | submits _ op => cases op
  | attempts a by_ effect =>
    rw [effect]
    exact (by_.headWaits hwaits).tryDeliver
  | skips op => cases op
  | raises _ retry => cases hr.symm.trans retry

/-! ## Runs -/

/-- Up to the first time that something happens, what every step before it keeps holds. -/
theorem exists_first {happens holds : Nat → Prop} {k : Nat} (hex : ∃ j, k ≤ j ∧ happens j) (hk : holds k)
    (hkeep : ∀ j, k ≤ j → ¬ happens j → holds j → holds (j + 1)) :
    ∃ j, k ≤ j ∧ happens j ∧ ∀ i, k ≤ i → i ≤ j → holds i := by
  classical
  obtain ⟨hkj, hj⟩ := Nat.find_spec hex
  refine ⟨Nat.find hex, hkj, hj, fun i hi => ?_⟩
  induction i, hi using Nat.le_induction with
  | base => exact fun _ => hk
  | succ i hi ih =>
    intro hij
    exact hkeep i hi (fun hhappens => Nat.find_min hex hij ⟨hi, hhappens⟩) (ih (Nat.le_of_succ_le hij))

theorem QueueInv.arrived {u v : State} (h : Arrived u v) (hinv : QueueInv u) : QueueInv v := by
  obtain ⟨rest, answers, services, queues, rfl⟩ := h
  exact hinv.congr rfl rfl rfl rfl

/-- What an arrival leaves of the queue. -/
theorem Arrived.queue {u v : State} (h : Arrived u v) {d : Time} {e : Entry} {sent : List Packet} :
    (DrainWaits d e sent u → DrainWaits d e sent v) ∧ (RetryWaits e sent u → RetryWaits e sent v) ∧
      (Offered e sent u → Offered e sent v) := by
  obtain ⟨rest, answers, services, queues, rfl⟩ := h
  exact ⟨id, id, id⟩

/-- Where the scheduler fires every scheduled event, a scheduled drain fires at its time and offers its head. -/
theorem RunViews.drain_offers {run : Nat → State} {w : Who} {views : Nat → State} (h : RunViews run w views)
    (hsched : SchedulerFires run) (hinv : ∀ j, QueueInv (views j)) {k : Nat} {d : Time} {e : Entry}
    {sent : List Packet} (hk : DrainWaits d e sent (views k)) :
    ∃ j, k ≤ j ∧ DrainFires (run j) w ∧ (run j).now = d ∧ (∀ i, k ≤ i → i ≤ j → DrainWaits d e sent (views i)) ∧
      Offered e sent (views (j + 1)) := by
  obtain ⟨j, hkj, hfires, hwaits⟩ := exists_first (happens := fun j => DrainFires (run j) w)
    (holds := fun j => DrainWaits d e sent (views j)) (hsched w k _ d (h.view k) hk.1) hk fun j _ hnot hj => by
      obtain ⟨t, u, hstep, hu, hlive, harrived⟩ := h.next j
      exact harrived.queue.1 (hj.kept (hinv j) hstep (h.view j) hu hlive hnot)
  obtain ⟨t, u, hstep, hu, -, harrived⟩ := h.next j
  obtain ⟨hnow, hoffered⟩ := (hwaits j hkj le_rfl).fires (hinv j) hstep (h.view j) hu hfires
  exact ⟨j, hkj, hfires, hnow, hwaits, (harrived.queue (d := d)).2.2 hoffered⟩

/-- Where the peers keep their duty, a refused head is offered again. -/
theorem RunViews.peer_offers {run : Nat → State} {w : Who} {views : Nat → State} (h : RunViews run w views)
    (hduty : PeersKeepDuty run) {k : Nat} {e : Entry} {sent : List Packet} (hk : RetryWaits e sent (views k)) :
    ∃ j, k ≤ j ∧ PeerSignals (run j) w ∧ (∀ i, k ≤ i → i ≤ j → RetryWaits e sent (views i)) ∧
      Offered e sent (views (j + 1)) := by
  obtain ⟨j, hkj, hsignal, hwaits⟩ := exists_first (happens := fun j => PeerSignals (run j) w)
    (holds := fun j => RetryWaits e sent (views j)) (hduty w k _ (h.view k) hk.1) hk fun j _ hnot hj => by
      obtain ⟨t, u, hstep, hu, -, harrived⟩ := h.next j
      exact (harrived.queue (d := 0)).2.1 (hj.kept hstep (h.view j) hu hnot)
  obtain ⟨t, u, hstep, hu, -, harrived⟩ := h.next j
  exact ⟨j, hkj, hsignal, hwaits,
    (harrived.queue (d := 0)).2.2 ((hwaits j hkj le_rfl).signals hstep (h.view j) hu hsignal)⟩

/-! ## A peer that signals in every step and refuses for ever -/

/-- A refused packet at the head, the peer about to signal and to refuse again, and no further engine or queue. -/
def refusing : State :=
  { State.reset with
    queue := [⟨⟨0, 0, false, [], true, true⟩, 0⟩], retry := true, inbox := [asStimulus .peerReady], peerScript := [false]
    otherEngines := [], otherQueues := [] }

theorem refusing_view {w : Who} {v : State} (h : viewAt refusing w = some v) : w = .first ∧ v = refusing := by
  cases w with
  | first => exact ⟨rfl, (Option.some.inj h).symm⟩
  | engine | queue => cases h

/-- The refusal takes the signal and the answer, and no more. -/
theorem step_refusing : step refusing = .next { refusing with inbox := [], peerScript := [] } := by
  have hperform : step refusing = exec .peerReady { refusing with inbox := [] } :=
    perform_asStimulus (i := .peerReady) rfl rfl { refusing with inbox := [] }
  rw [hperform, exec_peerReady_eq_tryDeliver rfl rfl]
  rfl

/-- The run in which it signals again after every refusal. -/
theorem isRun_refusing : IsRun fun _ => refusing := fun _ =>
  ⟨_, step_refusing, [asStimulus .peerReady], [false], [], [], .nil, rfl⟩

theorem peerSignals_refusing : PeerSignals refusing .first := rfl

/-- Settles O59: each premise brings the event, up to which every step keeps the head waiting and which offers it; the
peer that always refuses meets both premises. -/
theorem peerDutyResumesDelivery : Obligations.PeerDutyResumesDelivery := by
  refine ⟨fun run w hrun hsched hinv0 k v d e tail hv hd hq => ?drain,
    fun run w hrun hduty k v e tail hv hr hq => ?duty, fun _ => refusing, isRun_refusing, ?sched, ?keeps, fun k => ?always⟩
  case drain =>
    obtain ⟨views, h, rfl⟩ := RunViews.exists_of_view hrun hv
    have hinv : ∀ j, QueueInv (views j) :=
      h.invariant (hinv0 _ (h.view 0)) (fun hs hv hu hi => stepKeepsQueueInvariant _ _ _ _ _ hs hv hu hi)
        QueueInv.arrived
    obtain ⟨j, hkj, hfires, hnow, hwaits, hoffered⟩ := h.drain_offers hsched hinv ⟨hd, ⟨tail, hq⟩, rfl⟩
    refine ⟨j, _, hkj, hfires, hnow, h.view (j + 1), fun i u hi hij hu => ?_, hoffered⟩
    cases (h.view i).symm.trans hu
    exact hwaits i hi hij
  case duty =>
    obtain ⟨views, h, rfl⟩ := RunViews.exists_of_view hrun hv
    obtain ⟨j, hkj, hsignal, hwaits, hoffered⟩ := h.peer_offers hduty ⟨hr, ⟨tail, hq⟩, rfl⟩
    refine ⟨j, _, hkj, hsignal, h.view (j + 1), fun i u hi hij hu => ?_, hoffered⟩
    cases (h.view i).symm.trans hu
    exact hwaits i hi hij
  case sched =>
    intro w k v d hv hd
    obtain ⟨rfl, rfl⟩ := refusing_view hv
    cases hd
  case keeps =>
    intro w k v hv _
    obtain ⟨rfl, rfl⟩ := refusing_view hv
    exact ⟨k, le_rfl, peerSignals_refusing⟩
  case always => exact ⟨peerSignals_refusing, rfl, List.cons_ne_nil _ _, rfl⟩

end Sys2Proof.Machine
end
